-- ==== Sys2Proof/Word.lean ====
section
/-! DEFINITION. The two word types of the block (spec 00_scope.md R6): bytes `u8` and 32-bit words `u32`, both
unsigned. Cursors and addresses are natural numbers (R7) and use `Nat`. -/

namespace Sys2Proof

/-- `u8`: one memory cell, one byte of the compressed stream (R6). -/
abbrev Byte := BitVec 8

/-- `u32`: a data word. `+` and `*` on it are the spec's `add32` and `mul32` (R7): they wrap modulo 2^32. -/
abbrev Word := BitVec 32

end Sys2Proof
end

