-- ==== Sys2Proof/Syntax.lean ====
section
/-! DEFINITION. The two levels of instruction of the block (spec 00_scope.md R2): the four commands of the
compressed stream and the five host operations, one constructor per row of spec/opcode_table.json, with their operands
as values; and the words a host operation is given in (30_encoding.md R73). -/

namespace Sys2Proof

/-- The memory select `sel` of `TDEC` (R73, R115): 0 is SRC, 1 is DST. Any other value is refused when the operation
is decoded. -/
inductive MemSel where
  | src
  | dst
  deriving DecidableEq, Repr

/-- One instruction: a stream command (R60 (a)) or a host operation (R60 (e)) with its operands. -/
inductive Instr where
  /-- `CTL`: control-byte fetch, eight command flags, bit 7 first (R62, R85). -/
  | ctl (flags : BitVec 8)
  /-- `LIT`: emit the payload byte `v` (R63, R86). -/
  | lit (v : BitVec 8)
  /-- `REFS`: short back-reference, length nibble `n` (1 to 15) and 12-bit distance field (R64, R66, R87). -/
  | refs (n : BitVec 4) (distance : BitVec 12)
  /-- `REFL`: long back-reference, 12-bit distance field and third byte `extra` (R65, R66, R88). -/
  | refl (distance : BitVec 12) (extra : BitVec 8)
  /-- `LOCATE()`, operation code 1 (R73, R110). -/
  | locate
  /-- `TDEC(sel, base, index)`, operation code 2 (R73, R115). -/
  | tdec (sel : MemSel) (base index : BitVec 32)
  /-- `TENC(base, index, StartVirtual, EndVirtual, StartPhysical, EndPhysical)`, operation code 3 (R73, R116). -/
  | tenc (base index startVirtual endVirtual startPhysical endPhysical : BitVec 32)
  /-- `LZDEC(src_base, src_limit, dst_base, size)`, operation code 4 (R73, R80). -/
  | lzdec (srcBase srcLimit dstBase size : BitVec 32)
  /-- `FIXCHK()`, operation code 5 (R73, R130). -/
  | fixchk
  deriving DecidableEq, Repr

/-- The words of a host operation: the value of `OP` and of the six `ARG` registers (R73). -/
structure OpWords where
  op : BitVec 32
  arg0 : BitVec 32
  arg1 : BitVec 32
  arg2 : BitVec 32
  arg3 : BitVec 32
  arg4 : BitVec 32
  arg5 : BitVec 32
  deriving DecidableEq, Repr

end Sys2Proof
end

