-- ==== Sys2Proof/WellFormed.lean ====
section
/-! DEFINITION. Which terms of `Instr` stand for an instruction the hardware has. -/

namespace Sys2Proof

/-- The constraints of spec/opcode_table.json on operands. The only one is on `REFS`: "n != 0 (n = 0 selects REFL)"
(30_encoding.md R64, R68). Every other operand value is legal (R69, R70, R73); the two values of `sel` are a type. -/
def Instr.wellFormed : Instr → Bool
  | .ctl _ => true
  | .lit _ => true
  | .refs n _ => n != 0#4
  | .refl _ _ => true
  | .locate => true
  | .tdec _ _ _ => true
  | .tenc _ _ _ _ _ _ => true
  | .lzdec _ _ _ _ => true
  | .fixchk => true

end Sys2Proof
end

