-- ==== Sys2Proof/Decode.lean ====
section
/-! DEFINITION. Decoding the bytes of the compressed stream and the words of a host operation, total on every
input and refusing by name (spec 30_encoding.md R60 to R69, R73, R74); then the encoder, written from the same tables;
then the bridge to the numbering of spec/opcode_table.json. -/

namespace Sys2Proof

/-- Why something is no instruction. -/
inductive Reject where
  /-- The bytes end before the command's last payload byte (R68). -/
  | truncated
  /-- An `OP` value outside 1 to 5 is reserved (R74). -/
  | reservedOp (op : BitVec 32)
  /-- A `sel` of `TDEC` other than 0 or 1 (R73). -/
  | reservedSelect (sel : BitVec 32)
  deriving DecidableEq, Repr

/-! ### Bit fields of a back-reference -/

/-- The length nibble `n = b0[7:4]` (R64, R67). -/
def lengthNibble (b0 : Byte) : BitVec 4 := b0.extractLsb' 4 4

/-- `distance = ((b0 & 0x0F) << 8) | b1`, 12 bits (R66). -/
def distanceField (b0 b1 : Byte) : BitVec 12 := b0.extractLsb' 0 4 ++ b1

/-- Byte 0 of a back-reference: `n` above the high four bits of the distance (R64, R65). -/
def refByte0 (n : BitVec 4) (distance : BitVec 12) : Byte := n ++ distance.extractLsb' 8 4

/-- Byte 1 of a back-reference: the low eight bits of the distance (R64, R65). -/
def refByte1 (distance : BitVec 12) : Byte := distance.extractLsb' 0 8

/-! ### The stream level -/

/-- A control byte is any byte (R62, R69). -/
def decodeControl : List Byte → Except Reject (Instr × List Byte)
  | flags :: rest => .ok (.ctl flags, rest)
  | [] => .error .truncated

/-- The payload of a back-reference: two bytes, and a third when the length nibble is 0 (R64, R65, R68). -/
def decodeBackRef : List Byte → Except Reject (Instr × List Byte)
  | b0 :: b1 :: rest =>
    if lengthNibble b0 = 0#4 then
      match rest with
      | extra :: rest => .ok (.refl (distanceField b0 b1) extra, rest)
      | [] => .error .truncated
    else .ok (.refs (lengthNibble b0) (distanceField b0 b1), rest)
  | _ => .error .truncated

/-- One command: its flag `ctl[7]`, then its payload at the head of `bytes` (R68). It answers the command and the
bytes after it. -/
def decodeCommand (flag : Bool) (bytes : List Byte) : Except Reject (Instr × List Byte) :=
  match flag, bytes with
  | true, v :: rest => .ok (.lit v, rest)
  | true, [] => .error .truncated
  | false, bytes => decodeBackRef bytes

/-! ### The host level -/

/-- The memory that a value of `sel` names (R73). -/
def decodeSelect (sel : Word) : Except Reject MemSel :=
  if sel = 0#32 then .ok .src else if sel = 1#32 then .ok .dst else .error (.reservedSelect sel)

/-- A host operation: the value of `OP` with the `ARG` registers it reads; the others are ignored (R26, R73, R74). -/
def decodeOp (w : OpWords) : Except Reject Instr :=
  if w.op = 1#32 then .ok .locate
  else if w.op = 2#32 then
    match decodeSelect w.arg0 with
    | .ok sel => .ok (.tdec sel w.arg1 w.arg2)
    | .error e => .error e
  else if w.op = 3#32 then .ok (.tenc w.arg0 w.arg1 w.arg2 w.arg3 w.arg4 w.arg5)
  else if w.op = 4#32 then .ok (.lzdec w.arg0 w.arg1 w.arg2 w.arg3)
  else if w.op = 5#32 then .ok .fixchk
  else .error (.reservedOp w.op)

/-! ### Both levels in one type -/

/-- Where an instruction stands: a control byte of the stream, a command of the stream after its flag, or the
interface registers of the host (R60). -/
inductive Encoding where
  | control (bytes : List (BitVec 8))
  | command (flag : Bool) (bytes : List (BitVec 8))
  | operation (words : OpWords)
  deriving DecidableEq, Repr

/-- The instruction that an encoding begins with, and the stream bytes after it. -/
def decode : Encoding → Except Reject (Instr × List Byte)
  | .control bytes => decodeControl bytes
  | .command flag bytes => decodeCommand flag bytes
  | .operation w =>
    match decodeOp w with
    | .ok i => .ok (i, [])
    | .error e => .error e

/-- The encoding of a well-formed instruction, from the layouts of R62 to R65 and the table of R73; an `ARG` register
that an operation does not use is 0. -/
def encode : Instr → Encoding
  | .ctl flags => .control [flags]
  | .lit v => .command true [v]
  | .refs n d => .command false [refByte0 n d, refByte1 d]
  | .refl d extra => .command false [refByte0 0#4 d, refByte1 d, extra]
  | .locate => .operation ⟨1, 0, 0, 0, 0, 0, 0⟩
  | .tdec .src base index => .operation ⟨2, 0, base, index, 0, 0, 0⟩
  | .tdec .dst base index => .operation ⟨2, 1, base, index, 0, 0, 0⟩
  | .tenc base index sv ev sp ep => .operation ⟨3, base, index, sv, ev, sp, ep⟩
  | .lzdec srcBase srcLimit dstBase size => .operation ⟨4, srcBase, srcLimit, dstBase, size, 0, 0⟩
  | .fixchk => .operation ⟨5, 0, 0, 0, 0, 0, 0⟩

/-- Further stream bytes after an encoding; a host operation has none. -/
def Encoding.followedBy : Encoding → List Byte → Encoding
  | .control bs, rest => .control (bs ++ rest)
  | .command flag bs, rest => .command flag (bs ++ rest)
  | .operation w, _ => .operation w

/-- How many stream bytes a command consumes (R68, R100); a host operation consumes none. -/
def Instr.streamBytes : Instr → Nat
  | .ctl _ => 1
  | .lit _ => 1
  | .refs _ _ => 2
  | .refl _ _ => 3
  | .locate => 0
  | .tdec _ _ _ => 0
  | .tenc _ _ _ _ _ _ => 0
  | .lzdec _ _ _ _ => 0
  | .fixchk => 0

/-! ### The numbering of spec/opcode_table.json -/

/-- Byte number `k` of a table word, counted from its least significant byte. -/
def tableByte (w k : Nat) : Byte := BitVec.ofNat 8 (w >>> (8 * k))

/-- An instruction of `nbits` bits as the table writes it. One byte is a control byte. Two to four bytes are a command:
the table puts the flag above the payload, so the payload bytes, first byte first, are the bytes below the flag from
the most significant down (rows `LIT`, `REFS`, `REFL`). A word of 32 bits is an operation code when its value is 1 to
5, else a command of three payload bytes (log entry 19). Operand words the table gives no bits are 0. -/
def tableEncoding (nbits w : Nat) : Encoding :=
  if nbits ≤ 8 then .control [tableByte w 0]
  else if nbits ≤ 16 then .command (w.testBit 8) [tableByte w 0, 0, 0]
  else if nbits ≤ 24 then .command (w.testBit 16) [tableByte w 1, tableByte w 0, 0]
  else if (1 ≤ w ∧ w ≤ 5) ∨ 2 ^ 25 ≤ w then .operation ⟨BitVec.ofNat 32 w, 0, 0, 0, 0, 0, 0⟩
  else .command (w.testBit 24) [tableByte w 2, tableByte w 1, tableByte w 0]

/-- The instruction the decoder reads from a word of the opcode table. -/
def decodeTableWord (nbits w : Nat) : Option Instr :=
  match decode (tableEncoding nbits w) with
  | .ok (i, _) => some i
  | .error _ => none

end Sys2Proof
end

