-- ==== Sys2Proof/Config.lean ====
section
/-! DEFINITION. What is fixed for one machine: the parameters of spec 00_scope.md R5 (those the spec leaves OPEN or
lets a model take as arguments are fields of `Params`; the others are constants), and the free values of the model. -/

namespace Sys2Proof

/-- The parameters of R5 that a model takes as arguments (92_eei_decisions.md D6, D14, D25; log entries 1 and 2).
No step changes them. -/
structure Params where
  /-- `SRC_LEN`, the byte length of the input image memory (R5, R11). -/
  srcLen : Nat
  /-- `DST_LEN`, the byte length of the output image memory (R5, R12). -/
  dstLen : Nat
  /-- `SEED_B`, the accumulator seed of variant 6103: OPEN in R5. -/
  seedB : Word
  /-- `SEED_C`, the accumulator seed of variant 6105: OPEN in R5. -/
  seedC : Word
  /-- `SEED_D`, the accumulator seed of variant 6106: OPEN in R5. -/
  seedD : Word
  /-- `CRC_6101`, the boot-code CRC-32 that selects variant 6101: OPEN in R5. -/
  crc6101 : Word
  /-- `CRC_6102`: OPEN in R5. -/
  crc6102 : Word
  /-- `CRC_6103`: OPEN in R5. -/
  crc6103 : Word
  /-- `CRC_6105`: OPEN in R5. -/
  crc6105 : Word
  /-- `CRC_6106`: OPEN in R5. -/
  crc6106 : Word
  /-- `TABLE_SELF_INDEX`, host sequence only (R5, R165; 93_implementation_defined.md U16). The value reaches the 32-bit ARG
  register of TDEC modulo 2^32 (log entry 31). -/
  tableSelfIndex : Nat
  /-- `FIRST_FILE_INDEX`, host sequence only (R5, R166; U16). -/
  firstFileIndex : Nat
  deriving DecidableEq, Repr

/-- The documented sizes and indexes of R5, with the spec's default values of the OPEN parameters.
PRESUMED (log entry 2): the spec marks those defaults "from general knowledge, not in source". -/
def Params.default : Params where
  srcLen := 0x2000000
  dstLen := 0x4000000
  seedB := 0xA3886759#32
  seedC := 0xDF26F436#32
  seedD := 0x1FEA617A#32
  crc6101 := 0x6170A4A1#32
  crc6102 := 0x90BB6CB5#32
  crc6103 := 0x0B050EE0#32
  crc6105 := 0x98BC2C86#32
  crc6106 := 0xACC8580A#32
  tableSelfIndex := 1
  firstFileIndex := 2

/-- "The five CRC constants must be pairwise distinct for the mapping to be a function" (R135). A configuration that
breaks this is refused (93_implementation_defined.md U14). -/
abbrev Params.crcsDistinct (c : Params) : Prop :=
  [c.crc6101, c.crc6102, c.crc6103, c.crc6105, c.crc6106].Nodup

namespace Config

/-- `ENTRY_BYTES`: the size of one table record, and of one stride of the locator (R5, R70, R71). -/
def entryBytes : Nat := 16
/-- `LZ_HDR_BYTES`: the bytes skipped at the start of a compressed source (R5, R61). -/
def lzHdrBytes : Nat := 16
/-- `MAGIC0`: first word of the locator signature (R5, R71). -/
def magic0 : Word := 0x7A656C64#32
/-- `MAGIC1`: second word of the locator signature (R5, R71). -/
def magic1 : Word := 0x61407372#32
/-- `MAGIC2_HI`: the byte after the two magic words (R5, R71). -/
def magic2Hi : Byte := 0x64#8
/-- `SENTINEL`: the locator's sentinel word (R5, R71). -/
def sentinel : Word := 0x00001060#32
/-- `CRC_POLY`: the reflected CRC-32 polynomial (R5, R132). -/
def crcPoly : Word := 0xEDB88320#32
/-- `BOOT_OFF`: first byte of the boot-code region (R5, R134). -/
def bootOff : Nat := 0x40
/-- `BOOT_LEN`: length of the boot-code region, 4032 bytes (R5, R134). -/
def bootLen : Nat := 0xFC0
/-- `WIN_OFF`: first byte of the checksum window (R5, R138). -/
def winOff : Nat := 0x1000
/-- `WIN_LEN`: length of the checksum window (R5, R138). -/
def winLen : Nat := 0x100000
/-- The last offset that `i` takes in the window, `WIN_LEN - 4` (R138). -/
def winLast : Nat := 0xFFFFC
/-- One past the last byte `FIXCHK` reads: `DST_LEN` must be at least this (R131). -/
def checksumEnd : Nat := 0x101000
/-- `CK0_OFF`: where checksum word 0 is written (R5, R150). -/
def ck0Off : Nat := 0x10
/-- `CK1_OFF`: where checksum word 1 is written (R5, R150). -/
def ck1Off : Nat := 0x14
/-- `LUT6105_OFF`: base of the lookup region of variant 6105 (R5, R146). -/
def lut6105Off : Nat := 0x750
/-- `SEED_A`: the accumulator seed of variants 6101 and 6102 (R5). -/
def seedA : Word := 0xF8CA4DDC#32
/-- The first byte of a raw image that is 16-bit word-swapped (R161). -/
def swappedMark : Byte := 0x37#8

/-- FREE VALUE (log entry 6): the content of a register that the spec calls unspecified ("any value",
93_implementation_defined.md U3, U8). Nothing is known of it; each use applies it to a fresh value of `State.free`. -/
opaque freeWord : Nat → BitVec 32

end Config
end Sys2Proof
end

