-- ==== Sys2Proof/Machine/State.lean ====
section
/-! DEFINITION. The whole state of the block as plain data (spec 10_state.md R10 to R35), its reset value, and the
reasons for which a step may stop. -/

namespace Sys2Proof.Machine

/-- A byte memory: its listed cells, addresses strictly rising, none of them holding the byte that an unlisted address
reads as (`Memory.unlisted`, log entry 4). -/
abbrev Memory := List Host.Cell

/-- The four values of `STATUS` (R28). -/
inductive Status where
  /-- Nothing run since reset. -/
  | idle
  /-- An operation is running. -/
  | busy
  /-- The last operation completed. -/
  | done
  /-- The last operation raised a fault. -/
  | fault
  deriving DecidableEq, Repr

/-- The six fault causes, the closed list of 60_exceptions.md R180. Raising one is a next state (R184), not the end of
the model's run. -/
inductive FaultCause where
  | invalidImageSize
  | tableNotFound
  | unsupportedBootVariant
  | truncatedStream
  | outputOverrun
  | boundsError
  deriving DecidableEq, Repr

/-- The phase of `LOCATE`'s scan (R19): `a` looks for a candidate header, `b` for the sentinel. -/
inductive Phase where
  | a
  | b
  deriving DecidableEq, Repr

/-- The five boot-chip variants (R21): a closed enumeration whose numbers are names. -/
inductive Variant where
  | v6101
  | v6102
  | v6103
  | v6105
  | v6106
  deriving DecidableEq, Repr

/-- The six accumulators `t1` to `t6` of the checksum (R22). -/
structure Accumulators where
  t1 : BitVec 32
  t2 : BitVec 32
  t3 : BitVec 32
  t4 : BitVec 32
  t5 : BitVec 32
  t6 : BitVec 32
  deriving DecidableEq, Repr

/-- The state of the block. Each field's comment names the rule that gives the block that piece of state. The fields that
most updates change stand first (and `i` before `acc`), so that comparing a state with an update of it stops early. -/
@[ext]
structure State where
  /-- The parameters of the machine (R5). Not state of the spec (R32): no step changes them (log entry 1). -/
  cfg : Params
  /-- `STATUS` (R28). -/
  status : Status
  /-- `ERR`: the cause of the fault, `none` for code 0 (R29). -/
  err : Option FaultCause
  /-- `INFO`, the diagnostic word of a fault (R30). -/
  info : BitVec 32
  /-- The MODEL's own field: the host has started the operation in `OP` and the `ARG` registers, `STATUS` is `BUSY`, and
  the engine has not begun it yet (R31; log entry 8). -/
  start : Bool
  /-- The MODEL's own field: how many free values have been used; the next is `Config.freeWord free` (log entry 6). -/
  free : Nat
  /-- `SRC`, the input image memory (R11). -/
  src : Memory
  /-- `DST`, the output image memory (R12). -/
  dst : Memory
  /-- `sp`, the source cursor, the stream's program counter (R13). -/
  sp : Nat
  /-- `dp`, the destination cursor (R14). -/
  dp : Nat
  /-- `ctl`, the control byte (R15). -/
  ctl : BitVec 8
  /-- `nbits`, the remaining-bit counter (R16). -/
  nbits : Nat
  /-- `src_base`, operand latch of `LZDEC` (R17). -/
  srcBase : BitVec 32
  /-- `src_limit`, operand latch of `LZDEC` (R17). -/
  srcLimit : BitVec 32
  /-- `dst_base`, operand latch of `LZDEC` (R17). -/
  dstBase : BitVec 32
  /-- `size`, operand latch of `LZDEC` (R17). -/
  size : BitVec 32
  /-- `o`, the cursor of phase A of `LOCATE` (R19). -/
  o : Nat
  /-- `p`, the cursor of phase B of `LOCATE` (R19). -/
  p : Nat
  /-- `phase` of `LOCATE` (R19). -/
  phase : Phase
  /-- `crc`, the CRC-32 register (R20). -/
  crc : BitVec 32
  /-- `variant`, the detected boot-chip variant (R21). -/
  variant : Variant
  /-- `seed`, the accumulator seed of the variant (R21). -/
  seed : BitVec 32
  /-- `i`, the offset of the current word in the window (R22). -/
  i : Nat
  /-- `t1` to `t6` (R22). -/
  acc : Accumulators
  /-- `d`, the current window word (R22). -/
  d : BitVec 32
  /-- `r`, the rotation of `d` (R22). -/
  r : BitVec 32
  /-- `word0`, the first result of the checksum (R22). -/
  word0 : BitVec 32
  /-- `word1`, the second result of the checksum (R22). -/
  word1 : BitVec 32
  /-- `OP`, the operation code register (R25). -/
  op : BitVec 32
  /-- `ARG0` (R26). -/
  arg0 : BitVec 32
  /-- `ARG1` (R26). -/
  arg1 : BitVec 32
  /-- `ARG2` (R26). -/
  arg2 : BitVec 32
  /-- `ARG3` (R26). -/
  arg3 : BitVec 32
  /-- `ARG4` (R26). -/
  arg4 : BitVec 32
  /-- `ARG5` (R26). -/
  arg5 : BitVec 32
  /-- `RES0` (R27). -/
  res0 : BitVec 32
  /-- `RES1` (R27). -/
  res1 : BitVec 32
  /-- `RES2` (R27). -/
  res2 : BitVec 32
  /-- `RES3` (R27). -/
  res3 : BitVec 32
  deriving DecidableEq, Repr

/-- The state after reset (R35, R200, R201): `STATUS` is `IDLE`, `ERR` is 0. The spec leaves every other register and
both memories unspecified: their values here are DESIGN CHOICES of the model (log entries 3 and 4, unsafe). -/
def State.reset : State where
  cfg := Params.default
  src := []
  dst := []
  sp := 0
  dp := 0
  ctl := 0
  nbits := 0
  srcBase := 0
  srcLimit := 0
  dstBase := 0
  size := 0
  o := 0
  p := 0
  phase := .a
  crc := 0
  variant := .v6101
  seed := 0
  acc := ⟨0, 0, 0, 0, 0, 0⟩
  i := 0
  d := 0
  r := 0
  word0 := 0
  word1 := 0
  op := 0
  arg0 := 0
  arg1 := 0
  arg2 := 0
  arg3 := 0
  arg4 := 0
  arg5 := 0
  res0 := 0
  res1 := 0
  res2 := 0
  res3 := 0
  status := .idle
  err := none
  info := 0
  start := false
  free := 0

/-- Reasons for which the model stops with a fault of its own. No step of the engine ends so: the six causes of R180
are next states with `STATUS = FAULT`. -/
inductive Fault where
  /-- Raised only by the host's own reads and writes of SRC and DST (Machine/HostActions.lean) at an address that the
  spec says does not exist (R11, R12, R40: "Nothing else is addressable"). Safe: the model does nothing there. -/
  | outsideMemory (mem : MemSel) (addr : Nat)
  deriving DecidableEq, Repr

/-- Reasons for which the model has no transition: the cases that the spec itself calls refused (R8). -/
inductive Refusal where
  /-- An instruction of the table that has no meaning yet: only arms of `exec` may answer it. Safe. -/
  | notModelled (mnemonic : String)
  /-- The host starts an operation code outside 1 to 5 (R31, R74, U10). Safe: the spec refuses it. -/
  | reservedOp (op : BitVec 32)
  /-- The host starts `TDEC` with a `sel` other than 0 or 1 (R73, U10). Safe: the spec refuses it. -/
  | reservedSelect (sel : BitVec 32)
  /-- A start while `STATUS` is `BUSY` (R31, U9). Safe: the spec refuses it. -/
  | startWhileBusy
  /-- A start while `STATUS` is `FAULT` (R31, R187, U9). Safe: the spec refuses it. -/
  | startAfterFault
  /-- A stream command given to `exec` in a state in which rule R82 does not run it: outside a running `LZDEC`, after
  its last byte, or against the flags. A step never does so (log entry 13). Safe. -/
  | commandNotDue
  /-- A `REFS` whose length nibble is 0: no such encoding exists, it is `REFL` (R64, log entry 14). Safe. -/
  | illFormed
  /-- `FIXCHK` in a configuration in which two of the five CRC constants are equal (R135, U14). Safe. -/
  | crcsNotDistinct
  /-- The host reads or writes SRC, DST, `OP` or an `ARG` while `STATUS` is `BUSY` (R55, R206, U11). Safe. -/
  | hostAccessWhileBusy
  /-- The host writes `OP` or an `ARG` while `STATUS` is `FAULT`: they are writable only while it is `IDLE` or `DONE`
  (R25, R26). Safe. -/
  | hostWriteAfterFault
  /-- The host sequence meets a table entry with `EndVirtual < StartVirtual`, whose `Size` is undefined (R118, R166,
  U5). Safe. -/
  | malformedEntry
  /-- The host sequence meets a table that is not below its own end virtual address (R170, U7). Safe. -/
  | tableBeyondEnd
  deriving DecidableEq, Repr

/-- What one step, or the meaning of one instruction, answers. -/
abbrev Outcome := Host.Outcome State Fault Refusal

end Sys2Proof.Machine
end

