-- ==== Sys2Proof/Machine/Ops.lean ====
section
/-! DEFINITION. The shared operations: memory, byte order and rotation (spec 20_memory.md R40 to R47), starting and
completing an operation (10_state.md R27, R31), and raising a fault (60_exceptions.md R184), which is how the block
takes an exception. There is no return from a fault (R187). -/

namespace Sys2Proof.Machine

/-! ### Memory -/

/-- What an address that a memory does not list reads as. The spec leaves the contents after reset unspecified (R35).
DESIGN CHOICE (log entry 4, unsafe): the byte 0. -/
def Memory.unlisted : Byte := 0#8

/-- `M[a]` (R7). -/
def Memory.read : Memory → Nat → Byte
  | [], _ => Memory.unlisted
  | (k, v) :: rest, a => if a = k then v else Memory.read rest a

/-- List the byte `v` at `a`, keeping the addresses in order. -/
def Memory.put : Memory → Nat → Byte → Memory
  | [], a, v => [(a, v)]
  | (k, w) :: rest, a, v =>
    if a < k then (a, v) :: (k, w) :: rest
    else if a = k then (a, v) :: rest
    else (k, w) :: Memory.put rest a v

/-- Unlist the address `a`. -/
def Memory.drop (m : Memory) (a : Nat) : Memory := m.filter fun c => c.1 != a

/-- `M[a] <- v`. A write of the byte that an unlisted address reads as removes the entry, so that equal memories are
equal lists. -/
def Memory.write (m : Memory) (a : Nat) (v : Byte) : Memory :=
  if v = Memory.unlisted then Memory.drop m a else Memory.put m a v

/-- The canonical form: addresses strictly rising, no entry equal to what an unlisted address reads as. -/
abbrev Memory.wf (m : Memory) : Prop :=
  m.Pairwise (fun c e => c.1 < e.1) ∧ ∀ c ∈ m, c.2 ≠ Memory.unlisted

/-- Every listed address is below `len`: nothing is stored outside the memory (R40). -/
abbrev Memory.inside (m : Memory) (len : Nat) : Prop := ∀ c ∈ m, c.1 < len

/-- `BE32(M, a)`: the big-endian word at `a` (R42, R44). -/
def Memory.be32 (m : Memory) (a : Nat) : Word :=
  m.read a ++ m.read (a + 1) ++ m.read (a + 2) ++ m.read (a + 3)

/-- Byte `k` of a word in big-endian order, `k = 0` the most significant (R42). -/
def wordByte (v : Word) (k : Nat) : Byte := v.extractLsb' (24 - 8 * k) 8

/-- `MemWrite(M, a, 4, v)`: four byte writes, most significant byte at the lowest address (R45). -/
def Memory.writeBe32 (m : Memory) (a : Nat) (v : Word) : Memory :=
  (((m.write a (wordByte v 0)).write (a + 1) (wordByte v 1)).write (a + 2) (wordByte v 2)).write (a + 3) (wordByte v 3)

/-- The `n` bytes of `M` from `a` on, in ascending address order. -/
def Memory.bytes (m : Memory) (a n : Nat) : List Byte := (List.range n).map fun k => m.read (a + k)

/-- The memory that holds `bytes` from `a` on and nothing else. -/
def Memory.ofBytes : Nat → List Byte → Memory
  | _, [] => []
  | a, v :: rest => if v = Memory.unlisted then Memory.ofBytes (a + 1) rest else (a, v) :: Memory.ofBytes (a + 1) rest

/-! ### Arithmetic -/

/-- `rotl32(x, k)` for `k ≤ 31` (R7, R142, R154). -/
def rotl32 (x : Word) (k : Nat) : Word := if k = 0 then x else x <<< k ||| x >>> (32 - k)

/-! ### Results, completion, fault -/

/-- The four result registers become unspecified: each holds a free value (R27, U8; log entry 6). -/
def State.freshResults (s : State) : State :=
  { s with
    res0 := Config.freeWord s.free
    res1 := Config.freeWord (s.free + 1)
    res2 := Config.freeWord (s.free + 2)
    res3 := Config.freeWord (s.free + 3)
    free := s.free + 4 }

/-- `STATUS <- DONE`. The result registers that the operation does not list hold unspecified values (R27, R28). -/
def State.complete (s : State) : State := { s.freshResults with status := .done }

/-- `RES0 <- n`. A cursor that does not fit in 32 bits leaves `RES0` unspecified (log entry 15). -/
def State.setRes0 (n : Nat) (s : State) : State :=
  { s with res0 := if n < 2 ^ 32 then BitVec.ofNat 32 n else s.res0 }

/-- TAKING A FAULT. `raise C(info)`: `ERR <- code(C)`, `INFO <- info` in 32 bits, `STATUS <- FAULT`, and nothing else
but the result registers, which become unspecified (R30, R184, R185, R27). Everything done before the raise stays done
(R185, log entry 16). -/
def State.raise (c : FaultCause) (info : Nat) (s : State) : State :=
  { s.freshResults with status := .fault, err := some c, info := BitVec.ofNat 32 info }

/-- What the start of an operation does to the interface (R31): `STATUS <- BUSY`, and the result registers are
unspecified until the operation completes (R27). `OP` and the `ARG` registers hold the latched operands: nobody writes
them while `STATUS` is `BUSY` (R55; log entry 23). -/
def State.begin (s : State) (start : Bool) : State := { s.freshResults with status := .busy, start := start }

/-- Running an operation (R31). When the host has started it, it runs; given to a block whose `STATUS` is `IDLE` or
`DONE`, it is started and run at once. It is refused while another one runs, and while `STATUS` is `FAULT` (U9). -/
def startOp (s : State) (run : State → Outcome) : Outcome :=
  match s.status with
  | .busy => if s.start then run (s.begin false) else .refused .startWhileBusy
  | .fault => .refused .startAfterFault
  | .idle => run (s.begin false)
  | .done => run (s.begin false)

/-! ### Effects of the stream level -/

/-- Part of a stream command: the state after it, or, as an error, the state after the fault it raised. -/
abbrev Effect := Except State State

/-- First `e`, then `k`, unless `e` raised. -/
def Effect.andThen (e : Effect) (k : State → Effect) : Effect :=
  match e with
  | .ok s => k s
  | .error s => .error s

/-- The state an effect ends in: a raise is a state as any other (R184). -/
def Effect.state (e : Effect) : State :=
  match e with
  | .ok s => s
  | .error s => s

end Sys2Proof.Machine
end

