-- ==== Sys2Proof/Machine/Operands.lean ====
section
/-! DEFINITION. Operand forms and addressing: the three accesses of the stream level (spec 40_lz_decoder.md R83, R84,
R89, R101), distance and length (30_encoding.md R66, R67), and the address of a table record (41_table_parser.md R115,
R116). Addresses are natural numbers and never wrap (20_memory.md R41). -/

namespace Sys2Proof.Machine

/-! ### Distance and length of a back-reference -/

/-- How far back a copy starts: `distance + 1`, 1 to 4096 (R66). -/
def backOffset (distance : BitVec 12) : Nat := distance.toNat + 1

/-- `length = n + 2` of `REFS`, 3 to 17 (R67, R87). -/
def refsLength (n : BitVec 4) : Nat := n.toNat + 2

/-- `length = extra + 0x12` of `REFL`, 18 to 273, a natural number (R67, R88). -/
def reflLength (extra : Byte) : Nat := extra.toNat + 0x12

/-! ### Stream fetch -/

/-- Whether a stream read at `a` is inside the source: `a < src_limit` and `a < SRC_LEN` (R83). -/
abbrev State.inSource (s : State) (a : Nat) : Prop := a < s.srcLimit.toNat ∧ a < s.cfg.srcLen

/-- `SrcByte()` (R83): the byte at `sp` and the state with `sp` one further, or `TruncatedStream`. -/
def srcByte (s : State) : Except State (Byte × State) :=
  if s.inSource s.sp then .ok (s.src.read s.sp, { s with sp := s.sp + 1 })
  else .error (s.raise .truncatedStream s.sp)

/-- `n` times `SrcByte()`: the fetch of a command's `n` bytes (R85 to R88). Their values are the operands that the
decoder has read from the same addresses. -/
def consume : Nat → State → Effect
  | 0, s => .ok s
  | n + 1, s =>
    match srcByte s with
    | .ok (_, t) => consume n t
    | .error f => .error f

/-- The bytes from `sp` on that are inside the source, at most `n` of them: what the next `n` stream reads can give.
Reading SRC has no side effect (R47), so looking at them consumes nothing (log entry 27). -/
def State.available (s : State) : Nat → Nat → List Byte
  | 0, _ => []
  | n + 1, a => if s.inSource a then s.src.read a :: State.available s n (a + 1) else []

/-! ### Decoded store and back-reference load -/

/-- `DstWrite(v)` (R84): the only way a decoded byte is written, or `OutputOverrun`. -/
def dstWrite (v : Byte) (s : State) : Effect :=
  if s.dp < s.size.toNat ∧ s.dstBase.toNat + s.dp < s.cfg.dstLen then
    .ok { s with dst := s.dst.write (s.dstBase.toNat + s.dp) v, dp := s.dp + 1 }
  else .error (s.raise .outputOverrun s.dp)

/-- One iteration of `Copy` (R89): the bounds check, the read of DST as it now is, the write. -/
def copyByte (offset : Nat) (s : State) : Effect :=
  if s.dp < offset then .error (s.raise .boundsError s.dp)
  else dstWrite (s.dst.read (s.dstBase.toNat + s.dp - offset)) s

/-- `Copy(distance, length)` with `offset = distance + 1` (R89): byte by byte, each read after the previous write
(20_memory.md R52, 70_reset_and_hazards.md R205). -/
def copy (offset : Nat) : Nat → State → Effect
  | 0, s => .ok s
  | length + 1, s => (copyByte offset s).andThen (copy offset length)

/-! ### Table records -/

/-- `base + 16*index`, in natural numbers (R115, R116, 30_encoding.md R70). -/
def recordAddr (base index : Word) : Nat := base.toNat + Config.entryBytes * index.toNat

/-- The memory that `sel` selects (R73, R115). -/
def State.memory (s : State) : MemSel → Memory
  | .src => s.src
  | .dst => s.dst

/-- The length of the memory that `sel` selects (R11, R12). -/
def State.memoryLen (s : State) : MemSel → Nat
  | .src => s.cfg.srcLen
  | .dst => s.cfg.dstLen

/-- The words in the interface registers, as the start of an operation latches them (R26, R31). -/
def State.opWords (s : State) : OpWords := ⟨s.op, s.arg0, s.arg1, s.arg2, s.arg3, s.arg4, s.arg5⟩

end Sys2Proof.Machine
end

