-- ==== Sys2Proof/Machine/Flags.lean ====
section
/-! DEFINITION. The flag-like state (spec 10_state.md R33): the flag `ctl[7]` and the counter `nbits`, and which stream
command they make due (40_lz_decoder.md R82, R90); the codes of `STATUS` and `ERR` (R28, R29); the two data-dependent
conditions of the checksum (42_checksum_engine.md R139, R144). -/

namespace Sys2Proof.Machine

/-- `ctl[7]`: 1 selects a literal, 0 a back-reference (R18). -/
def State.flag (s : State) : Bool := s.ctl.msb

/-- `LZDEC` is running and the loop test `dp < size` holds (R82; log entry 22). -/
abbrev State.decoding (s : State) : Prop := s.status = .busy ∧ s.start = false ∧ s.dp < s.size.toNat

/-- A control-byte fetch is due: "if and only if `nbits = 0`" (R82, R85). -/
abbrev State.controlDue (s : State) : Prop := s.decoding ∧ s.nbits = 0

/-- A literal is due (R82). -/
abbrev State.literalDue (s : State) : Prop := s.decoding ∧ s.nbits ≠ 0 ∧ s.flag = true

/-- A back-reference is due (R82). -/
abbrev State.backRefDue (s : State) : Prop := s.decoding ∧ s.nbits ≠ 0 ∧ s.flag = false

/-- The control shift, the last part of every command: `ctl <- (ctl << 1) & 0xFF; nbits <- nbits - 1` (R90). -/
def shiftControl (s : State) : Effect := .ok { s with ctl := s.ctl <<< 1, nbits := s.nbits - 1 }

/-- The code of `STATUS` (R28). -/
def Status.code : Status → Nat
  | .idle => 0
  | .busy => 1
  | .done => 2
  | .fault => 3

/-- The code of a fault cause (R29, R180). -/
def FaultCause.code : FaultCause → Nat
  | .invalidImageSize => 1
  | .tableNotFound => 2
  | .unsupportedBootVariant => 3
  | .truncatedStream => 4
  | .outputOverrun => 5
  | .boundsError => 6

/-- The code in `ERR`: 0 when there is no fault (R29). -/
def State.errCode (s : State) : Nat :=
  match s.err with
  | none => 0
  | some c => c.code

/-- The carry test of `AccStep` line 1: `add32(t6, d) < t6`, unsigned (R139). -/
def carries (t6 d : Word) : Bool := decide (t6 + d < t6)

/-- The unsigned comparison `t2 > d` of `AccStep` line 6 (R144). -/
def exceeds (t2 d : Word) : Bool := decide (d < t2)

end Sys2Proof.Machine
end

