-- ==== Sys2Proof/Machine/Checksum.lean ====
section
/-! DEFINITION. The checksum engine (spec 42_checksum_engine.md): the operation `FIXCHK` and its functions `CrcTab`,
`Crc32`, `CicOfCrc`, `AccStep`, `Accumulate`, `Combine`. The operation is one step (10_state.md R31, log entry 12). -/

namespace Sys2Proof.Machine

/-! ### Variant detection -/

/-- One of the eight rounds of `CrcTab`: shift right, and exclusive-or with the polynomial when bit 0 was 1 (R132). -/
def crcRound (c : Word) : Word := if c.getLsbD 0 then c >>> 1 ^^^ Config.crcPoly else c >>> 1

/-- `rounds` rounds. -/
def crcRounds : Nat → Word → Word
  | 0, c => c
  | rounds + 1, c => crcRounds rounds (crcRound c)

/-- `CRCTAB[n]`: a constant, a pure function of the polynomial (R23, R132). -/
def crcTab (n : Byte) : Word := crcRounds 8 (n.setWidth 32)

/-- `crc <- CRCTAB[(crc ^ b) & 0xFF] ^ (crc >> 8)` (R133). -/
def crcUpdate (crc : Word) (b : Byte) : Word := crcTab (crc.setWidth 8 ^^^ b) ^^^ crc >>> 8

/-- `Crc32(bytes)` (R133). -/
def crc32 (bytes : List Byte) : Word := bytes.foldl crcUpdate 0xFFFFFFFF#32 ^^^ 0xFFFFFFFF#32

/-- The CRC-32 of the boot-code region of an image (R134). -/
def bootCrc (m : Memory) : Word := crc32 (m.bytes Config.bootOff Config.bootLen)

/-- `CicOfCrc(crc)` over the rows of `CICTAB` (R24, R135). `none` is the unsupported variant. -/
def cicOfCrc (c : Params) (crc : Word) : Option (Variant × Word) :=
  if crc = c.crc6101 then some (.v6101, Config.seedA)
  else if crc = c.crc6102 then some (.v6102, Config.seedA)
  else if crc = c.crc6103 then some (.v6103, c.seedB)
  else if crc = c.crc6105 then some (.v6105, c.seedC)
  else if crc = c.crc6106 then some (.v6106, c.seedD)
  else none

/-- The variant as the number that `RES2` holds (R73). -/
def Variant.number : Variant → Word
  | .v6101 => 6101#32
  | .v6102 => 6102#32
  | .v6103 => 6103#32
  | .v6105 => 6105#32
  | .v6106 => 6106#32

/-! ### Accumulation -/

/-- `r = rotateLeft(d, d & 0x1F)` (R142). -/
def rotation (d : Word) : Word := rotl32 d (d &&& 0x1F#32).toNat

/-- What `AccStep` line 7 adds to `t1`: the lookup word for variant 6105, the new `t5` for the others, exclusive-or `d`
(R145, R146). -/
def accAddend (v : Variant) (lookup d t5 : Word) : Word :=
  match v with
  | .v6101 => t5 ^^^ d
  | .v6102 => t5 ^^^ d
  | .v6103 => t5 ^^^ d
  | .v6105 => lookup ^^^ d
  | .v6106 => t5 ^^^ d

/-- `AccStep` (R153, lines R139 to R146), with the lookup word of variant 6105 as an argument. -/
def accStep (v : Variant) (lookup d : Word) (t : Accumulators) : Accumulators where
  t4 := if carries t.t6 d then t.t4 + 1#32 else t.t4
  t6 := t.t6 + d
  t3 := t.t3 ^^^ d
  t5 := t.t5 + rotation d
  t2 := if exceeds t.t2 d then t.t2 ^^^ rotation d else t.t2 ^^^ (t.t6 + d ^^^ d)
  t1 := t.t1 + accAddend v lookup d (t.t5 + rotation d)

/-- The window word at offset `i` (R138). -/
def windowWord (m : Memory) (i : Nat) : Word := m.be32 (Config.winOff + i)

/-- The lookup word of variant 6105 at window offset `i` (R146). -/
def lookupWord (m : Memory) (i : Nat) : Word := m.be32 (Config.lut6105Off + (i &&& 0xFF))

/-- `words` iterations of the accumulation loop from window offset `i` on (R138). -/
def accLoop (m : Memory) (v : Variant) : Nat → Nat → Accumulators → Accumulators
  | 0, _, t => t
  | words + 1, i, t => accLoop m v words (i + 4) (accStep v (lookupWord m i) (windowWord m i) t)

/-- All six accumulators equal to the seed (R137). -/
def accInit (seed : Word) : Accumulators := ⟨seed, seed, seed, seed, seed, seed⟩

/-- `Accumulate(DST, seed, variant)`: 262,144 iterations over the window (R137, R138). Irreducible, so that no proof
about another field of the state unrolls the loop. -/
@[irreducible] def accumulate (m : Memory) (seed : Word) (v : Variant) : Accumulators :=
  accLoop m v (Config.winLen / 4) 0 (accInit seed)

/-! ### Combination -/

/-- `Combine(variant, t1..t6)`: `(word0, word1)` (R147, R148, R149). -/
def combine (v : Variant) (t : Accumulators) : Word × Word :=
  match v with
  | .v6103 => ((t.t6 ^^^ t.t4) + t.t3, (t.t5 ^^^ t.t2) + t.t1)
  | .v6106 => (t.t6 * t.t4 + t.t3, t.t5 * t.t2 + t.t1)
  | .v6101 => (t.t6 ^^^ t.t4 ^^^ t.t3, t.t5 ^^^ t.t2 ^^^ t.t1)
  | .v6102 => (t.t6 ^^^ t.t4 ^^^ t.t3, t.t5 ^^^ t.t2 ^^^ t.t1)
  | .v6105 => (t.t6 ^^^ t.t4 ^^^ t.t3, t.t5 ^^^ t.t2 ^^^ t.t1)

/-! ### FIXCHK -/

/-- Step 2 on the registers: `t1..t6` from the `seed` and `variant` registers, and the loop's last `i`, `d`, `r`
(R137, R138; log entry 28). -/
def accumulateRegs (s : State) : State :=
  { s with
    acc := accumulate s.dst s.seed s.variant
    i := Config.winLast
    d := windowWord s.dst Config.winLast
    r := rotation (windowWord s.dst Config.winLast) }

/-- Step 3 on the registers: `word0`, `word1` from `variant` and `t1..t6`. -/
def combineRegs (s : State) : State :=
  { s with word0 := (combine s.variant s.acc).1, word1 := (combine s.variant s.acc).2 }

/-- The two checksum words in memory (R150). -/
def Memory.writeChecksum (m : Memory) (w0 w1 : Word) : Memory :=
  (m.writeBe32 Config.ck0Off w0).writeBe32 Config.ck1Off w1

/-- The write of the two words and the results (R130, R150). -/
def publishChecksum (s : State) : State :=
  { { s with dst := s.dst.writeChecksum s.word0 s.word1 }.complete with
    res0 := s.word0
    res1 := s.word1
    res2 := s.variant.number
    res3 := s.crc }

/-- `FIXCHK` on the started state (R130): bounds, variant detection, accumulation, combination, write. -/
def fixChecksum (s : State) : State :=
  if s.cfg.dstLen < Config.checksumEnd then s.raise .boundsError s.cfg.dstLen
  else
    match cicOfCrc s.cfg (bootCrc s.dst) with
    | none => { s with crc := bootCrc s.dst }.raise .unsupportedBootVariant (bootCrc s.dst).toNat
    | some (v, seed) =>
      publishChecksum (combineRegs (accumulateRegs { s with crc := bootCrc s.dst, variant := v, seed := seed }))

/-- `FIXCHK` (R130). A configuration whose CRC constants are not distinct is refused (U14; log entry 18). -/
def execFixchk (s : State) : Outcome :=
  startOp s fun t => if t.cfg.crcsDistinct then .next (fixChecksum t) else .refused .crcsNotDistinct

end Sys2Proof.Machine
end

