-- ==== Sys2Proof/Machine/Lz.lean ====
section
/-! DEFINITION. The LZ decoder (spec 40_lz_decoder.md): the operation `LZDEC` and the stream commands `CTL`, `LIT`,
`REFS`, `REFL`. `LZDEC` starts the decoder (R81); then each step runs one command of the stream (R82); the step that
finds `dp = size` completes the operation (R91). Log entry 11. -/

namespace Sys2Proof.Machine

/-- A stream command runs only when it is due (R82). Raising a fault is a next state (R184). -/
def streamCommand (due : Prop) [Decidable due] (e : Effect) : Outcome :=
  if due then .next e.state else .refused .commandNotDue

/-- `ctl <- v; nbits <- 8` (R85). -/
def loadControl (flags : Byte) (s : State) : Effect := .ok { s with ctl := flags, nbits := 8 }

/-- A back-reference whose `bytes` payload bytes have been decoded: its bytes are read first, then the copy is made,
then the control byte is shifted (R87, R88, R90, R97). -/
def backReference (bytes offset length : Nat) (s : State) : Effect :=
  ((consume bytes s).andThen (copy offset length)).andThen shiftControl

/-- `CTL` (R85). -/
def execCtl (flags : Byte) (s : State) : Outcome :=
  streamCommand s.controlDue ((consume 1 s).andThen (loadControl flags))

/-- `LIT` (R86), with the control shift (R90). -/
def execLit (v : Byte) (s : State) : Outcome :=
  streamCommand s.literalDue (((consume 1 s).andThen (dstWrite v)).andThen shiftControl)

/-- `REFS` (R87). The length nibble 0 is no `REFS` (R64). -/
def execRefs (n : BitVec 4) (distance : BitVec 12) (s : State) : Outcome :=
  if n = 0#4 then .refused .illFormed
  else streamCommand s.backRefDue (backReference 2 (backOffset distance) (refsLength n) s)

/-- `REFL` (R88). -/
def execRefl (distance : BitVec 12) (extra : Byte) (s : State) : Outcome :=
  streamCommand s.backRefDue (backReference 3 (backOffset distance) (reflLength extra) s)

/-- The initialisation of `LZDEC` (R81): operands latched, `sp` past the header, `dp` and `nbits` 0, `ctl` unspecified
(a free value). Nothing is read and no bound is checked. -/
def lzdecInit (srcBase srcLimit dstBase size : Word) (s : State) : State :=
  { s with
    srcBase := srcBase
    srcLimit := srcLimit
    dstBase := dstBase
    size := size
    sp := srcBase.toNat + Config.lzHdrBytes
    dp := 0
    nbits := 0
    ctl := (Config.freeWord s.free).setWidth 8
    free := s.free + 1 }

/-- `LZDEC` (R80, R81): it starts the decoder, and the steps that follow run the stream. -/
def execLzdec (srcBase srcLimit dstBase size : Word) (s : State) : Outcome :=
  startOp s fun t => .next (lzdecInit srcBase srcLimit dstBase size t)

/-- The end of `LZDEC` (R82, R91): `RES0 <- sp; RES1 <- dp; STATUS <- DONE`. -/
def lzdecComplete (s : State) : State :=
  { s.complete.setRes0 s.sp with res1 := BitVec.ofNat 32 s.dp }

end Sys2Proof.Machine
end

