-- ==== Sys2Proof/Machine/TableParser.lean ====
section
/-! DEFINITION. The table-entry record parser (spec 41_table_parser.md): the operations `LOCATE`, `TDEC`, `TENC` and
the helpers `Size` and `IsCompressed`. Each operation is one step (10_state.md R31, log entry 12). -/

namespace Sys2Proof.Machine

/-! ### LOCATE -/

/-- `IsCandidate(o)`: the three-part signature (R71, R112). -/
def isCandidate (m : Memory) (o : Nat) : Bool :=
  m.be32 o == Config.magic0 && m.be32 (o + 4) == Config.magic1 && m.read (o + 8) == Config.magic2Hi

/-- The sentinel word in the first four bytes of a stride (R71, R113). -/
def isSentinel (m : Memory) (p : Nat) : Bool := m.be32 p == Config.sentinel

/-- The loop of both phases of `LOCATE` (R111, R113): from stride `a` on, the first whole stride of the `len` bytes that
passes the test, or else the first stride that is not whole. `strides` bounds the number of tests. -/
def scan (test : Nat → Bool) (len : Nat) : Nat → Nat → Nat
  | 0, a => a
  | strides + 1, a =>
    if a + Config.entryBytes ≤ len then
      if test a then a else scan test len strides (a + Config.entryBytes)
    else a

/-- The scan over a memory of `len` bytes: it tests each whole stride at most once. -/
def scanFrom (test : Nat → Bool) (len a : Nat) : Nat := scan test len (len / Config.entryBytes + 1) a

/-- `PhaseB()` (R113), from the stride `p`. -/
def locatePhaseB (s : State) : State :=
  let q := scanFrom (isSentinel s.src) s.cfg.srcLen s.p
  if q + Config.entryBytes ≤ s.cfg.srcLen then
    ({ s with p := q }.complete).setRes0 (q - Config.entryBytes)
  else { s with p := q }.raise .tableNotFound 1

/-- Phase A (R111), from the stride `o`; a candidate header hands over to phase B at the next stride. -/
def locatePhaseA (s : State) : State :=
  let q := scanFrom (isCandidate s.src) s.cfg.srcLen s.o
  if q + Config.entryBytes ≤ s.cfg.srcLen then
    locatePhaseB { s with o := q, p := q + Config.entryBytes, phase := .b }
  else { s with o := q }.raise .tableNotFound 0

/-- `LOCATE` (R110). -/
def execLocate (s : State) : Outcome :=
  startOp s fun t => .next (locatePhaseA { t with o := 0, phase := .a })

/-! ### TDEC and TENC -/

/-- The completion of `TDEC`: the four words of the record at `a` of `m` (R115). -/
def readRecord (m : Memory) (a : Nat) (s : State) : State :=
  { s.complete with
    res0 := m.be32 a
    res1 := m.be32 (a + 4)
    res2 := m.be32 (a + 8)
    res3 := m.be32 (a + 12) }

/-- `TDEC` on the started state (R115): the bounds are checked before any read. -/
def tableDecode (sel : MemSel) (a : Nat) (s : State) : State :=
  if a + Config.entryBytes ≤ s.memoryLen sel then readRecord (s.memory sel) a s else s.raise .boundsError a

/-- `TDEC` (R115). -/
def execTdec (sel : MemSel) (base index : Word) (s : State) : Outcome :=
  startOp s fun t => .next (tableDecode sel (recordAddr base index) t)

/-- The four words of a record written at `a` (R70, R116). -/
def Memory.writeRecord (m : Memory) (a : Nat) (sv ev sp ep : Word) : Memory :=
  (((m.writeBe32 a sv).writeBe32 (a + 4) ev).writeBe32 (a + 8) sp).writeBe32 (a + 12) ep

/-- `TENC` on the started state (R116): the bounds are checked before any write. -/
def tableEncode (a : Nat) (sv ev sp ep : Word) (s : State) : State :=
  if a + Config.entryBytes ≤ s.cfg.dstLen then { s with dst := s.dst.writeRecord a sv ev sp ep }.complete
  else s.raise .boundsError a

/-- `TENC` (R116). -/
def execTenc (base index sv ev sp ep : Word) (s : State) : Outcome :=
  startOp s fun t => .next (tableEncode (recordAddr base index) sv ev sp ep t)

/-! ### Helpers on a decoded entry -/

/-- A decoded Table Entry (30_encoding.md R70). -/
structure TableEntry where
  startVirtual : BitVec 32
  endVirtual : BitVec 32
  startPhysical : BitVec 32
  endPhysical : BitVec 32
  deriving DecidableEq, Repr

/-- `Size(e) = EndVirtual - StartVirtual`; it is undefined when `EndVirtual < StartVirtual` (R118). -/
def entrySize (e : TableEntry) : Option Nat :=
  if e.endVirtual < e.startVirtual then none else some (e.endVirtual.toNat - e.startVirtual.toNat)

/-- `IsCompressed(e) = (EndPhysical ≠ 0)` (R118). -/
def isCompressed (e : TableEntry) : Bool := e.endPhysical != 0#32

end Sys2Proof.Machine
end

