-- ==== Sys2Proof/Machine/Dispatch.lean ====
section
/-! DEFINITION. The meaning of every instruction, one arm each. -/

namespace Sys2Proof.Machine

def exec (i : Instr) (s : State) : Host.Outcome State Fault Refusal :=
  match i with
  | .ctl flags => Sys2Proof.Machine.execCtl flags s
  | .lit v => Sys2Proof.Machine.execLit v s
  | .refs n distance => Sys2Proof.Machine.execRefs n distance s
  | .refl distance extra => Sys2Proof.Machine.execRefl distance extra s
  | .locate => Sys2Proof.Machine.execLocate s
  | .tdec sel base index => Sys2Proof.Machine.execTdec sel base index s
  | .tenc base index sv ev sp ep => Sys2Proof.Machine.execTenc base index sv ev sp ep s
  | .lzdec srcBase srcLimit dstBase size => Sys2Proof.Machine.execLzdec srcBase srcLimit dstBase size s
  | .fixchk => Sys2Proof.Machine.execFixchk s

end Sys2Proof.Machine
end

