-- ==== Sys2Proof/Machine/Fetch.lean ====
section
/-! DEFINITION. What the block does next: which instruction it fetches (spec 10_state.md R31, 40_lz_decoder.md R82,
30_encoding.md R68, R73), or that it has nothing to run; and the placing of an instruction where it is fetched. -/

namespace Sys2Proof.Machine

/-- What the next step is. -/
inductive Fetched where
  /-- It runs this instruction. -/
  | run (i : Instr)
  /-- It ends in this state without running an instruction: the engine has nothing to do (R200), `LZDEC` completes
  (R91), or the fetch of a command raises `TruncatedStream` (R83). -/
  | settle (s : State)
  /-- The spec refuses it. -/
  | refuse (r : Refusal)
  deriving DecidableEq, Repr

/-- The most bytes that one stream command takes (R68). -/
def maxCommandBytes : Nat := 3

/-- The stream bytes that the next command may be decoded from. -/
def State.commandBytes (s : State) : List Byte := s.available maxCommandBytes s.sp

/-- The command that is due when `nbits` and `ctl[7]` are as they are (R68, R82). -/
def State.decodeNext (s : State) : Except Reject (Instr × List Byte) :=
  if s.nbits = 0 then decodeControl s.commandBytes else decodeCommand s.flag s.commandBytes

/-- A command that is cut off: the bytes that are there are consumed, and the read of the first that is not raises
`TruncatedStream` (R83, R96). -/
def State.cutOff (s : State) : State :=
  { s with sp := s.sp + s.commandBytes.length }.raise .truncatedStream (s.sp + s.commandBytes.length)

/-- One pass of the loop of `LZDEC` (R82): complete when `dp = size`, else run the command that is due. -/
def fetchCommand (s : State) : Fetched :=
  if s.dp < s.size.toNat then
    match s.decodeNext with
    | .ok (i, _) => .run i
    | .error _ => .settle s.cutOff
  else .settle (lzdecComplete s)

/-- The operation that `OP` and the `ARG` registers hold; a reserved value is refused (R31, R73, R74). -/
def fetchOperation (s : State) : Fetched :=
  match decodeOp s.opWords with
  | .ok i => .run i
  | .error (.reservedOp op) => .refuse (.reservedOp op)
  | .error (.reservedSelect sel) => .refuse (.reservedSelect sel)
  | .error .truncated => .settle s

/-- What the next step is. While `STATUS` is `BUSY` the engine begins the operation that the host has started, or goes on
with a running `LZDEC`; otherwise the block stays as it is (R31, R187, R200; log entry 10). -/
def fetch (s : State) : Fetched :=
  match s.status with
  | .busy => if s.start then fetchOperation s else fetchCommand s
  | .idle => .settle s
  | .done => .settle s
  | .fault => .settle s

/-! ### Placing an instruction where it is fetched (log entry 9) -/

/-- A host operation is placed in the interface registers as one that the host has started. -/
def placeOperation (w : OpWords) (s : State) : State :=
  { s with
    op := w.op
    arg0 := w.arg0
    arg1 := w.arg1
    arg2 := w.arg2
    arg3 := w.arg3
    arg4 := w.arg4
    arg5 := w.arg5
    status := .busy
    err := none
    start := true }

/-- The bytes of `bs` written to SRC from `a` on. -/
def Memory.writeBytes : Memory → Nat → List Byte → Memory
  | m, _, [] => m
  | m, a, v :: rest => Memory.writeBytes (m.write a v) (a + 1) rest

/-- A stream command is placed as the first of a running `LZDEC` of one group: its bytes stand after the 16 header
bytes, the source ends after them, and the longest back-reference has room. -/
def placeStream (bytes : List Byte) (s : State) : State :=
  { s with
    src := Memory.writeBytes s.src Config.lzHdrBytes bytes
    srcBase := 0
    srcLimit := BitVec.ofNat 32 (Config.lzHdrBytes + bytes.length)
    size := 273
    sp := Config.lzHdrBytes
    dp := 0
    status := .busy
    err := none
    start := false }

/-- An encoding placed where the next step fetches it. -/
def placeEncoding (e : Encoding) (s : State) : State :=
  match e with
  | .operation w => placeOperation w s
  | .control bytes => { placeStream bytes s with nbits := 0 }
  | .command flag bytes => { placeStream bytes s with nbits := 1, ctl := if flag then 0x80 else 0x00 }

end Sys2Proof.Machine
end

