-- ==== Sys2Proof/Machine/Assembler.lean ====
section
/-! DEFINITION. The notation for compressed streams (spec 30_encoding.md R75, R76): the assembler of a list of commands,
the pseudo-command `REF`, and the reading of an assembled stream back into its commands (R62, R68). It is no compressor
(R77), and no step of the block depends on it. -/

namespace Sys2Proof.Machine

/-- The flag and the payload of a stream command (R63, R64, R65); none for anything else. -/
def commandParts (i : Instr) : Option (Bool × List Byte) :=
  match encode i with
  | .command flag payload => some (flag, payload)
  | .control _ => none
  | .operation _ => none

/-- The flags of a group as its control byte: bit `7 - k` is the flag of command `k`, unused low bits are 0 (R62, R75). -/
def groupFlags : List Bool → Byte
  | [] => 0#8
  | flag :: rest => (groupFlags rest >>> 1) ||| (if flag then 0x80#8 else 0x00#8)

/-- One group: the control byte, then the payloads in order (R75). -/
def assembleGroup (commands : List (Bool × List Byte)) : List Byte :=
  groupFlags (commands.map Prod.fst) :: (commands.map Prod.snd).flatten

/-- The commands in groups of eight (R75), at most `groups` of them. -/
def assembleGroups : Nat → List (Bool × List Byte) → List Byte
  | 0, _ => []
  | groups + 1, commands =>
    if commands.isEmpty then []
    else assembleGroup (commands.take 8) ++ assembleGroups groups (commands.drop 8)

/-- The stream bytes of a list of commands (R75); none if one of them is no stream command after a flag. -/
def assemble (commands : List Instr) : Option (List Byte) :=
  match commands.mapM commandParts with
  | some parts => some (assembleGroups parts.length parts)
  | none => none

/-- `HDR`: the 16 header bytes, of which any values are equivalent (R61, R75). -/
def header : List Byte := List.replicate Config.lzHdrBytes 0x00#8

/-- `REF d, len`: `REFS d, len` for a length of 3 to 17, `REFL d, len` for one of 18 to 273 (R76). -/
def refCommand (d : BitVec 12) (len : Nat) : Option Instr :=
  if 3 ≤ len ∧ len ≤ 17 then some (.refs (BitVec.ofNat 4 (len - 2)) d)
  else if 18 ≤ len ∧ len ≤ 273 then some (.refl d (BitVec.ofNat 8 (len - 18)))
  else none

/-- The next command when `nbits` flags of `ctl` are left: a control byte is read first when there is none (R62, R68).
It answers the command, the control byte and the counter after it, and the bytes left. -/
def readCommand (ctl : Byte) (nbits : Nat) (bytes : List Byte) : Except Reject (Instr × Byte × Nat × List Byte) :=
  match nbits, bytes with
  | 0, [] => .error .truncated
  | 0, flags :: bytes =>
    match decodeCommand flags.msb bytes with
    | .ok (i, rest) => .ok (i, flags <<< 1, 7, rest)
    | .error e => .error e
  | n + 1, bytes =>
    match decodeCommand ctl.msb bytes with
    | .ok (i, rest) => .ok (i, ctl <<< 1, n, rest)
    | .error e => .error e

/-- The next `count` commands of a stream, and the bytes left. -/
def readCommands : Nat → Byte → Nat → List Byte → Except Reject (List Instr × List Byte)
  | 0, _, _, bytes => .ok ([], bytes)
  | count + 1, ctl, nbits, bytes =>
    match readCommand ctl nbits bytes with
    | .ok (i, ctl, nbits, bytes) =>
      match readCommands count ctl nbits bytes with
      | .ok (is, rest) => .ok (i :: is, rest)
      | .error e => .error e
    | .error e => .error e

end Sys2Proof.Machine
end

