-- ==== Sys2Proof/Machine/HostActions.lean ====
section
/-! DEFINITION. What the outside world can do to the block (spec 10_state.md R25 to R31, 20_memory.md R55,
70_reset_and_hazards.md R200, R206): the host writes `OP` and the `ARG` registers, writes and reads SRC and DST, reads
the results, starts an operation, resets the block. None of these is an instruction of the block; each is a function on
the state between two steps (log entry 20). -/

namespace Sys2Proof.Machine

/-- The interface registers are "Host-writable while `STATUS` is `IDLE` or `DONE`" (R25, R26). -/
def hostWriteRegister (s t : State) : Outcome :=
  match s.status with
  | .busy => .refused .hostAccessWhileBusy
  | .fault => .refused .hostWriteAfterFault
  | .idle => .next t
  | .done => .next t

/-- The host writes `OP` (R25). -/
def hostWriteOp (v : Word) (s : State) : Outcome := hostWriteRegister s { s with op := v }

/-- The host writes `ARG0` to `ARG5` (R26). -/
def hostWriteArg (k : Fin 6) (v : Word) (s : State) : Outcome :=
  hostWriteRegister s <|
    match k with
    | 0 => { s with arg0 := v }
    | 1 => { s with arg1 := v }
    | 2 => { s with arg2 := v }
    | 3 => { s with arg3 := v }
    | 4 => { s with arg4 := v }
    | 5 => { s with arg5 := v }

/-- The host writes `OP` and all six `ARG` registers (R25, R26). -/
def hostWriteOpWords (w : OpWords) (s : State) : Outcome :=
  hostWriteRegister s
    { s with
      op := w.op
      arg0 := w.arg0
      arg1 := w.arg1
      arg2 := w.arg2
      arg3 := w.arg3
      arg4 := w.arg4
      arg5 := w.arg5 }

/-- A start that `STATUS` allows: taken if `OP` and the `ARG` registers hold an operation, else refused (R31, R74). -/
def acceptStart (s : State) : Outcome :=
  match fetchOperation s with
  | .run _ => .next (s.begin true)
  | .settle t => .next t
  | .refuse r => .refused r

/-- The start event (R31): `STATUS <- BUSY`, so that the host has no move but a reset until the operation has ended
(R55, R206), and the next step begins the operation. A start while `STATUS` is `BUSY` or `FAULT`, or of a reserved value,
is refused (R74, U9, U10). -/
def hostStart (s : State) : Outcome :=
  match s.status with
  | .busy => .refused .startWhileBusy
  | .fault => .refused .startAfterFault
  | .idle => acceptStart s
  | .done => acceptStart s

/-- Reset (R200): "the only exit from `FAULT`". It abandons any operation in progress; the parameters stay, and what the
spec leaves unspecified takes the model's reset values (log entry 5). Free values used so far are not used again. -/
def hostReset (s : State) : State := { State.reset with cfg := s.cfg, free := s.free }

/-- Store `m` as the memory that `sel` selects. -/
def State.setMemory (s : State) (sel : MemSel) (m : Memory) : State :=
  match sel with
  | .src => { s with src := m }
  | .dst => { s with dst := m }

/-- The host writes one byte of SRC or DST, not while an operation runs (R11, R55, R203). -/
def hostWriteMemory (sel : MemSel) (a : Nat) (v : Byte) (s : State) : Outcome :=
  if s.status = .busy then .refused .hostAccessWhileBusy
  else if a < s.memoryLen sel then .next (s.setMemory sel ((s.memory sel).write a v))
  else .fault (.outsideMemory sel a)

/-- The host reads one byte of SRC or DST, not while an operation runs (R53, R55). -/
def hostReadMemory (sel : MemSel) (a : Nat) (s : State) : Host.Outcome Byte Fault Refusal :=
  if s.status = .busy then .refused .hostAccessWhileBusy
  else if a < s.memoryLen sel then .next ((s.memory sel).read a)
  else .fault (.outsideMemory sel a)

/-- The host reads a result register. The content is defined only while `STATUS = DONE`, and then only for the registers
the operation lists (R27); otherwise it is a free value or the model's reset value (log entries 3 and 6). -/
def hostReadResult (k : Fin 4) (s : State) : Word :=
  match k with
  | 0 => s.res0
  | 1 => s.res1
  | 2 => s.res2
  | 3 => s.res3

/-- The host reads `STATUS` as its code (R28). -/
def hostReadStatus (s : State) : Nat := s.status.code

/-- The host reads `ERR` as its code (R29). -/
def hostReadErr (s : State) : Nat := s.errCode

/-- The host reads `INFO` (R30). -/
def hostReadInfo (s : State) : Word := s.info

end Sys2Proof.Machine
end

