-- ==== Sys2Proof/Machine/HostSequence.lean ====
section
/-! DEFINITION. The host sequence of spec 43_host_sequence.md: software that runs outside the block and drives it
through the interface registers. It is written down so that a model of one whole transform exists; no step of the block
depends on it (log entry 24). -/

namespace Sys2Proof.Machine

/-- Why a transform gives no output (R172): a fault of the block or of the host itself (R180), a case the spec refuses,
or a stop of the model. -/
inductive Abort where
  | fault (c : FaultCause)
  | refused (r : Refusal)
  | stopped (f : Fault)
  deriving DecidableEq, Repr

/-! ### Host primitives -/

/-- "swap every consecutive pair of bytes" (R161), which takes the length as even. DESIGN CHOICE (log entry 30): with an odd
length, which an odd `SRC_LEN` given as an argument (R5) admits, the last byte has no partner and stays where it is. -/
def pairSwap : List Byte → List Byte
  | a :: b :: rest => b :: a :: pairSwap rest
  | [a] => [a]
  | [] => []

/-- `Normalize(RAW)`: the detection byte is tested once, on the raw input (R161). -/
def normalize (raw : List Byte) : List Byte :=
  if raw.head? = some Config.swappedMark then pairSwap raw else raw

/-- The size check: `InvalidImageSize` unless `len(RAW) = SRC_LEN` (R162). -/
def checkSize (cfg : Params) (raw : List Byte) : Except Abort Unit :=
  if raw.length = cfg.srcLen then .ok () else .error (.fault .invalidImageSize)

/-- SRC holds the normalized input (R161, R203). -/
def loadSource (raw : List Byte) (s : State) : State := { s with src := Memory.ofBytes 0 (normalize raw) }

/-- Preparing DST: `DST[a] <- SRC[a]` for `a < SRC_LEN` and 0 above (R163). An unlisted byte reads as 0. -/
def prepareDst (s : State) : State :=
  { s with dst := s.src.filter fun c => decide (c.1 < s.cfg.srcLen ∧ c.1 < s.cfg.dstLen) }

/-- The zero fill: `DST[a] <- 0` for `lo ≤ a < hi` (R170). An unlisted byte reads as 0. -/
def zeroFill (lo hi : Nat) (s : State) : State :=
  { s with dst := s.dst.filter fun c => decide (c.1 < lo ∨ hi ≤ c.1) }

/-- `count` bytes from `a` of SRC to `b` of DST, in ascending order. -/
def copyBytes (a b : Nat) : Nat → State → State
  | 0, s => s
  | count + 1, s => copyBytes (a + 1) (b + 1) count { s with dst := s.dst.write b (s.src.read a) }

/-- `CopyFile(e)` for an entry of `size` bytes (R167): the bounds are checked before any byte is copied. DESIGN CHOICE (log
entry 29): an empty range that starts past the end of its memory is not "wholly inside" it either, and raises. -/
def copyFile (e : TableEntry) (size : Nat) (s : State) : Except Abort State :=
  if e.startPhysical.toNat + size ≤ s.cfg.srcLen ∧ e.startVirtual.toNat + size ≤ s.cfg.dstLen then
    .ok (copyBytes e.startPhysical.toNat e.startVirtual.toNat size s)
  else .error (.fault .boundsError)

/-! ### Running an operation of the block -/

/-- Steps until the operation has ended, at most `fuel` of them. -/
def runBusy : Nat → State → Outcome
  | 0, s => .next s
  | fuel + 1, s =>
    if s.status = .busy then
      match step s with
      | .next t => runBusy fuel t
      | .fault f => .fault f
      | .refused r => .refused r
    else .next s

/-- A bound on the steps of an operation after its start: `LZDEC` runs at most a `CTL` and a command for each byte, and
one step completes it (R95, R212). -/
def stepBound (s : State) : Nat := 2 * s.size.toNat + 1

/-- The host goes on from a next state and aborts on anything else. -/
def proceed : Outcome → Except Abort State
  | .next t => .ok t
  | .refused r => .error (.refused r)
  | .fault f => .error (.stopped f)

/-- The host looks at how the operation ended: any fault aborts the transform (R166, R172). -/
def checkFault (s : State) : Except Abort State :=
  match s.err with
  | none => .ok s
  | some c => .error (.fault c)

/-- The host writes the registers, starts the operation, waits for its end and looks at how it ended (R31, R53, R172). -/
def runOperation (w : OpWords) (s : State) : Except Abort State := do
  let written ← proceed (hostWriteOpWords w s)
  let started ← proceed (hostStart written)
  let running ← proceed (step started)
  let ended ← proceed (runBusy (stepBound running) running)
  checkFault ended

/-- `LOCATE()`, and its result `T` (R164). -/
def hostLocate (s : State) : Except Abort (Word × State) := do
  let t ← runOperation ⟨1, 0, 0, 0, 0, 0, 0⟩ s
  .ok (t.res0, t)

/-- `TDEC(0, T, k)`: entry `k` of the table in SRC (R165, R166). -/
def hostDecode (table k : Word) (s : State) : Except Abort (TableEntry × State) := do
  let t ← runOperation ⟨2, 0, table, k, 0, 0, 0⟩ s
  .ok (⟨t.res0, t.res1, t.res2, t.res3⟩, t)

/-- The `Size` of an entry, or the refusal of an entry that has none (R118, R166, U5). -/
def sizeOrRefuse (e : TableEntry) : Except Abort Nat :=
  match entrySize e with
  | some n => .ok n
  | none => .error (.refused .malformedEntry)

/-! ### The sequence -/

/-- One pass of the entry loop (R166 to R169): decode the entry, copy or decompress its file, rewrite its record. -/
def processEntry (table k : Word) (s : State) : Except Abort State := do
  let (e, s) ← hostDecode table k s
  let size ← sizeOrRefuse e
  let s ←
    if isCompressed e then
      runOperation ⟨4, e.startPhysical, e.endPhysical, e.startVirtual, BitVec.ofNat 32 size, 0, 0⟩ s
    else copyFile e size s
  runOperation ⟨3, table, k, e.startVirtual, e.endVirtual, e.startVirtual, 0⟩ s

/-- The entries `k`, `k + 1`, ... in ascending order, `count` of them (R166). -/
def processEntries (table : Word) : Nat → Nat → State → Except Abort State
  | 0, _, s => .ok s
  | count + 1, k, s =>
    match processEntry table (BitVec.ofNat 32 k) s with
    | .ok t => processEntries table count (k + 1) t
    | .error a => .error a

/-- Table length: `count = Size(e1) / 16`, rounded down (R121, R165). -/
def tableCount (size : Nat) : Nat := size / Config.entryBytes

/-- The sequence from a loaded SRC on (R163 to R171): prepare DST, locate, table length, zero fill, entry loop, checksum
last. The zero fill stands before the loop (90_conflicts.md C2). DESIGN CHOICE (log entry 31): a `TABLE_SELF_INDEX` of 2^32
or more goes to the 32-bit ARG register of TDEC modulo 2^32. -/
def transformLoaded (s : State) : Except Abort State := do
  let (table, s) ← hostLocate (prepareDst s)
  let (e1, s) ← hostDecode table (BitVec.ofNat 32 s.cfg.tableSelfIndex) s
  let size ← sizeOrRefuse e1
  if e1.endVirtual.toNat < table.toNat + Config.entryBytes * tableCount size then .error (.refused .tableBeyondEnd)
  else
    let s := zeroFill e1.endVirtual.toNat s.cfg.srcLen s
    let s ← processEntries table (tableCount size - s.cfg.firstFileIndex) s.cfg.firstFileIndex s
    runOperation ⟨5, 0, 0, 0, 0, 0, 0⟩ s

/-- The whole transform of a raw image by a block with parameters `cfg`, from reset (R173): on success the final DST, on
failure nothing (R160, R172). -/
def transform (cfg : Params) (raw : List Byte) : Except Abort Memory :=
  match checkSize cfg raw with
  | .error a => .error a
  | .ok () =>
    match transformLoaded (loadSource raw { State.reset with cfg := cfg }) with
    | .ok t => .ok t.dst
    | .error a => .error a

end Sys2Proof.Machine
end

