-- ==== Sys2Proof/Safety.lean ====
section
/-! DEFINITION. What counts as a good state and a good run of the block, in the terms that statements use. -/

namespace Sys2Proof.Machine

/-- Both memories are canonical and hold nothing outside their length (spec 20_memory.md R40). -/
abbrev State.memoriesOk (s : State) : Prop :=
  s.src.wf ∧ s.src.inside s.cfg.srcLen ∧ s.dst.wf ∧ s.dst.inside s.cfg.dstLen

/-- `STATUS = FAULT` exactly when `ERR` holds a cause (10_state.md R28, R29). -/
abbrev State.faultOk (s : State) : Prop := s.status = .fault ↔ s.err ≠ none

/-- The cursors and the counter of a running `LZDEC` (40_lz_decoder.md R95, 10_state.md R13, R14, R16). A source shorter
than its header leaves `sp` past the limit, where every read faults (R81). -/
abbrev State.decoderOk (s : State) : Prop :=
  s.nbits ≤ 8 ∧
    (s.status = .busy → s.start = false →
      s.dp ≤ s.size.toNat ∧ s.dp ≤ s.cfg.dstLen - s.dstBase.toNat ∧ s.srcBase.toNat + Config.lzHdrBytes ≤ s.sp ∧
        (s.sp = s.srcBase.toNat + Config.lzHdrBytes ∨ (s.sp ≤ s.srcLimit.toNat ∧ s.sp ≤ s.cfg.srcLen)))

/-- The scan cursors are multiples of 16 and the window offset a multiple of 4 inside the window (R19, R22). -/
abbrev State.cursorsOk (s : State) : Prop :=
  s.o % Config.entryBytes = 0 ∧ s.p % Config.entryBytes = 0 ∧ s.i % 4 = 0 ∧ s.i < Config.winLen

/-- An operation that has been started and not begun is one of the five, and `STATUS` is `BUSY` (R31, R74). -/
abbrev State.startOk (s : State) : Prop := s.start = true → s.status = .busy ∧ (decodeOp s.opWords).isOk = true

/-- The invariant of the block. -/
structure State.Inv (s : State) : Prop where
  memories : s.memoriesOk
  fault : s.faultOk
  decoder : s.decoderOk
  cursors : s.cursorsOk
  start : s.startOk

/-- The DST addresses that a step from `s` may write (20_memory.md R49): a running `LZDEC` the part of its destination
that is not yet decoded, a started `TENC` its record, a started `FIXCHK` the two checksum words. -/
def State.mayWrite (s : State) (a : Nat) : Prop :=
  (s.status = .busy ∧ s.start = false ∧ s.dstBase.toNat + s.dp ≤ a ∧ a < s.dstBase.toNat + s.size.toNat) ∨
    (s.status = .busy ∧ s.start = true ∧ s.op = 3#32 ∧
      recordAddr s.arg0 s.arg1 ≤ a ∧ a < recordAddr s.arg0 s.arg1 + Config.entryBytes) ∨
    (s.status = .busy ∧ s.start = true ∧ s.op = 5#32 ∧ Config.ck0Off ≤ a ∧ a < Config.ck0Off + 8)

/-- `s` with the result registers of `t` (and the model's counter of free values): `u = s.withResultsOf u` says that
`u` is `s` in every other field, whatever its result registers hold. -/
def State.withResultsOf (s t : State) : State :=
  { s with res0 := t.res0, res1 := t.res1, res2 := t.res2, res3 := t.res3, free := t.free }

/-- `STATUS` allows the host a start (R31). -/
abbrev State.ready (s : State) : Prop := s.status = .idle ∨ s.status = .done

/-- An operation given to `exec` runs: the host has started it, or may start it (R31). -/
abbrev State.startable (s : State) : Prop := s.ready ∨ (s.status = .busy ∧ s.start = true)

/-- The moves by which the host changes the block between two steps (R10 (b), R25, R26, R31, R55, R200). -/
inductive HostMove (s t : State) : Prop where
  | writeOp (v : Word) (h : hostWriteOp v s = .next t)
  | writeArg (k : Fin 6) (v : Word) (h : hostWriteArg k v s = .next t)
  | writeOpWords (w : OpWords) (h : hostWriteOpWords w s = .next t)
  | writeMemory (sel : MemSel) (a : Nat) (v : Byte) (h : hostWriteMemory sel a v s = .next t)
  | start (h : hostStart s = .next t)
  | reset (h : t = hostReset s)

/-- How far back a back-reference starts and how many bytes it copies (30_encoding.md R66, R67); `none` for an
instruction that is no back-reference. -/
def backRefParts : Instr → Option (Nat × Nat)
  | .ctl _ => none
  | .lit _ => none
  | .refs n distance => some (backOffset distance, refsLength n)
  | .refl distance extra => some (backOffset distance, reflLength extra)
  | .locate => none
  | .tdec _ _ _ => none
  | .tenc _ _ _ _ _ _ => none
  | .lzdec _ _ _ _ => none
  | .fixchk => none

/-- How many bytes of a copy fit before `size` and before the end of DST (40_lz_decoder.md R84, R89). -/
def State.room (s : State) : Nat := min (s.size.toNat - s.dp) (s.cfg.dstLen - (s.dstBase.toNat + s.dp))

/-- The overlap law (40_lz_decoder.md R94): the `length` bytes of `after` from `start` on repeat the `offset` bytes that
stand before `start` in `before`, and every other byte is as it was. -/
def OverlapCopy (before after : Memory) (start offset length : Nat) : Prop :=
  (∀ k, k < length → after.read (start + k) = before.read (start - offset + k % offset)) ∧
    ∀ a, a < start ∨ start + length ≤ a → after.read a = before.read a

/-- A stride that is a candidate header (R112). -/
def CandidateHeader (m : Memory) (o : Nat) : Prop :=
  m.be32 o = 0x7A656C64#32 ∧ m.be32 (o + 4) = 0x61407372#32 ∧ m.read (o + 8) = 0x64#8

/-- `o` is the first whole stride of SRC that is a candidate header (R111). -/
def FirstCandidate (s : State) (o : Nat) : Prop :=
  o % 16 = 0 ∧ o + 16 ≤ s.cfg.srcLen ∧ CandidateHeader s.src o ∧
    ∀ x, x % 16 = 0 → x < o → ¬ CandidateHeader s.src x

end Sys2Proof.Machine
end

