-- ==== Sys2Proof/Certificates/Slice0/Obligations.lean ====
section
/-! DEFINITION. The statements for the provers. A statement that gives the next state as an equation is also its frame:
every field it does not name is unchanged. `u = s.withResultsOf u` (Safety.lean) leaves open only the result registers,
which the spec leaves unspecified there, and the model's counter of free values. -/

open Sys2Proof Sys2Proof.Machine

/-! ### Encoding -/

/-- Every well-formed instruction is decoded from its encoding, with the stream bytes after it left over. -/
def Obligations.DecodeOfEncodeIsTheInstruction : Prop :=
  ∀ (i : Instr) (rest : List Byte), i.wellFormed = true →
    decode ((encode i).followedBy rest) = .ok (i, if i.streamBytes = 0 then [] else rest)

/-- What the decoder reads from a stream is well formed, and the bytes it takes are that command's encoding (R68). -/
def Obligations.DecodedStreamBytesAreTheEncoding : Prop :=
  (∀ (bytes rest : List Byte) (i : Instr), decodeControl bytes = .ok (i, rest) →
      ∃ payload, encode i = .control payload ∧ payload.length = 1 ∧ i.streamBytes = 1 ∧ bytes = payload ++ rest) ∧
    ∀ (flag : Bool) (bytes rest : List Byte) (i : Instr), decodeCommand flag bytes = .ok (i, rest) →
      i.wellFormed = true ∧
        ∃ payload, encode i = .command flag payload ∧ payload.length = i.streamBytes ∧ bytes = payload ++ rest ∧
          (flag = true ↔ payload.length = 1) ∧ (flag = false → payload.length = 2 ∨ payload.length = 3)

/-- The seven rows of the field-assembly table of 95_test_vectors.md 2.3, a literal, a control byte and the five operation
codes decode to the instructions they stand for. -/
def Obligations.SampleWordsDecode : Prop :=
  decodeCommand false [0x10, 0x00] = .ok (.refs 1 0, []) ∧
    decodeCommand false [0xF0, 0x00] = .ok (.refs 15 0, []) ∧
    decodeCommand false [0x1F, 0xFF] = .ok (.refs 1 4095, []) ∧
    decodeCommand false [0x2A, 0xBC] = .ok (.refs 2 0xABC, []) ∧
    decodeCommand false [0x00, 0x00, 0x00] = .ok (.refl 0 0, []) ∧
    decodeCommand false [0x0F, 0xFF, 0xFF] = .ok (.refl 4095 0xFF, []) ∧
    decodeCommand false [0x01, 0x00, 0x01] = .ok (.refl 256 1, []) ∧
    decodeCommand true [0x41] = .ok (.lit 0x41, []) ∧
    decodeControl [0xE0] = .ok (.ctl 0xE0, []) ∧
    decodeOp ⟨1, 7, 7, 7, 7, 7, 7⟩ = .ok .locate ∧
    decodeOp ⟨2, 1, 0x30, 2, 7, 7, 7⟩ = .ok (.tdec .dst 0x30 2) ∧
    decodeOp ⟨3, 0x30, 2, 0x1000, 0x1040, 0x1000, 0⟩ = .ok (.tenc 0x30 2 0x1000 0x1040 0x1000 0) ∧
    decodeOp ⟨4, 0, 33, 0, 37, 7, 7⟩ = .ok (.lzdec 0 33 0 37) ∧
    decodeOp ⟨5, 7, 7, 7, 7, 7, 7⟩ = .ok .fixchk

/-- Distance and length of a back-reference as the spec assembles them from the bytes, their ranges, and that each pair
of a distance field and a length from 3 to 273 has exactly one encoding (R66, R67). -/
def Obligations.LengthAndDistanceAssembly : Prop :=
  (∀ (b0 b1 extra : Byte) (rest : List Byte),
    (b0.toNat >>> 4 ≠ 0 →
        ∃ n d, decodeCommand false (b0 :: b1 :: rest) = .ok (.refs n d, rest) ∧
          d.toNat = (b0.toNat &&& 0x0F) <<< 8 ||| b1.toNat ∧ refsLength n = (b0.toNat >>> 4) + 2 ∧
          3 ≤ refsLength n ∧ refsLength n ≤ 17) ∧
      (b0.toNat >>> 4 = 0 →
        ∃ d, decodeCommand false (b0 :: b1 :: extra :: rest) = .ok (.refl d extra, rest) ∧
          d.toNat = (b0.toNat &&& 0x0F) <<< 8 ||| b1.toNat ∧ reflLength extra = extra.toNat + 18 ∧
          18 ≤ reflLength extra ∧ reflLength extra ≤ 273)) ∧
    ∀ (d : BitVec 12) (len : Nat), 3 ≤ len → len ≤ 273 →
      ∃! bytes : List Byte,
        (∃ n, decodeCommand false bytes = .ok (.refs n d, []) ∧ refsLength n = len) ∨
          ∃ extra, decodeCommand false bytes = .ok (.refl d extra, []) ∧ reflLength extra = len

/-- A stream assembled from well-formed commands (R75) is read back, flag by flag and group by group (R62, R68), as the
same commands, with the bytes after it left over. -/
def Obligations.AssembledStreamReadsBack : Prop :=
  ∀ (commands : List Instr) (bytes rest : List Byte) (ctl : Byte),
    (∀ i ∈ commands, i.wellFormed = true) → assemble commands = some bytes →
    readCommands commands.length ctl 0 (bytes ++ rest) = .ok (commands, rest)

/-- `REF d, len` (R76) is the short form for a length of 3 to 17 and the long form for one of 18 to 273, with the payload
bytes that R75 gives, and stands for nothing else. -/
def Obligations.RefPseudoCommand : Prop :=
  ∀ (d : BitVec 12) (len : Nat),
    (3 ≤ len → len ≤ 17 →
        ∃ n, refCommand d len = some (.refs n d) ∧ (Instr.refs n d).wellFormed = true ∧ refsLength n = len ∧
          encode (.refs n d) =
            .command false [BitVec.ofNat 8 ((len - 2) <<< 4 ||| d.toNat >>> 8), BitVec.ofNat 8 (d.toNat &&& 0xFF)]) ∧
      (18 ≤ len → len ≤ 273 →
        ∃ extra, refCommand d len = some (.refl d extra) ∧ reflLength extra = len ∧
          encode (.refl d extra) =
            .command false
              [BitVec.ofNat 8 (d.toNat >>> 8), BitVec.ofNat 8 (d.toNat &&& 0xFF), BitVec.ofNat 8 (len - 18)]) ∧
      (len < 3 ∨ 273 < len → refCommand d len = none)

/-! ### The step -/

/-- Once the host has started an operation, the step runs the one that `OP` and the `ARG` registers hold. -/
def Obligations.StepRunsTheStartedOperation : Prop :=
  ∀ (s : State) (i : Instr), s.status = .busy → s.start = true → decodeOp s.opWords = .ok i → step s = exec i s

/-- A running `LZDEC` that is not at its end runs the command that the bytes at `sp` encode: a control byte when
`nbits = 0`, else the command of the flag `ctl[7]` (R68, R82). -/
def Obligations.StepRunsTheCommandAtSp : Prop :=
  ∀ (s : State) (i : Instr) (payload : List Byte),
    s.status = .busy → s.start = false → s.dp < s.size.toNat → i.wellFormed = true →
    encode i = (if s.nbits = 0 then Encoding.control payload else Encoding.command s.ctl.msb payload) →
    (∀ (k : Nat) (b : Byte), payload[k]? = some b → s.inSource (s.sp + k) ∧ s.src.read (s.sp + k) = b) →
    step s = exec i s

/-- While no operation runs, a step changes nothing (log entry 10). -/
def Obligations.StepWithoutWorkChangesNothing : Prop :=
  ∀ s : State, s.status ≠ .busy → step s = .next s

/-- `LZDEC` completes exactly when the loop test finds `dp = size`, and returns the cursors (R82, R91). The invariant
(see `EveryStepKeepsTheInvariant`) excludes a `dp` past `size`. -/
def Obligations.LzdecCompletesAtSize : Prop :=
  ∀ s : State, s.status = .busy → s.start = false → s.dp ≤ s.size.toNat →
    (s.dp = s.size.toNat →
        ∃ t, step s = .next t ∧ (s.sp < 2 ^ 32 → t.res0 = BitVec.ofNat 32 s.sp) ∧ t.res1 = s.size ∧
          t = ({ s with status := .done } : State).withResultsOf t) ∧
      (s.dp < s.size.toNat → ∃ t, step s = .next t ∧ t.status ≠ .done)

/-- A start of a reserved operation code (R74), or of `TDEC` with a select other than 0 or 1 (R73), is refused. -/
def Obligations.ReservedStartIsRefused : Prop :=
  ∀ s : State, s.ready →
    ((s.op = 0#32 ∨ 6 ≤ s.op.toNat) → hostStart s = .refused (.reservedOp s.op)) ∧
      (s.op = 2#32 → s.arg0 ≠ 0#32 → s.arg0 ≠ 1#32 → hostStart s = .refused (.reservedSelect s.arg0))

/-! ### The stream commands -/

/-- `CTL` reads the next source byte as the control byte, or raises `TruncatedStream` when it is outside the source
(R85). That `flags` is the byte at `sp` is `StepRunsTheCommandAtSp`. That all of DST stays after the fault is the model's
choice (log entry 16). -/
def Obligations.CtlFetchesTheControlByte : Prop :=
  ∀ (s : State) (flags : Byte), s.controlDue →
    (s.inSource s.sp → exec (.ctl flags) s = .next { s with sp := s.sp + 1, ctl := flags, nbits := 8 }) ∧
      (¬ s.inSource s.sp →
        ∃ t, exec (.ctl flags) s = .next t ∧
          t = ({ s with
                  status := .fault
                  err := some .truncatedStream
                  info := BitVec.ofNat 32 s.sp } : State).withResultsOf t)

/-- `LIT` copies its payload byte (R86) and shifts the control byte (R90); it raises `TruncatedStream` when the byte is
outside the source, and `OutputOverrun`, with the byte consumed and nothing shifted, when `dst_base + dp` is at or past
the end of DST. That all of DST stays after either fault is the model's choice (log entry 16). -/
def Obligations.LitCopiesOneByte : Prop :=
  ∀ (s : State) (v : Byte), s.literalDue →
    (s.inSource s.sp → s.dstBase.toNat + s.dp < s.cfg.dstLen →
        exec (.lit v) s =
          .next
            { s with
              sp := s.sp + 1
              dst := s.dst.write (s.dstBase.toNat + s.dp) v
              dp := s.dp + 1
              ctl := s.ctl <<< 1
              nbits := s.nbits - 1 }) ∧
      (s.inSource s.sp → s.cfg.dstLen ≤ s.dstBase.toNat + s.dp →
        ∃ t, exec (.lit v) s = .next t ∧
          t = ({ s with
                  sp := s.sp + 1
                  status := .fault
                  err := some .outputOverrun
                  info := BitVec.ofNat 32 s.dp } : State).withResultsOf t) ∧
      (¬ s.inSource s.sp →
        ∃ t, exec (.lit v) s = .next t ∧
          t = ({ s with
                  status := .fault
                  err := some .truncatedStream
                  info := BitVec.ofNat 32 s.sp } : State).withResultsOf t)

/-- `REFS` and `REFL` with a copy that lies inside the destination (R87, R88, R89): the overlap law (R94), the cursors,
the control shift (R90), and nothing else. -/
def Obligations.BackReferencesCopyWithOverlap : Prop :=
  (∀ (s : State) (n : BitVec 4) (d : BitVec 12),
    n ≠ 0#4 → s.backRefDue → s.inSource (s.sp + 1) → d.toNat + 1 ≤ s.dp → n.toNat + 2 ≤ s.room →
    ∃ m, exec (.refs n d) s =
        .next
          { s with
            sp := s.sp + 2
            dst := m
            dp := s.dp + (n.toNat + 2)
            ctl := s.ctl <<< 1
            nbits := s.nbits - 1 } ∧
      OverlapCopy s.dst m (s.dstBase.toNat + s.dp) (d.toNat + 1) (n.toNat + 2)) ∧
    ∀ (s : State) (d : BitVec 12) (extra : Byte),
      s.backRefDue → s.inSource (s.sp + 2) → d.toNat + 1 ≤ s.dp → extra.toNat + 18 ≤ s.room →
      ∃ m, exec (.refl d extra) s =
          .next
            { s with
              sp := s.sp + 3
              dst := m
              dp := s.dp + (extra.toNat + 18)
              ctl := s.ctl <<< 1
              nbits := s.nbits - 1 } ∧
        OverlapCopy s.dst m (s.dstBase.toNat + s.dp) (d.toNat + 1) (extra.toNat + 18)

/-- A stream command (`CTL`, `LIT`, `REFS`, `REFL`) whose `k`-th byte is the first outside the source raises
`TruncatedStream` there, with the bytes before it consumed and nothing else done (R83, R90). That all of DST stays is the
model's choice (log entry 16). -/
def Obligations.CutOffCommandRaisesTruncatedStream : Prop :=
  ∀ (s : State) (i : Instr) (k : Nat), i.wellFormed = true →
    (match i with
      | .ctl _ => s.controlDue
      | .lit _ => s.literalDue
      | .refs _ _ => s.backRefDue
      | .refl _ _ => s.backRefDue
      | _ => False) →
    k < i.streamBytes → (∀ j, j < k → s.inSource (s.sp + j)) → ¬ s.inSource (s.sp + k) →
    ∃ t, exec i s = .next t ∧
      t = ({ s with
              sp := s.sp + k
              status := .fault
              err := some .truncatedStream
              info := BitVec.ofNat 32 (s.sp + k) } : State).withResultsOf t

/-- A step whose command is cut off by the end of the source raises `TruncatedStream` at the first byte that is not
there, also when the command cannot be told from the bytes that are (R83, R93). That all of DST stays is the model's
choice (log entry 16). -/
def Obligations.StepAtTheEndOfTheSourceFaults : Prop :=
  ∀ (s : State) (k : Nat), s.status = .busy → s.start = false → s.dp < s.size.toNat →
    (∀ j, j < k → s.inSource (s.sp + j)) → ¬ s.inSource (s.sp + k) →
    (k = 0 ∨
      (s.nbits ≠ 0 ∧ s.ctl.msb = false ∧ (k = 1 ∨ (k = 2 ∧ s.src.read s.sp >>> 4 = 0#8)))) →
    ∃ t, step s = .next t ∧
      t = ({ s with
              sp := s.sp + k
              status := .fault
              err := some .truncatedStream
              info := BitVec.ofNat 32 (s.sp + k) } : State).withResultsOf t

/-- A back-reference (`REFS`, `REFL`) longer than the room left writes the bytes that fit and raises `OutputOverrun` at
the first that does not, with `ctl` and `nbits` unshifted (R89, R90). That the written bytes stay is the
model's choice (log entry 16). -/
def Obligations.TooLongBackReferenceOverruns : Prop :=
  ∀ (s : State) (i : Instr) (q len : Nat), i.wellFormed = true → backRefParts i = some (q, len) → s.backRefDue →
    s.inSource (s.sp + (i.streamBytes - 1)) → q ≤ s.dp → s.room < len →
    ∃ t, exec i s = .next t ∧ OverlapCopy s.dst t.dst (s.dstBase.toNat + s.dp) q s.room ∧
      t = ({ s with
              sp := s.sp + i.streamBytes
              dst := t.dst
              dp := s.dp + s.room
              status := .fault
              err := some .outputOverrun
              info := BitVec.ofNat 32 (s.dp + s.room) } : State).withResultsOf t

/-- A back-reference (`REFS`, `REFL`) that starts before the first destination byte raises `BoundsError` after its
payload is read and before anything is written, however long it is (R89, R97). That all of DST stays is the model's choice
(log entry 16). -/
def Obligations.BackReferenceBeforeTheStartIsOutOfBounds : Prop :=
  ∀ (s : State) (i : Instr) (q len : Nat), i.wellFormed = true → backRefParts i = some (q, len) → s.backRefDue →
    s.inSource (s.sp + (i.streamBytes - 1)) → s.dp < q →
    ∃ t, exec i s = .next t ∧
      t = ({ s with
              sp := s.sp + i.streamBytes
              status := .fault
              err := some .boundsError
              info := BitVec.ofNat 32 s.dp } : State).withResultsOf t

/-! ### LZDEC -/

/-- `LZDEC` starts the decoder: operands latched, `sp` past the header, `dp` and `nbits` 0, nothing read and no bound
checked; `ctl` may hold any value (R81, R31). -/
def Obligations.LzdecInitialises : Prop :=
  ∀ (s : State) (srcBase srcLimit dstBase size : Word), s.startable →
    ∃ t, exec (.lzdec srcBase srcLimit dstBase size) s = .next t ∧
      t = ({ s with
              srcBase := srcBase
              srcLimit := srcLimit
              dstBase := dstBase
              size := size
              sp := srcBase.toNat + 16
              dp := 0
              nbits := 0
              ctl := t.ctl
              status := .busy
              start := false } : State).withResultsOf t

/-- `LZDEC` with `size = 0` completes with no access to a memory, whatever its limits (R92). -/
def Obligations.LzdecOfSizeZeroCompletes : Prop :=
  ∀ (s : State) (srcBase srcLimit dstBase : Word), s.startable →
    ∃ t u, exec (.lzdec srcBase srcLimit dstBase 0) s = .next t ∧ step t = .next u ∧
      u.status = .done ∧ u.err = s.err ∧ u.src = s.src ∧ u.dst = s.dst ∧
      u.sp = srcBase.toNat + 16 ∧ u.dp = 0 ∧ u.res1 = 0#32 ∧
      (srcBase.toNat + 16 < 2 ^ 32 → u.res0 = srcBase + 16#32)

/-- A running `LZDEC` ends: within `2 * (size - dp) + 1` steps (one step for a `CTL`, one for each command that it is
followed by, one for the end) it completes or faults (R95, R212). -/
def Obligations.LzdecEnds : Prop :=
  ∀ s : State, s.status = .busy → s.start = false →
    ∃ t, runBusy (2 * (s.size.toNat - s.dp) + 1) s = .next t ∧ (t.status = .done ∨ t.status = .fault)

/-- The contract of `LZDEC` (R80): a run that completes has produced exactly `size` bytes, inside DST, and no other byte
of DST and none of SRC has changed; it returns its cursors. -/
def Obligations.CompletedLzdecWritesExactlySizeBytes : Prop :=
  ∀ (s t u : State) (srcBase srcLimit dstBase size : Word) (fuel : Nat),
    exec (.lzdec srcBase srcLimit dstBase size) s = .next t → runBusy fuel t = .next u → u.status = .done →
    u.dp = size.toNat ∧ u.res1 = size ∧ (u.sp < 2 ^ 32 → u.res0 = BitVec.ofNat 32 u.sp) ∧
      (size ≠ 0#32 → dstBase.toNat + size.toNat ≤ s.cfg.dstLen ∧ u.sp ≤ srcLimit.toNat ∧ u.sp ≤ s.cfg.srcLen) ∧
      u.src = s.src ∧ (∀ a, a < dstBase.toNat ∨ dstBase.toNat + size.toNat ≤ a → u.dst.read a = s.dst.read a)

/-- The bytes that a completed `LZDEC` produces, and the source bytes it consumes, depend on the source and on `size`
only: not on what DST held, nor on where in DST it writes (R98). -/
def Obligations.LzdecOutputDependsOnTheSourceOnly : Prop :=
  ∀ (s₁ s₂ t₁ t₂ u₁ u₂ : State) (srcBase srcLimit dstBase₁ dstBase₂ size : Word) (fuel₁ fuel₂ : Nat),
    s₁.src = s₂.src → s₁.cfg.srcLen = s₂.cfg.srcLen →
    exec (.lzdec srcBase srcLimit dstBase₁ size) s₁ = .next t₁ → runBusy fuel₁ t₁ = .next u₁ → u₁.status = .done →
    exec (.lzdec srcBase srcLimit dstBase₂ size) s₂ = .next t₂ → runBusy fuel₂ t₂ = .next u₂ → u₂.status = .done →
    u₁.sp = u₂.sp ∧ ∀ k, k < size.toNat → u₁.dst.read (dstBase₁.toNat + k) = u₂.dst.read (dstBase₂.toNat + k)

/-- Progress of the decoder (R95, R100): a step of a running `LZDEC` never moves `sp` backwards and consumes at most
three bytes; a command that does not fault produces at least one byte and at most 273, and a control-byte fetch none. -/
def Obligations.DecoderStepsMoveForward : Prop :=
  ∀ s t : State, s.status = .busy → s.start = false → step s = .next t →
    s.sp ≤ t.sp ∧ t.sp ≤ s.sp + 3 ∧ s.dp ≤ t.dp ∧ t.dp ≤ s.dp + 273 ∧
      (t.status = .busy → s.nbits ≠ 0 → s.dp < t.dp) ∧ (s.nbits = 0 → t.dp = s.dp)

/-- The only causes that a running `LZDEC` raises (R96). -/
def Obligations.LzdecFaultCauses : Prop :=
  ∀ s t : State, s.status = .busy → s.start = false → step s = .next t → t.status = .fault →
    t.err = some .truncatedStream ∨ t.err = some .outputOverrun ∨ t.err = some .boundsError

/-! ### The table parser -/

/-- `LOCATE` finds the first candidate header and the first sentinel after it, and returns the address 16 bytes before
the sentinel; it writes no memory (R110, R111, R113). -/
def Obligations.LocateReturnsTheStrideBeforeTheSentinel : Prop :=
  ∀ (s : State) (o p : Nat), s.startable → FirstCandidate s o →
    p % 16 = 0 → o < p → p + 16 ≤ s.cfg.srcLen → s.src.be32 p = 0x00001060#32 →
    (∀ x, x % 16 = 0 → o < x → x < p → s.src.be32 x ≠ 0x00001060#32) →
    ∃ t, exec .locate s = .next t ∧ (p - 16 < 2 ^ 32 → t.res0 = BitVec.ofNat 32 (p - 16)) ∧
      t = ({ s with o := o, p := p, phase := .b, status := .done, start := false } : State).withResultsOf t

/-- With no candidate header `LOCATE` raises `TableNotFound(0)` (R111). The value left in `o` is log entry 28. -/
def Obligations.LocateWithoutHeaderFails : Prop :=
  ∀ s : State, s.startable → (∀ x, x % 16 = 0 → x + 16 ≤ s.cfg.srcLen → ¬ CandidateHeader s.src x) →
    ∃ t, exec .locate s = .next t ∧
      t = ({ s with
              o := s.cfg.srcLen / 16 * 16
              phase := .a
              status := .fault
              err := some .tableNotFound
              info := 0#32
              start := false } : State).withResultsOf t

/-- With a candidate header and no sentinel in a later stride `LOCATE` raises `TableNotFound(1)` (R113). The value
left in `p` is log entry 28. -/
def Obligations.LocateWithoutSentinelFails : Prop :=
  ∀ (s : State) (o : Nat), s.startable → FirstCandidate s o →
    (∀ x, x % 16 = 0 → o < x → x + 16 ≤ s.cfg.srcLen → s.src.be32 x ≠ 0x00001060#32) →
    ∃ t, exec .locate s = .next t ∧
      t = ({ s with
              o := o
              p := s.cfg.srcLen / 16 * 16
              phase := .b
              status := .fault
              err := some .tableNotFound
              info := 1#32
              start := false } : State).withResultsOf t

/-- What a completed `LOCATE` guarantees of its result (R114 (a)). -/
def Obligations.LocateResultIsATable : Prop :=
  ∀ s t : State, exec .locate s = .next t → t.status = .done →
    ∃ o T, FirstCandidate s o ∧ o ≤ T ∧ T % 16 = 0 ∧ T + 32 ≤ s.cfg.srcLen ∧ s.src.be32 (T + 16) = 0x00001060#32 ∧
      (T < 2 ^ 32 → t.res0 = BitVec.ofNat 32 T)

/-- `TDEC` returns the four big-endian words of the record and writes no memory; a record that is not wholly inside the
memory raises `BoundsError`, with the low 32 bits of its address in `INFO` (R115). -/
def Obligations.TdecReadsTheRecord : Prop :=
  ∀ (s : State) (sel : MemSel) (base index : Word), s.startable →
    (base.toNat + 16 * index.toNat + 16 ≤ s.memoryLen sel →
        ∃ t, exec (.tdec sel base index) s = .next t ∧
          t.res0 = (s.memory sel).be32 (base.toNat + 16 * index.toNat) ∧
          t.res1 = (s.memory sel).be32 (base.toNat + 16 * index.toNat + 4) ∧
          t.res2 = (s.memory sel).be32 (base.toNat + 16 * index.toNat + 8) ∧
          t.res3 = (s.memory sel).be32 (base.toNat + 16 * index.toNat + 12) ∧
          t = ({ s with status := .done, start := false } : State).withResultsOf t) ∧
      (s.memoryLen sel < base.toNat + 16 * index.toNat + 16 →
        ∃ t, exec (.tdec sel base index) s = .next t ∧
          t = ({ s with
                  status := .fault
                  err := some .boundsError
                  info := base + 16#32 * index
                  start := false } : State).withResultsOf t)

/-- `TENC` writes the four words of the record to DST, big-endian, and changes no other byte; a record that is not wholly
inside DST raises `BoundsError` and writes nothing (R116). -/
def Obligations.TencWritesTheRecord : Prop :=
  ∀ (s : State) (base index sv ev sp ep : Word), s.startable →
    (base.toNat + 16 * index.toNat + 16 ≤ s.cfg.dstLen →
        ∃ t, exec (.tenc base index sv ev sp ep) s = .next t ∧
          t.dst.be32 (base.toNat + 16 * index.toNat) = sv ∧ t.dst.be32 (base.toNat + 16 * index.toNat + 4) = ev ∧
          t.dst.be32 (base.toNat + 16 * index.toNat + 8) = sp ∧ t.dst.be32 (base.toNat + 16 * index.toNat + 12) = ep ∧
          (∀ a, a < base.toNat + 16 * index.toNat ∨ base.toNat + 16 * index.toNat + 16 ≤ a →
            t.dst.read a = s.dst.read a) ∧
          t = ({ s with dst := t.dst, status := .done, start := false } : State).withResultsOf t) ∧
      (s.cfg.dstLen < base.toNat + 16 * index.toNat + 16 →
        ∃ t, exec (.tenc base index sv ev sp ep) s = .next t ∧
          t = ({ s with
                  status := .fault
                  err := some .boundsError
                  info := base + 16#32 * index
                  start := false } : State).withResultsOf t)

/-- The round-trip law (R117): `TDEC` of the record that a completed `TENC` wrote returns its four words; `TENC` of what a
completed `TDEC` returned from the same record leaves every byte of DST, and a canonical DST as a list, as it was. -/
def Obligations.EntryRoundTrip : Prop :=
  (∀ (s t : State) (base index a b c d : Word),
    exec (.tenc base index a b c d) s = .next t → t.status = .done →
    ∃ u, exec (.tdec .dst base index) t = .next u ∧ u.status = .done ∧
      u.res0 = a ∧ u.res1 = b ∧ u.res2 = c ∧ u.res3 = d) ∧
    ∀ (s t : State) (base index : Word),
      exec (.tdec .dst base index) s = .next t → t.status = .done →
      ∃ u, exec (.tenc base index t.res0 t.res1 t.res2 t.res3) t = .next u ∧ u.status = .done ∧
        (∀ a, u.dst.read a = s.dst.read a) ∧ (s.dst.wf → u.dst = s.dst)

/-- `Size` and `IsCompressed` of a decoded entry; an entry with `EndVirtual < StartVirtual` has no `Size` (R118). -/
def Obligations.EntryHelpers : Prop :=
  ∀ e : TableEntry,
    (e.startVirtual.toNat ≤ e.endVirtual.toNat → entrySize e = some (e.endVirtual.toNat - e.startVirtual.toNat)) ∧
      (e.endVirtual.toNat < e.startVirtual.toNat → entrySize e = none) ∧
      (isCompressed e = true ↔ e.endPhysical ≠ 0#32)

/-! ### The checksum engine -/

/-- `FIXCHK` on an image of a known variant writes the two combined words at 0x10 and 0x14, big-endian, returns them with
the variant number and the CRC, and changes no other byte (R130, R150). -/
def Obligations.FixchkWritesTheChecksum : Prop :=
  ∀ (s : State) (v : Variant) (seed : Word), s.startable → s.cfg.crcsDistinct → 0x101000 ≤ s.cfg.dstLen →
    cicOfCrc s.cfg (crc32 (s.dst.bytes 0x40 4032)) = some (v, seed) →
    ∃ t, exec .fixchk s = .next t ∧
      t.res0 = (combine v (accumulate s.dst seed v)).1 ∧ t.res1 = (combine v (accumulate s.dst seed v)).2 ∧
      t.res2 = v.number ∧ t.res3 = crc32 (s.dst.bytes 0x40 4032) ∧
      t.dst.be32 0x10 = t.res0 ∧ t.dst.be32 0x14 = t.res1 ∧
      (∀ a, a < 0x10 ∨ 0x18 ≤ a → t.dst.read a = s.dst.read a) ∧
      t = ({ s with
              dst := t.dst
              crc := crc32 (s.dst.bytes 0x40 4032)
              variant := v
              seed := seed
              acc := accumulate s.dst seed v
              i := t.i
              d := t.d
              r := t.r
              word0 := t.res0
              word1 := t.res1
              status := .done
              start := false } : State).withResultsOf t

/-- `FIXCHK` on an image whose boot-code CRC is none of the five constants raises `UnsupportedBootVariant` with the CRC in
`INFO`, and DST is unchanged (R135, R136, R181). -/
def Obligations.UnknownBootCodeIsUnsupported : Prop :=
  ∀ (s : State) (crc : Word), s.startable → s.cfg.crcsDistinct → 0x101000 ≤ s.cfg.dstLen →
    crc = crc32 (s.dst.bytes 0x40 4032) →
    crc ∉ [s.cfg.crc6101, s.cfg.crc6102, s.cfg.crc6103, s.cfg.crc6105, s.cfg.crc6106] →
    ∃ t, exec .fixchk s = .next t ∧
      t = ({ s with
              crc := crc
              status := .fault
              err := some .unsupportedBootVariant
              info := crc
              start := false } : State).withResultsOf t

/-- `FIXCHK` on a DST shorter than 0x101000 bytes raises `BoundsError` before anything is read or written (R131). -/
def Obligations.FixchkOnAShortImageIsOutOfBounds : Prop :=
  ∀ s : State, s.startable → s.cfg.crcsDistinct → s.cfg.dstLen < 0x101000 →
    ∃ t, exec .fixchk s = .next t ∧
      t = ({ s with
              status := .fault
              err := some .boundsError
              info := BitVec.ofNat 32 s.cfg.dstLen
              start := false } : State).withResultsOf t

/-- `CicOfCrc` maps each of the five constants to its variant and seed and every other value to none, where the constants
are distinct (R24, R135); where two are equal, `FIXCHK` is refused (U14). -/
def Obligations.EachCrcSelectsItsVariant : Prop :=
  (∀ c : Params, c.crcsDistinct →
      cicOfCrc c c.crc6101 = some (.v6101, 0xF8CA4DDC#32) ∧ cicOfCrc c c.crc6102 = some (.v6102, 0xF8CA4DDC#32) ∧
        cicOfCrc c c.crc6103 = some (.v6103, c.seedB) ∧ cicOfCrc c c.crc6105 = some (.v6105, c.seedC) ∧
        cicOfCrc c c.crc6106 = some (.v6106, c.seedD) ∧
        ∀ x, x ∉ [c.crc6101, c.crc6102, c.crc6103, c.crc6105, c.crc6106] → cicOfCrc c x = none) ∧
    ∀ s : State, s.startable → ¬ s.cfg.crcsDistinct → exec .fixchk s = .refused .crcsNotDistinct

/-- The table of the reflected CRC-32 at the check values that R132 gives, and the check value of R133. -/
def Obligations.CrcCheckValues : Prop :=
  crcTab 0 = 0x00000000#32 ∧ crcTab 1 = 0x77073096#32 ∧ crcTab 2 = 0xEE0E612C#32 ∧ crcTab 128 = 0xEDB88320#32 ∧
    crcTab 255 = 0x2D02EF8D#32 ∧ crc32 [] = 0#32 ∧
    crc32 [0x31, 0x32, 0x33, 0x34, 0x35, 0x36, 0x37, 0x38, 0x39] = 0xCBF43926#32

/-- One accumulation step, line by line: the carry of line 1 as an overflow of natural numbers, the rotation of line 4 as
the rotation of the low five bits, and the two forms of line 7 (R139 to R146, R153). -/
def Obligations.AccStepFollowsTheSevenLines : Prop :=
  ∀ (v : Variant) (lookup d : Word) (t : Accumulators),
    (accStep v lookup d t).t4 = (if 2 ^ 32 ≤ t.t6.toNat + d.toNat then t.t4 + 1#32 else t.t4) ∧
      (accStep v lookup d t).t6 = t.t6 + d ∧
      (accStep v lookup d t).t3 = t.t3 ^^^ d ∧
      (accStep v lookup d t).t5 = t.t5 + d.rotateLeft (d.toNat % 32) ∧
      (accStep v lookup d t).t2 =
        (if d.toNat < t.t2.toNat then t.t2 ^^^ d.rotateLeft (d.toNat % 32) else t.t2 ^^^ (t.t6 + d ^^^ d)) ∧
      (accStep v lookup d t).t1 =
        (if v = .v6105 then t.t1 + (lookup ^^^ d) else t.t1 + (t.t5 + d.rotateLeft (d.toNat % 32) ^^^ d))

/-- The accumulation (R137, R138): all six accumulators start at the seed, and 262,144 steps follow, the step at window
offset `i` on the big-endian word at `0x1000 + i`, with the lookup word of variant 6105 read at `0x750 + (i & 0xFF)`
(R146). -/
def Obligations.AccumulateFollowsTheLoop : Prop :=
  ∀ (m : Memory) (seed : Word) (v : Variant),
    ∃ t : Nat → Accumulators, t 0 = ⟨seed, seed, seed, seed, seed, seed⟩ ∧ t 262144 = accumulate m seed v ∧
      ∀ k, k < 262144 → t (k + 1) = accStep v (m.be32 (0x750 + 4 * k % 0x100)) (m.be32 (0x1000 + 4 * k)) (t k)

/-- The three combinations (R147, R148, R149). -/
def Obligations.CombineByVariant : Prop :=
  ∀ t : Accumulators,
    combine .v6103 t = ((t.t6 ^^^ t.t4) + t.t3, (t.t5 ^^^ t.t2) + t.t1) ∧
      combine .v6106 t = (t.t6 * t.t4 + t.t3, t.t5 * t.t2 + t.t1) ∧
      ∀ v, v = .v6101 ∨ v = .v6102 ∨ v = .v6105 →
        combine v t = (t.t6 ^^^ t.t4 ^^^ t.t3, t.t5 ^^^ t.t2 ^^^ t.t1)

/-- The all-zero window (R152): for a variant other than 6105 and a non-zero seed, only `t1` moves, and it ends at
`seed * (1 + 2^18)`; for variant 6102 the words are 0xF8CA4DDC and 0x303A4DDC. -/
def Obligations.ZeroWindowChecksum : Prop :=
  ∀ m : Memory, (∀ k, k < 0x100000 → m.read (0x1000 + k) = 0#8) →
    (∀ (seed : Word) (v : Variant), v ≠ .v6105 → seed ≠ 0#32 →
        accumulate m seed v = ⟨seed * (1 + 2 ^ 18), seed, seed, seed, seed, seed⟩) ∧
      combine .v6102 (accumulate m 0xF8CA4DDC#32 .v6102) = (0xF8CA4DDC#32, 0x303A4DDC#32)

/-- Dependence (R151): the CRC depends on the boot-code region only; the accumulators, and so the two words, on the window
and, for variant 6105, on the lookup region; so a second `FIXCHK` gives the same results and leaves every byte of DST as
it is. -/
def Obligations.ChecksumDependsOnItsRegions : Prop :=
  (∀ m m' : Memory, (∀ a, 0x40 ≤ a → a < 0x1000 → m.read a = m'.read a) →
      crc32 (m.bytes 0x40 4032) = crc32 (m'.bytes 0x40 4032)) ∧
    (∀ (m m' : Memory) (seed : Word) (v : Variant),
      (∀ k, k < 0x100000 → m.read (0x1000 + k) = m'.read (0x1000 + k)) →
      (v = .v6105 → ∀ k, k < 0x100 → m.read (0x750 + k) = m'.read (0x750 + k)) →
      combine v (accumulate m seed v) = combine v (accumulate m' seed v)) ∧
    ∀ s t : State, exec .fixchk s = .next t → t.status = .done →
      ∃ u, exec .fixchk t = .next u ∧ u.status = .done ∧ u.res0 = t.res0 ∧ u.res1 = t.res1 ∧ u.res2 = t.res2 ∧
        u.res3 = t.res3 ∧ ∀ a, u.dst.read a = t.dst.read a

/-! ### Faults, start, reset -/

/-- There is no return from a fault (R187): a step changes nothing (log entry 10), no operation can be started, and a reset
leaves the block idle with `ERR` 0. -/
def Obligations.FaultIsSticky : Prop :=
  ∀ s : State, s.status = .fault →
    step s = .next s ∧ hostStart s = .refused .startAfterFault ∧
      (∀ i : Instr, i.streamBytes = 0 → exec i s = .refused .startAfterFault) ∧
      (hostReset s).status = .idle ∧ (hostReset s).err = none

/-- The host side of a start (R31): while `STATUS` is `IDLE` or `DONE` the host writes `OP` and the `ARG` registers and
issues the start event, which makes `STATUS` `BUSY` and nothing else but the result registers unspecified; the next step
runs the operation that those words are. That a field of State marks the operation as not begun is the model's (log entry
8). -/
def Obligations.HostStartsAnOperation : Prop :=
  ∀ (s : State) (w : OpWords) (i : Instr), s.ready → decodeOp w = .ok i →
    ∃ u v, hostWriteOpWords w s = .next u ∧ hostStart u = .next v ∧ hostReadStatus v = 1 ∧ v.opWords = w ∧
      step v = exec i v ∧
      v = ({ s with
              op := w.op
              arg0 := w.arg0
              arg1 := w.arg1
              arg2 := w.arg2
              arg3 := w.arg3
              arg4 := w.arg4
              arg5 := w.arg5
              status := .busy
              start := true } : State).withResultsOf v

/-- A start while `STATUS` is `BUSY` is refused (R31), and so is an operation given to the engine while another runs. -/
def Obligations.StartWhileBusyIsRefused : Prop :=
  ∀ s : State, s.status = .busy →
    hostStart s = .refused .startWhileBusy ∧
      (s.start = false → ∀ i : Instr, i.streamBytes = 0 → exec i s = .refused .startWhileBusy)

/-- From the start of an operation to its end the host does not touch the memories, `OP` or an `ARG` (R55, R206): its only
move is a reset (R31, R200), so that those registers keep the operands of the operation. -/
def Obligations.HostAccessWhileBusyIsRefused : Prop :=
  ∀ s : State, s.status = .busy →
    (∀ (sel : MemSel) (a : Nat) (b : Byte), hostWriteMemory sel a b s = .refused .hostAccessWhileBusy) ∧
      (∀ (sel : MemSel) (a : Nat), hostReadMemory sel a s = .refused .hostAccessWhileBusy) ∧
      (∀ v : Word, hostWriteOp v s = .refused .hostAccessWhileBusy) ∧
      (∀ (k : Fin 6) (v : Word), hostWriteArg k v s = .refused .hostAccessWhileBusy) ∧
      ∀ t : State, HostMove s t → t = hostReset s

/-- Reset: `STATUS` is `IDLE`, `ERR` is 0, no operation is in progress (R200, R201). -/
def Obligations.ResetIsIdleWithoutFault : Prop :=
  State.reset.status = .idle ∧ State.reset.err = none ∧
    ∀ s : State, (hostReset s).status = .idle ∧ (hostReset s).errCode = 0 ∧ step (hostReset s) = .next (hostReset s)

/-- The only changes of `STATUS` (R28): `IDLE` or `DONE` to `BUSY` by the host's start, `BUSY` to `DONE` or `FAULT` by a
step, any value to `IDLE` by a reset. -/
def Obligations.StatusTransitions : Prop :=
  (∀ s t : State, step s = .next t →
      t.status = s.status ∨ (s.status = .busy ∧ (t.status = .done ∨ t.status = .fault))) ∧
    (∀ s t : State, HostMove s t →
      t.status = s.status ∨ (hostStart s = .next t ∧ s.ready ∧ t.status = .busy) ∨
        (t = hostReset s ∧ t.status = .idle)) ∧
    (∀ s t : State, hostStart s = .next t → s.ready ∧ t.status = .busy) ∧ ∀ s : State, (hostReset s).status = .idle

/-- `ERR` (R29): the six causes and their codes; a step either keeps it or ends in `FAULT` with a cause other than
`InvalidImageSize`; of the host's moves only a reset changes it, and clears it. -/
def Obligations.ErrIsWrittenOnRaiseOnly : Prop :=
  (∀ s t : State, step s = .next t →
      t.err = s.err ∨ (t.status = .fault ∧ ∃ c, c ≠ .invalidImageSize ∧ t.err = some c)) ∧
    (∀ s t : State, HostMove s t → t.err = s.err ∨ t = hostReset s) ∧
    (∀ s : State, (hostReset s).errCode = 0) ∧
    (∀ s : State, s.err = none → s.errCode = 0) ∧
    ∀ (s : State) (c : FaultCause), s.err = some c →
      s.errCode =
        match c with
        | .invalidImageSize => 1
        | .tableNotFound => 2
        | .unsupportedBootVariant => 3
        | .truncatedStream => 4
        | .outputOverrun => 5
        | .boundsError => 6

/-! ### The whole machine -/

/-- No step changes SRC, the parameters, `OP` or an `ARG` register (R11, R25, R26). -/
def Obligations.StepsNeverWriteWhatTheHostOwns : Prop :=
  ∀ s t : State, step s = .next t → t.src = s.src ∧ t.cfg = s.cfg ∧ t.opWords = s.opWords

/-- A step changes a byte of DST only where the operation it belongs to writes (R49). That a step of `LZDEC` that faults
leaves the bytes decoded before it as they are is the model's choice (log entry 16). -/
def Obligations.StepsWriteDstOnlyWhereAllowed : Prop :=
  ∀ s t : State, step s = .next t → ∀ a, ¬ s.mayWrite a → t.dst.read a = s.dst.read a

/-- The reset state meets the invariant. The values of its registers other than `STATUS` and `ERR` are the model's choice
(log entries 3 and 4). -/
def Obligations.ResetMeetsTheInvariant : Prop := State.reset.Inv

/-- Every step, and every move of the host, keeps the invariant: the memories canonical and inside their lengths, `FAULT`
exactly with a cause, the decoder's cursors and counter in range, the scan cursors aligned, only one of the five
operations ever started. The canonical form, the field `start` and the value of `i` after the loop are the model's (log
entries 4, 8 and 28). -/
def Obligations.EveryStepKeepsTheInvariant : Prop :=
  ∀ s t : State, s.Inv → step s = .next t ∨ HostMove s t → t.Inv

/-! ### Memory and the host's own primitives -/

/-- The two access primitives: `BE32` (R44) and the 32-bit `MemWrite` (R45), which changes its four bytes only. -/
def Obligations.BigEndianAccess : Prop :=
  (∀ (m : Memory) (a : Nat),
      (m.be32 a).toNat =
        (m.read a).toNat <<< 24 ||| (m.read (a + 1)).toNat <<< 16 ||| (m.read (a + 2)).toNat <<< 8 |||
          (m.read (a + 3)).toNat) ∧
    ∀ (m : Memory) (a : Nat) (v : Word),
      (m.writeBe32 a v).read a = v.extractLsb 31 24 ∧ (m.writeBe32 a v).read (a + 1) = v.extractLsb 23 16 ∧
        (m.writeBe32 a v).read (a + 2) = v.extractLsb 15 8 ∧ (m.writeBe32 a v).read (a + 3) = v.extractLsb 7 0 ∧
        (∀ b, b < a ∨ a + 4 ≤ b → (m.writeBe32 a v).read b = m.read b) ∧ (m.writeBe32 a v).be32 a = v

/-- `Normalize` (R161): an input whose first byte is 0x37 has every pair of bytes swapped, any other is unchanged; the swap
applied twice restores the bytes. The swapped input's length is even, as the documented `SRC_LEN` is; that the last clause
holds of an odd length too is the model's choice (log entry 30). -/
def Obligations.NormalizeSwapsPairs : Prop :=
  ∀ raw : List Byte,
    (raw[0]? = some 0x37#8 → raw.length % 2 = 0 →
        (normalize raw).length = raw.length ∧
          ∀ k, 2 * k + 1 < raw.length →
            (normalize raw)[2 * k]? = raw[2 * k + 1]? ∧ (normalize raw)[2 * k + 1]? = raw[2 * k]?) ∧
      (raw[0]? ≠ some 0x37#8 → normalize raw = raw) ∧ pairSwap (pairSwap raw) = raw

/-- An input whose length is not `SRC_LEN` fails with `InvalidImageSize` before anything else (R162). -/
def Obligations.WrongImageSizeIsInvalid : Prop :=
  ∀ (cfg : Params) (raw : List Byte), raw.length ≠ cfg.srcLen →
    transform cfg raw = .error (.fault .invalidImageSize)

/-- Preparing DST copies SRC and zeroes the rest (R163). -/
def Obligations.PrepareDstCopiesTheSource : Prop :=
  ∀ (s : State) (a : Nat), a < s.cfg.dstLen →
    (prepareDst s).dst.read a = if a < s.cfg.srcLen then s.src.read a else 0#8

/-- `CopyFile` copies `size` bytes of SRC to DST and changes nothing else, or raises `BoundsError` having copied nothing
(R167). With `size` 0 and a start past the end of its memory, R167 is silent: that `BoundsError` is raised there is the
model's choice (log entry 29, DESIGN CHOICE). -/
def Obligations.CopyFileCopiesOrFaults : Prop :=
  ∀ (e : TableEntry) (size : Nat) (s : State),
    (e.startPhysical.toNat + size ≤ s.cfg.srcLen → e.startVirtual.toNat + size ≤ s.cfg.dstLen →
        ∃ m, copyFile e size s = .ok { s with dst := m } ∧
          (∀ j, j < size → m.read (e.startVirtual.toNat + j) = s.src.read (e.startPhysical.toNat + j)) ∧
          ∀ a, a < e.startVirtual.toNat ∨ e.startVirtual.toNat + size ≤ a → m.read a = s.dst.read a) ∧
      (s.cfg.srcLen < e.startPhysical.toNat + size ∨ s.cfg.dstLen < e.startVirtual.toNat + size →
        copyFile e size s = .error (.fault .boundsError))

/-- The zero fill clears the bytes of DST from the table's end up to `SRC_LEN` and changes no other byte (R170). -/
def Obligations.ZeroFillClearsTheRange : Prop :=
  ∀ (s : State) (lo hi : Nat),
    (∀ a, lo ≤ a → a < hi → (zeroFill lo hi s).dst.read a = 0#8) ∧
      (∀ a, a < lo ∨ hi ≤ a → (zeroFill lo hi s).dst.read a = s.dst.read a) ∧
      zeroFill lo hi s = { s with dst := (zeroFill lo hi s).dst }
end

