-- ==== Sys2Proof/Laws/Decode.lean ====
section
/-! SUPPORT. The bit fields of a back-reference: putting the fields into the two payload bytes and taking them out again
are inverse, and the distance is the number that spec 30_encoding.md R66 computes. -/

namespace Sys2Proof

theorem refByte0_getLsbD (n : BitVec 4) (d : BitVec 12) (i : Nat) :
    (refByte0 n d).getLsbD i = if i < 4 then d.getLsbD (8 + i) else n.getLsbD (i - 4) := by
  refine (BitVec.getLsbD_append (x := n) (y := d.extractLsb' 8 4)).trans ?_
  by_cases h : i < 4 <;> simp [h]

theorem refByte1_getLsbD (d : BitVec 12) (i : Nat) (hi : i < 8) : (refByte1 d).getLsbD i = d.getLsbD i := by
  simp [refByte1, hi]

theorem distanceField_getLsbD (b0 b1 : Byte) (i : Nat) :
    (distanceField b0 b1).getLsbD i =
      if i < 8 then b1.getLsbD i else decide (i - 8 < 4) && b0.getLsbD (i - 8) := by
  refine (BitVec.getLsbD_append (x := b0.extractLsb' 0 4) (y := b1)).trans ?_
  by_cases h : i < 8 <;> simp [h]

theorem lengthNibble_getLsbD (b0 : Byte) (i : Nat) (hi : i < 4) : (lengthNibble b0).getLsbD i = b0.getLsbD (4 + i) := by
  simp [lengthNibble, hi]

/-- The length nibble of the encoded byte 0. -/
@[simp] theorem lengthNibble_refByte0 (n : BitVec 4) (d : BitVec 12) : lengthNibble (refByte0 n d) = n := by
  apply BitVec.eq_of_getLsbD_eq
  intro i hi
  rw [lengthNibble_getLsbD _ _ hi, refByte0_getLsbD, if_neg (by omega), Nat.add_sub_cancel_left]

/-- The distance of the encoded bytes. -/
@[simp] theorem distanceField_refBytes (n : BitVec 4) (d : BitVec 12) :
    distanceField (refByte0 n d) (refByte1 d) = d := by
  apply BitVec.eq_of_getLsbD_eq
  intro i hi
  rw [distanceField_getLsbD]
  by_cases h : i < 8
  · rw [if_pos h, refByte1_getLsbD _ _ h]
  · have h4 : i - 8 < 4 := by omega
    rw [if_neg h, refByte0_getLsbD, if_pos h4]
    simp only [h4, decide_true, Bool.true_and]
    congr 1
    omega

/-- Byte 0 is made of its own fields. -/
@[simp] theorem refByte0_of_fields (b0 b1 : Byte) : refByte0 (lengthNibble b0) (distanceField b0 b1) = b0 := by
  apply BitVec.eq_of_getLsbD_eq
  intro i hi
  rw [refByte0_getLsbD]
  by_cases h : i < 4
  · rw [if_pos h, distanceField_getLsbD, if_neg (by omega), Nat.add_sub_cancel_left]
    simp [h]
  · rw [if_neg h, lengthNibble_getLsbD _ _ (by omega)]
    congr 1
    omega

/-- Byte 1 is the low part of the distance. -/
@[simp] theorem refByte1_of_fields (b0 b1 : Byte) : refByte1 (distanceField b0 b1) = b1 := by
  apply BitVec.eq_of_getLsbD_eq
  intro i hi
  rw [refByte1_getLsbD _ _ hi, distanceField_getLsbD, if_pos hi]

/-- `n = b0 >> 4` (R67). -/
theorem lengthNibble_toNat (b0 : Byte) : (lengthNibble b0).toNat = b0.toNat >>> 4 := by
  have := b0.isLt
  rw [lengthNibble, BitVec.extractLsb'_toNat, Nat.shiftRight_eq_div_pow]
  omega

/-- `distance = ((b0 & 0x0F) << 8) | b1` (R66). -/
theorem distanceField_toNat (b0 b1 : Byte) : (distanceField b0 b1).toNat = (b0.toNat &&& 0x0F) <<< 8 ||| b1.toNat := by
  refine (BitVec.toNat_append (b0.extractLsb' 0 4) b1).trans ?_
  rw [BitVec.extractLsb'_toNat, Nat.shiftRight_zero, ← Nat.and_two_pow_sub_one_eq_mod]

end Sys2Proof
end

