-- ==== Sys2Proof/Laws/Assembler.lean ====
section
/-! SUPPORT. The flags of a group as its control byte is shifted, and the reading of one command back. -/

namespace Sys2Proof.Machine

/-- Bit 7 is the flag of the first command. -/
@[simp] theorem groupFlags_msb (f : Bool) (fs : List Bool) : (groupFlags (f :: fs)).msb = f := by
  cases f <;> simp [groupFlags, BitVec.msb_eq_getLsbD_last]

/-- Unused low bits are 0. -/
theorem groupFlags_low (fs : List Bool) (k : Nat) (h : k + fs.length < 8) : (groupFlags fs).getLsbD k = false := by
  induction fs generalizing k with
  | nil => simp [groupFlags]
  | cons f fs ih =>
    simp only [List.length_cons] at h
    have hk : (0x80#8).getLsbD k = false := by
      have : k < 7 := by omega
      interval_cases k <;> rfl
    cases f <;> simp [groupFlags, hk, ih (1 + k) (by omega)]

/-- The control shift leaves the flags of the commands after the first. -/
theorem groupFlags_shift (f : Bool) (fs : List Bool) (h : fs.length ≤ 7) :
    groupFlags (f :: fs) <<< 1 = groupFlags fs := by
  apply BitVec.eq_of_getLsbD_eq
  intro i hi
  rw [BitVec.getLsbD_shiftLeft]
  rcases i with _ | i
  · have := groupFlags_low fs 0 (by omega)
    simpa using this.symm
  · have hk : (0x80#8).getLsbD i = false := by
      have : i < 7 := by omega
      interval_cases i <;> rfl
    cases f <;> simp [groupFlags, hk, hi, Nat.add_comm]

/-- The decoder reads a command back from its flag and payload. -/
theorem decodeCommand_commandParts (i : Instr) (f : Bool) (p tail : List Byte) (hw : i.wellFormed = true)
    (h : commandParts i = some (f, p)) : decodeCommand f (p ++ tail) = .ok (i, tail) := by
  cases i with
  | lit v => simp [commandParts, encode] at h; obtain ⟨rfl, rfl⟩ := h; rfl
  | refs n d =>
    simp [commandParts, encode] at h; obtain ⟨rfl, rfl⟩ := h
    have : n ≠ 0#4 := by simpa [Instr.wellFormed] using hw
    simp [decodeCommand, decodeBackRef, this]
  | refl d e => simp [commandParts, encode] at h; obtain ⟨rfl, rfl⟩ := h; simp [decodeCommand, decodeBackRef]
  | tdec sel b i => cases sel <;> simp [commandParts, encode] at h
  | _ => simp [commandParts, encode] at h

end Sys2Proof.Machine
end

