-- ==== Sys2Proof/Laws/Memory.lean ====
section
/-! SUPPORT. The laws of memory: what a read gives after a write, and that every memory operation keeps the canonical
form and the bounds. They hold for every memory, canonical or not, unless they say otherwise. -/

namespace Sys2Proof.Machine

/-! ### Reads after writes -/

@[simp] theorem Memory.read_nil (a : Nat) : Memory.read [] a = Memory.unlisted := rfl

theorem Memory.read_cons (k : Nat) (v : Byte) (m : Memory) (a : Nat) :
    Memory.read ((k, v) :: m) a = if a = k then v else Memory.read m a := rfl

theorem Memory.read_put (m : Memory) (a b : Nat) (v : Byte) :
    (Memory.put m a v).read b = if b = a then v else m.read b := by
  induction m with
  | nil => simp [Memory.put, Memory.read]
  | cons c m ih =>
    obtain ⟨k, w⟩ := c
    simp only [Memory.put]
    split
    · simp only [Memory.read_cons]
    · split
      · subst a
        simp only [Memory.read_cons]
        split <;> rfl
      · simp only [Memory.read_cons, ih]
        by_cases hb : b = k
        · subst hb
          simp_all [eq_comm]
        · simp [hb]

theorem Memory.read_drop (m : Memory) (a b : Nat) :
    (Memory.drop m a).read b = if b = a then Memory.unlisted else m.read b := by
  induction m with
  | nil => simp [Memory.drop, Memory.read]
  | cons c m ih =>
    obtain ⟨k, w⟩ := c
    simp only [Memory.drop, List.filter_cons] at ih ⊢
    by_cases hk : k = a
    · subst hk
      simp only [bne_self_eq_false, Bool.false_eq_true, if_false, ih, Memory.read_cons]
      split <;> rfl
    · simp only [bne_iff_ne, ne_eq, hk, not_false_eq_true, if_true, Memory.read_cons, ih]
      by_cases hb : b = k
      · subst hb
        simp [hk]
      · simp [hb]

/-- A read after a write gives the byte written at that address and what was there at every other. -/
theorem Memory.read_write (m : Memory) (a b : Nat) (v : Byte) :
    (m.write a v).read b = if b = a then v else m.read b := by
  unfold Memory.write
  split
  · next h => rw [Memory.read_drop, h]
  · exact Memory.read_put m a b v

@[simp] theorem Memory.read_write_same (m : Memory) (a : Nat) (v : Byte) : (m.write a v).read a = v := by
  simp [Memory.read_write]

theorem Memory.read_write_ne (m : Memory) {a b : Nat} (v : Byte) (h : b ≠ a) : (m.write a v).read b = m.read b := by
  simp [Memory.read_write, h]

/-- What every address reads as after a 32-bit write. -/
theorem Memory.read_writeBe32 (m : Memory) (a b : Nat) (v : Word) :
    (m.writeBe32 a v).read b =
      if b = a then wordByte v 0
      else if b = a + 1 then wordByte v 1
      else if b = a + 2 then wordByte v 2
      else if b = a + 3 then wordByte v 3
      else m.read b := by
  simp only [Memory.writeBe32, Memory.read_write]
  split_ifs <;> first | rfl | omega

theorem Memory.read_writeBe32_outside (m : Memory) {a b : Nat} (v : Word) (h : b < a ∨ a + 4 ≤ b) :
    (m.writeBe32 a v).read b = m.read b := by
  rw [Memory.read_writeBe32]
  split_ifs <;> first | rfl | omega

/-- The four bytes of a word, put together again, are the word. -/
theorem wordByte_append (v : Word) : wordByte v 0 ++ wordByte v 1 ++ wordByte v 2 ++ wordByte v 3 = v := by
  apply BitVec.eq_of_getLsbD_eq
  intro i hi
  simp only [wordByte, BitVec.getLsbD_append, BitVec.getLsbD_extractLsb']
  split_ifs with h1 h2 h3
  · simp; intro _; omega
  · have : i - 8 < 8 := by omega
    simp [this]; congr 1; omega
  · have : i - 8 - 8 < 8 := by omega
    simp [this]; congr 1; omega
  · have : i - 8 - 8 - 8 < 8 := by omega
    simp [this]; congr 1; omega

/-- The bytes of a big-endian word read from memory are the bytes there. -/
theorem wordByte_append4 (b0 b1 b2 b3 : Byte) :
    wordByte (b0 ++ b1 ++ b2 ++ b3) 0 = b0 ∧ wordByte (b0 ++ b1 ++ b2 ++ b3) 1 = b1 ∧
      wordByte (b0 ++ b1 ++ b2 ++ b3) 2 = b2 ∧ wordByte (b0 ++ b1 ++ b2 ++ b3) 3 = b3 := by
  refine ⟨?_, ?_, ?_, ?_⟩ <;>
    · apply BitVec.eq_of_getLsbD_eq
      intro i hi
      simp only [wordByte, BitVec.getLsbD_extractLsb', BitVec.getLsbD_append, hi, decide_true, Bool.true_and]
      split_ifs <;> first | omega | (congr 1; omega)

/-- A 32-bit read depends on its four bytes only. -/
theorem Memory.be32_congr {m n : Memory} {a b : Nat} (h : ∀ k, k < 4 → m.read (a + k) = n.read (b + k)) :
    m.be32 a = n.be32 b := by
  have h0 : m.read a = n.read b := h 0 (by omega)
  have h1 := h 1 (by omega)
  have h2 := h 2 (by omega)
  have h3 := h 3 (by omega)
  simp only [Memory.be32, h0, h1, h2, h3]

/-- A list of bytes read from memory depends on those bytes only. -/
theorem Memory.bytes_congr {m n : Memory} {a len : Nat} (h : ∀ k, k < len → m.read (a + k) = n.read (a + k)) :
    m.bytes a len = n.bytes a len := by
  simp only [Memory.bytes]
  apply List.map_congr_left
  intro k hk
  exact h k (List.mem_range.mp hk)

/-! ### The canonical form -/

theorem Memory.wf_nil : Memory.wf [] := ⟨List.Pairwise.nil, fun _ hc => absurd hc List.not_mem_nil⟩

theorem Memory.mem_put {m : Memory} {a : Nat} {v : Byte} {c : Host.Cell} (h : c ∈ Memory.put m a v) :
    c = (a, v) ∨ c ∈ m := by
  induction m with
  | nil => simpa [Memory.put] using h
  | cons e m ih =>
    obtain ⟨k, w⟩ := e
    simp only [Memory.put] at h
    split at h
    · simpa using h
    · split at h
      · rcases List.mem_cons.mp h with h | h <;> simp [h]
      · rcases List.mem_cons.mp h with h | h
        · simp [h]
        · rcases ih h with h | h <;> simp [h]

theorem Memory.put_sorted {m : Memory} (a : Nat) (v : Byte) (h : m.Pairwise (fun c e => c.1 < e.1)) :
    (Memory.put m a v).Pairwise (fun c e => c.1 < e.1) := by
  induction m with
  | nil => simp [Memory.put]
  | cons e m ih =>
    obtain ⟨k, w⟩ := e
    rw [List.pairwise_cons] at h
    simp only [Memory.put]
    split
    · next hlt =>
      rw [List.pairwise_cons]
      refine ⟨?_, List.pairwise_cons.mpr h⟩
      intro c hc
      rcases List.mem_cons.mp hc with rfl | hc
      · exact hlt
      · exact Nat.lt_trans hlt (h.1 c hc)
    · split
      · next heq => subst heq; exact List.pairwise_cons.mpr h
      · rw [List.pairwise_cons]
        refine ⟨?_, ih h.2⟩
        intro c hc
        rcases Memory.mem_put hc with rfl | hc
        · simp only; omega
        · exact h.1 c hc

/-- A write keeps the canonical form. -/
theorem Memory.write_wf {m : Memory} (a : Nat) (v : Byte) (h : m.wf) : (m.write a v).wf := by
  unfold Memory.write
  split
  · exact ⟨h.1.filter _, fun c hc => h.2 c (List.mem_filter.mp hc).1⟩
  · next hv =>
    refine ⟨Memory.put_sorted a v h.1, fun c hc => ?_⟩
    rcases Memory.mem_put hc with rfl | hc
    · exact hv
    · exact h.2 c hc

theorem Memory.writeBe32_wf {m : Memory} (a : Nat) (v : Word) (h : m.wf) : (m.writeBe32 a v).wf :=
  Memory.write_wf _ _ (Memory.write_wf _ _ (Memory.write_wf _ _ (Memory.write_wf _ _ h)))

/-- A write inside the memory leaves nothing outside it. -/
theorem Memory.write_inside {m : Memory} {len : Nat} (a : Nat) (v : Byte) (ha : a < len) (h : m.inside len) :
    (m.write a v).inside len := by
  unfold Memory.write
  split
  · exact fun c hc => h c (List.mem_filter.mp hc).1
  · intro c hc
    rcases Memory.mem_put hc with rfl | hc
    · exact ha
    · exact h c hc

theorem Memory.writeBe32_inside {m : Memory} {len : Nat} (a : Nat) (v : Word) (ha : a + 4 ≤ len) (h : m.inside len) :
    (m.writeBe32 a v).inside len :=
  Memory.write_inside _ _ (by omega) <| Memory.write_inside _ _ (by omega) <|
    Memory.write_inside _ _ (by omega) <| Memory.write_inside _ _ (by omega) h

/-- Leaving out cells keeps the canonical form. -/
theorem Memory.filter_wf {m : Memory} (keep : Host.Cell → Bool) (h : m.wf) : Memory.wf (m.filter keep) :=
  ⟨h.1.filter _, fun c hc => h.2 c (List.mem_filter.mp hc).1⟩

theorem Memory.filter_inside {m : Memory} {len : Nat} (keep : Host.Cell → Bool) (h : m.inside len) :
    Memory.inside (m.filter keep) len := fun c hc => h c (List.mem_filter.mp hc).1

/-- The address of a listed cell reads as its byte, in a canonical memory. -/
theorem Memory.read_of_mem {m : Memory} (h : m.wf) {c : Host.Cell} (hc : c ∈ m) : m.read c.1 = c.2 := by
  induction m with
  | nil => simp at hc
  | cons e m ih =>
    obtain ⟨k, w⟩ := e
    obtain ⟨hs, hv⟩ := h
    rw [List.pairwise_cons] at hs
    rcases List.mem_cons.mp hc with rfl | hc
    · simp [Memory.read_cons]
    · have hlt := hs.1 c hc
      rw [Memory.read_cons, if_neg (by simp only at hlt; omega)]
      exact ih ⟨hs.2, fun c hc => hv c (List.mem_cons_of_mem _ hc)⟩ hc

/-- An address at which nothing is listed reads as the unlisted byte. -/
theorem Memory.read_unlisted {m : Memory} {a : Nat} (h : ∀ c ∈ m, c.1 ≠ a) : m.read a = Memory.unlisted := by
  induction m with
  | nil => rfl
  | cons e m ih =>
    obtain ⟨k, w⟩ := e
    rw [Memory.read_cons, if_neg (fun hk => h (k, w) (by simp) hk.symm)]
    exact ih fun c hc => h c (List.mem_cons_of_mem _ hc)

/-- Canonical memories that read alike are equal. -/
theorem Memory.ext_of_read {m n : Memory} (hm : m.wf) (hn : n.wf) (h : ∀ a, m.read a = n.read a) : m = n := by
  induction m generalizing n with
  | nil =>
    cases n with
    | nil => rfl
    | cons e n =>
      have := Memory.read_of_mem hn (c := e) (by simp)
      rw [← h, Memory.read_nil] at this
      exact absurd this.symm (hn.2 e (by simp))
  | cons c m ih =>
    cases n with
    | nil =>
      have := Memory.read_of_mem hm (c := c) (by simp)
      rw [h, Memory.read_nil] at this
      exact absurd this.symm (hm.2 c (by simp))
    | cons e n =>
      have below : ∀ {x : Host.Cell} {l : Memory}, Memory.wf (x :: l) → ∀ {a : Nat}, a < x.1 →
          Memory.read (x :: l) a = Memory.unlisted := by
        intro x l hw a ha
        have hs := List.pairwise_cons.mp hw.1
        refine Memory.read_unlisted fun y hy => ?_
        rcases List.mem_cons.mp hy with rfl | hy
        · omega
        · have := hs.1 y hy; omega
      have hkey : c.1 = e.1 := by
        rcases Nat.lt_trichotomy c.1 e.1 with hlt | heq | hgt
        · have h1 := Memory.read_of_mem hm (c := c) (by simp)
          rw [h, below hn hlt] at h1
          exact absurd h1.symm (hm.2 c (by simp))
        · exact heq
        · have h1 := Memory.read_of_mem hn (c := e) (by simp)
          rw [← h, below hm hgt] at h1
          exact absurd h1.symm (hn.2 e (by simp))
      have hval : c.2 = e.2 := by
        rw [← Memory.read_of_mem hm (c := c) (by simp), ← Memory.read_of_mem hn (c := e) (by simp), h, hkey]
      have hce : c = e := Prod.ext hkey hval
      subst hce
      congr 1
      have hm' := List.pairwise_cons.mp hm.1
      have hn' := List.pairwise_cons.mp hn.1
      refine ih ⟨hm'.2, fun x hx => hm.2 x (List.mem_cons_of_mem _ hx)⟩
        ⟨hn'.2, fun x hx => hn.2 x (List.mem_cons_of_mem _ hx)⟩ fun a => ?_
      by_cases ha : a = c.1
      · subst ha
        rw [Memory.read_unlisted fun y hy => ?_, Memory.read_unlisted fun y hy => ?_]
        · have := hn'.1 y hy; omega
        · have := hm'.1 y hy; omega
      · have := h a
        rwa [Memory.read_cons c.1 c.2 m, Memory.read_cons c.1 c.2 n, if_neg ha, if_neg ha] at this

/-! ### Memories made from bytes -/

theorem Memory.ofBytes_lower (bs : List Byte) (a : Nat) {c : Host.Cell} (hc : c ∈ Memory.ofBytes a bs) :
    a ≤ c.1 ∧ c.1 < a + bs.length ∧ c.2 ≠ Memory.unlisted := by
  induction bs generalizing a with
  | nil => simp [Memory.ofBytes] at hc
  | cons v bs ih =>
    simp only [Memory.ofBytes] at hc
    split at hc
    · have := ih (a + 1) hc
      simp only [List.length_cons]
      exact ⟨by omega, by omega, this.2.2⟩
    · next hv =>
      rcases List.mem_cons.mp hc with rfl | hc
      · simp only [List.length_cons]
        exact ⟨by omega, by omega, hv⟩
      · have := ih (a + 1) hc
        simp only [List.length_cons]
        exact ⟨by omega, by omega, this.2.2⟩

/-- The memory made from a list of bytes is canonical. -/
theorem Memory.ofBytes_wf (bs : List Byte) (a : Nat) : (Memory.ofBytes a bs).wf := by
  refine ⟨?_, fun c hc => (Memory.ofBytes_lower bs a hc).2.2⟩
  induction bs generalizing a with
  | nil => simp [Memory.ofBytes]
  | cons v bs ih =>
    simp only [Memory.ofBytes]
    split
    · exact ih _
    · rw [List.pairwise_cons]
      refine ⟨fun c hc => ?_, ih _⟩
      have := (Memory.ofBytes_lower bs (a + 1) hc).1
      simp only; omega

/-- It reads as those bytes. -/
theorem Memory.read_ofBytes (bs : List Byte) (a k : Nat) (hk : k < bs.length) :
    (Memory.ofBytes a bs).read (a + k) = bs[k] := by
  induction bs generalizing a k with
  | nil => simp at hk
  | cons v bs ih =>
    have hnot : ∀ c ∈ Memory.ofBytes (a + 1) bs, c.1 ≠ a := fun c hc => by
      have := (Memory.ofBytes_lower bs (a + 1) hc).1; omega
    simp only [Memory.ofBytes]
    cases k with
    | zero =>
      split
      · next hv => exact (Memory.read_unlisted hnot).trans hv.symm
      · simp [Memory.read_cons]
    | succ k =>
      have hk' : k < bs.length := by simpa using hk
      have := ih (a + 1) k hk'
      rw [show a + 1 + k = a + (k + 1) by omega] at this
      split
      · simpa using this
      · rw [Memory.read_cons, if_neg (by omega)]
        simpa using this

end Sys2Proof.Machine
end

