-- ==== Sys2Proof/Laws/State.lean ====
section
/-! SUPPORT. One lemma per field for each named update of the state (Machine/Ops.lean, Safety.lean), so that no proof unfolds an
update. -/

namespace Sys2Proof.Machine

/-! ### `State.freshResults` -/

@[simp] theorem State.freshResults_cfg (s : State) : s.freshResults.cfg = s.cfg := rfl
@[simp] theorem State.freshResults_src (s : State) : s.freshResults.src = s.src := rfl
@[simp] theorem State.freshResults_dst (s : State) : s.freshResults.dst = s.dst := rfl
@[simp] theorem State.freshResults_sp (s : State) : s.freshResults.sp = s.sp := rfl
@[simp] theorem State.freshResults_dp (s : State) : s.freshResults.dp = s.dp := rfl
@[simp] theorem State.freshResults_ctl (s : State) : s.freshResults.ctl = s.ctl := rfl
@[simp] theorem State.freshResults_nbits (s : State) : s.freshResults.nbits = s.nbits := rfl
@[simp] theorem State.freshResults_srcBase (s : State) : s.freshResults.srcBase = s.srcBase := rfl
@[simp] theorem State.freshResults_srcLimit (s : State) : s.freshResults.srcLimit = s.srcLimit := rfl
@[simp] theorem State.freshResults_dstBase (s : State) : s.freshResults.dstBase = s.dstBase := rfl
@[simp] theorem State.freshResults_size (s : State) : s.freshResults.size = s.size := rfl
@[simp] theorem State.freshResults_o (s : State) : s.freshResults.o = s.o := rfl
@[simp] theorem State.freshResults_p (s : State) : s.freshResults.p = s.p := rfl
@[simp] theorem State.freshResults_phase (s : State) : s.freshResults.phase = s.phase := rfl
@[simp] theorem State.freshResults_crc (s : State) : s.freshResults.crc = s.crc := rfl
@[simp] theorem State.freshResults_variant (s : State) : s.freshResults.variant = s.variant := rfl
@[simp] theorem State.freshResults_seed (s : State) : s.freshResults.seed = s.seed := rfl
@[simp] theorem State.freshResults_acc (s : State) : s.freshResults.acc = s.acc := rfl
@[simp] theorem State.freshResults_i (s : State) : s.freshResults.i = s.i := rfl
@[simp] theorem State.freshResults_d (s : State) : s.freshResults.d = s.d := rfl
@[simp] theorem State.freshResults_r (s : State) : s.freshResults.r = s.r := rfl
@[simp] theorem State.freshResults_word0 (s : State) : s.freshResults.word0 = s.word0 := rfl
@[simp] theorem State.freshResults_word1 (s : State) : s.freshResults.word1 = s.word1 := rfl
@[simp] theorem State.freshResults_op (s : State) : s.freshResults.op = s.op := rfl
@[simp] theorem State.freshResults_arg0 (s : State) : s.freshResults.arg0 = s.arg0 := rfl
@[simp] theorem State.freshResults_arg1 (s : State) : s.freshResults.arg1 = s.arg1 := rfl
@[simp] theorem State.freshResults_arg2 (s : State) : s.freshResults.arg2 = s.arg2 := rfl
@[simp] theorem State.freshResults_arg3 (s : State) : s.freshResults.arg3 = s.arg3 := rfl
@[simp] theorem State.freshResults_arg4 (s : State) : s.freshResults.arg4 = s.arg4 := rfl
@[simp] theorem State.freshResults_arg5 (s : State) : s.freshResults.arg5 = s.arg5 := rfl
@[simp] theorem State.freshResults_res0 (s : State) : s.freshResults.res0 = Config.freeWord s.free := rfl
@[simp] theorem State.freshResults_res1 (s : State) : s.freshResults.res1 = Config.freeWord (s.free + 1) := rfl
@[simp] theorem State.freshResults_res2 (s : State) : s.freshResults.res2 = Config.freeWord (s.free + 2) := rfl
@[simp] theorem State.freshResults_res3 (s : State) : s.freshResults.res3 = Config.freeWord (s.free + 3) := rfl
@[simp] theorem State.freshResults_status (s : State) : s.freshResults.status = s.status := rfl
@[simp] theorem State.freshResults_err (s : State) : s.freshResults.err = s.err := rfl
@[simp] theorem State.freshResults_info (s : State) : s.freshResults.info = s.info := rfl
@[simp] theorem State.freshResults_start (s : State) : s.freshResults.start = s.start := rfl
@[simp] theorem State.freshResults_free (s : State) : s.freshResults.free = s.free + 4 := rfl

/-! ### `State.complete` -/

@[simp] theorem State.complete_cfg (s : State) : s.complete.cfg = s.cfg := rfl
@[simp] theorem State.complete_src (s : State) : s.complete.src = s.src := rfl
@[simp] theorem State.complete_dst (s : State) : s.complete.dst = s.dst := rfl
@[simp] theorem State.complete_sp (s : State) : s.complete.sp = s.sp := rfl
@[simp] theorem State.complete_dp (s : State) : s.complete.dp = s.dp := rfl
@[simp] theorem State.complete_ctl (s : State) : s.complete.ctl = s.ctl := rfl
@[simp] theorem State.complete_nbits (s : State) : s.complete.nbits = s.nbits := rfl
@[simp] theorem State.complete_srcBase (s : State) : s.complete.srcBase = s.srcBase := rfl
@[simp] theorem State.complete_srcLimit (s : State) : s.complete.srcLimit = s.srcLimit := rfl
@[simp] theorem State.complete_dstBase (s : State) : s.complete.dstBase = s.dstBase := rfl
@[simp] theorem State.complete_size (s : State) : s.complete.size = s.size := rfl
@[simp] theorem State.complete_o (s : State) : s.complete.o = s.o := rfl
@[simp] theorem State.complete_p (s : State) : s.complete.p = s.p := rfl
@[simp] theorem State.complete_phase (s : State) : s.complete.phase = s.phase := rfl
@[simp] theorem State.complete_crc (s : State) : s.complete.crc = s.crc := rfl
@[simp] theorem State.complete_variant (s : State) : s.complete.variant = s.variant := rfl
@[simp] theorem State.complete_seed (s : State) : s.complete.seed = s.seed := rfl
@[simp] theorem State.complete_acc (s : State) : s.complete.acc = s.acc := rfl
@[simp] theorem State.complete_i (s : State) : s.complete.i = s.i := rfl
@[simp] theorem State.complete_d (s : State) : s.complete.d = s.d := rfl
@[simp] theorem State.complete_r (s : State) : s.complete.r = s.r := rfl
@[simp] theorem State.complete_word0 (s : State) : s.complete.word0 = s.word0 := rfl
@[simp] theorem State.complete_word1 (s : State) : s.complete.word1 = s.word1 := rfl
@[simp] theorem State.complete_op (s : State) : s.complete.op = s.op := rfl
@[simp] theorem State.complete_arg0 (s : State) : s.complete.arg0 = s.arg0 := rfl
@[simp] theorem State.complete_arg1 (s : State) : s.complete.arg1 = s.arg1 := rfl
@[simp] theorem State.complete_arg2 (s : State) : s.complete.arg2 = s.arg2 := rfl
@[simp] theorem State.complete_arg3 (s : State) : s.complete.arg3 = s.arg3 := rfl
@[simp] theorem State.complete_arg4 (s : State) : s.complete.arg4 = s.arg4 := rfl
@[simp] theorem State.complete_arg5 (s : State) : s.complete.arg5 = s.arg5 := rfl
@[simp] theorem State.complete_res0 (s : State) : s.complete.res0 = Config.freeWord s.free := rfl
@[simp] theorem State.complete_res1 (s : State) : s.complete.res1 = Config.freeWord (s.free + 1) := rfl
@[simp] theorem State.complete_res2 (s : State) : s.complete.res2 = Config.freeWord (s.free + 2) := rfl
@[simp] theorem State.complete_res3 (s : State) : s.complete.res3 = Config.freeWord (s.free + 3) := rfl
@[simp] theorem State.complete_status (s : State) : s.complete.status = .done := rfl
@[simp] theorem State.complete_err (s : State) : s.complete.err = s.err := rfl
@[simp] theorem State.complete_info (s : State) : s.complete.info = s.info := rfl
@[simp] theorem State.complete_start (s : State) : s.complete.start = s.start := rfl
@[simp] theorem State.complete_free (s : State) : s.complete.free = s.free + 4 := rfl

/-! ### `State.setRes0` -/

@[simp] theorem State.setRes0_cfg (s : State) (n : Nat) : (s.setRes0 n).cfg = s.cfg := rfl
@[simp] theorem State.setRes0_src (s : State) (n : Nat) : (s.setRes0 n).src = s.src := rfl
@[simp] theorem State.setRes0_dst (s : State) (n : Nat) : (s.setRes0 n).dst = s.dst := rfl
@[simp] theorem State.setRes0_sp (s : State) (n : Nat) : (s.setRes0 n).sp = s.sp := rfl
@[simp] theorem State.setRes0_dp (s : State) (n : Nat) : (s.setRes0 n).dp = s.dp := rfl
@[simp] theorem State.setRes0_ctl (s : State) (n : Nat) : (s.setRes0 n).ctl = s.ctl := rfl
@[simp] theorem State.setRes0_nbits (s : State) (n : Nat) : (s.setRes0 n).nbits = s.nbits := rfl
@[simp] theorem State.setRes0_srcBase (s : State) (n : Nat) : (s.setRes0 n).srcBase = s.srcBase := rfl
@[simp] theorem State.setRes0_srcLimit (s : State) (n : Nat) : (s.setRes0 n).srcLimit = s.srcLimit := rfl
@[simp] theorem State.setRes0_dstBase (s : State) (n : Nat) : (s.setRes0 n).dstBase = s.dstBase := rfl
@[simp] theorem State.setRes0_size (s : State) (n : Nat) : (s.setRes0 n).size = s.size := rfl
@[simp] theorem State.setRes0_o (s : State) (n : Nat) : (s.setRes0 n).o = s.o := rfl
@[simp] theorem State.setRes0_p (s : State) (n : Nat) : (s.setRes0 n).p = s.p := rfl
@[simp] theorem State.setRes0_phase (s : State) (n : Nat) : (s.setRes0 n).phase = s.phase := rfl
@[simp] theorem State.setRes0_crc (s : State) (n : Nat) : (s.setRes0 n).crc = s.crc := rfl
@[simp] theorem State.setRes0_variant (s : State) (n : Nat) : (s.setRes0 n).variant = s.variant := rfl
@[simp] theorem State.setRes0_seed (s : State) (n : Nat) : (s.setRes0 n).seed = s.seed := rfl
@[simp] theorem State.setRes0_acc (s : State) (n : Nat) : (s.setRes0 n).acc = s.acc := rfl
@[simp] theorem State.setRes0_i (s : State) (n : Nat) : (s.setRes0 n).i = s.i := rfl
@[simp] theorem State.setRes0_d (s : State) (n : Nat) : (s.setRes0 n).d = s.d := rfl
@[simp] theorem State.setRes0_r (s : State) (n : Nat) : (s.setRes0 n).r = s.r := rfl
@[simp] theorem State.setRes0_word0 (s : State) (n : Nat) : (s.setRes0 n).word0 = s.word0 := rfl
@[simp] theorem State.setRes0_word1 (s : State) (n : Nat) : (s.setRes0 n).word1 = s.word1 := rfl
@[simp] theorem State.setRes0_op (s : State) (n : Nat) : (s.setRes0 n).op = s.op := rfl
@[simp] theorem State.setRes0_arg0 (s : State) (n : Nat) : (s.setRes0 n).arg0 = s.arg0 := rfl
@[simp] theorem State.setRes0_arg1 (s : State) (n : Nat) : (s.setRes0 n).arg1 = s.arg1 := rfl
@[simp] theorem State.setRes0_arg2 (s : State) (n : Nat) : (s.setRes0 n).arg2 = s.arg2 := rfl
@[simp] theorem State.setRes0_arg3 (s : State) (n : Nat) : (s.setRes0 n).arg3 = s.arg3 := rfl
@[simp] theorem State.setRes0_arg4 (s : State) (n : Nat) : (s.setRes0 n).arg4 = s.arg4 := rfl
@[simp] theorem State.setRes0_arg5 (s : State) (n : Nat) : (s.setRes0 n).arg5 = s.arg5 := rfl
@[simp] theorem State.setRes0_res0 (s : State) (n : Nat) : (s.setRes0 n).res0 = if n < 2 ^ 32 then BitVec.ofNat 32 n else s.res0 := rfl
@[simp] theorem State.setRes0_res1 (s : State) (n : Nat) : (s.setRes0 n).res1 = s.res1 := rfl
@[simp] theorem State.setRes0_res2 (s : State) (n : Nat) : (s.setRes0 n).res2 = s.res2 := rfl
@[simp] theorem State.setRes0_res3 (s : State) (n : Nat) : (s.setRes0 n).res3 = s.res3 := rfl
@[simp] theorem State.setRes0_status (s : State) (n : Nat) : (s.setRes0 n).status = s.status := rfl
@[simp] theorem State.setRes0_err (s : State) (n : Nat) : (s.setRes0 n).err = s.err := rfl
@[simp] theorem State.setRes0_info (s : State) (n : Nat) : (s.setRes0 n).info = s.info := rfl
@[simp] theorem State.setRes0_start (s : State) (n : Nat) : (s.setRes0 n).start = s.start := rfl
@[simp] theorem State.setRes0_free (s : State) (n : Nat) : (s.setRes0 n).free = s.free := rfl

/-! ### `State.raise` -/

@[simp] theorem State.raise_cfg (s : State) (c : FaultCause) (n : Nat) : (s.raise c n).cfg = s.cfg := rfl
@[simp] theorem State.raise_src (s : State) (c : FaultCause) (n : Nat) : (s.raise c n).src = s.src := rfl
@[simp] theorem State.raise_dst (s : State) (c : FaultCause) (n : Nat) : (s.raise c n).dst = s.dst := rfl
@[simp] theorem State.raise_sp (s : State) (c : FaultCause) (n : Nat) : (s.raise c n).sp = s.sp := rfl
@[simp] theorem State.raise_dp (s : State) (c : FaultCause) (n : Nat) : (s.raise c n).dp = s.dp := rfl
@[simp] theorem State.raise_ctl (s : State) (c : FaultCause) (n : Nat) : (s.raise c n).ctl = s.ctl := rfl
@[simp] theorem State.raise_nbits (s : State) (c : FaultCause) (n : Nat) : (s.raise c n).nbits = s.nbits := rfl
@[simp] theorem State.raise_srcBase (s : State) (c : FaultCause) (n : Nat) : (s.raise c n).srcBase = s.srcBase := rfl
@[simp] theorem State.raise_srcLimit (s : State) (c : FaultCause) (n : Nat) : (s.raise c n).srcLimit = s.srcLimit := rfl
@[simp] theorem State.raise_dstBase (s : State) (c : FaultCause) (n : Nat) : (s.raise c n).dstBase = s.dstBase := rfl
@[simp] theorem State.raise_size (s : State) (c : FaultCause) (n : Nat) : (s.raise c n).size = s.size := rfl
@[simp] theorem State.raise_o (s : State) (c : FaultCause) (n : Nat) : (s.raise c n).o = s.o := rfl
@[simp] theorem State.raise_p (s : State) (c : FaultCause) (n : Nat) : (s.raise c n).p = s.p := rfl
@[simp] theorem State.raise_phase (s : State) (c : FaultCause) (n : Nat) : (s.raise c n).phase = s.phase := rfl
@[simp] theorem State.raise_crc (s : State) (c : FaultCause) (n : Nat) : (s.raise c n).crc = s.crc := rfl
@[simp] theorem State.raise_variant (s : State) (c : FaultCause) (n : Nat) : (s.raise c n).variant = s.variant := rfl
@[simp] theorem State.raise_seed (s : State) (c : FaultCause) (n : Nat) : (s.raise c n).seed = s.seed := rfl
@[simp] theorem State.raise_acc (s : State) (c : FaultCause) (n : Nat) : (s.raise c n).acc = s.acc := rfl
@[simp] theorem State.raise_i (s : State) (c : FaultCause) (n : Nat) : (s.raise c n).i = s.i := rfl
@[simp] theorem State.raise_d (s : State) (c : FaultCause) (n : Nat) : (s.raise c n).d = s.d := rfl
@[simp] theorem State.raise_r (s : State) (c : FaultCause) (n : Nat) : (s.raise c n).r = s.r := rfl
@[simp] theorem State.raise_word0 (s : State) (c : FaultCause) (n : Nat) : (s.raise c n).word0 = s.word0 := rfl
@[simp] theorem State.raise_word1 (s : State) (c : FaultCause) (n : Nat) : (s.raise c n).word1 = s.word1 := rfl
@[simp] theorem State.raise_op (s : State) (c : FaultCause) (n : Nat) : (s.raise c n).op = s.op := rfl
@[simp] theorem State.raise_arg0 (s : State) (c : FaultCause) (n : Nat) : (s.raise c n).arg0 = s.arg0 := rfl
@[simp] theorem State.raise_arg1 (s : State) (c : FaultCause) (n : Nat) : (s.raise c n).arg1 = s.arg1 := rfl
@[simp] theorem State.raise_arg2 (s : State) (c : FaultCause) (n : Nat) : (s.raise c n).arg2 = s.arg2 := rfl
@[simp] theorem State.raise_arg3 (s : State) (c : FaultCause) (n : Nat) : (s.raise c n).arg3 = s.arg3 := rfl
@[simp] theorem State.raise_arg4 (s : State) (c : FaultCause) (n : Nat) : (s.raise c n).arg4 = s.arg4 := rfl
@[simp] theorem State.raise_arg5 (s : State) (c : FaultCause) (n : Nat) : (s.raise c n).arg5 = s.arg5 := rfl
@[simp] theorem State.raise_res0 (s : State) (c : FaultCause) (n : Nat) : (s.raise c n).res0 = Config.freeWord s.free := rfl
@[simp] theorem State.raise_res1 (s : State) (c : FaultCause) (n : Nat) : (s.raise c n).res1 = Config.freeWord (s.free + 1) := rfl
@[simp] theorem State.raise_res2 (s : State) (c : FaultCause) (n : Nat) : (s.raise c n).res2 = Config.freeWord (s.free + 2) := rfl
@[simp] theorem State.raise_res3 (s : State) (c : FaultCause) (n : Nat) : (s.raise c n).res3 = Config.freeWord (s.free + 3) := rfl
@[simp] theorem State.raise_status (s : State) (c : FaultCause) (n : Nat) : (s.raise c n).status = .fault := rfl
@[simp] theorem State.raise_err (s : State) (c : FaultCause) (n : Nat) : (s.raise c n).err = some c := rfl
@[simp] theorem State.raise_info (s : State) (c : FaultCause) (n : Nat) : (s.raise c n).info = BitVec.ofNat 32 n := rfl
@[simp] theorem State.raise_start (s : State) (c : FaultCause) (n : Nat) : (s.raise c n).start = s.start := rfl
@[simp] theorem State.raise_free (s : State) (c : FaultCause) (n : Nat) : (s.raise c n).free = s.free + 4 := rfl
/-! ### `State.withResultsOf` -/

@[simp] theorem State.withResultsOf_cfg (s t : State) : (s.withResultsOf t).cfg = s.cfg := rfl
@[simp] theorem State.withResultsOf_src (s t : State) : (s.withResultsOf t).src = s.src := rfl
@[simp] theorem State.withResultsOf_dst (s t : State) : (s.withResultsOf t).dst = s.dst := rfl
@[simp] theorem State.withResultsOf_sp (s t : State) : (s.withResultsOf t).sp = s.sp := rfl
@[simp] theorem State.withResultsOf_dp (s t : State) : (s.withResultsOf t).dp = s.dp := rfl
@[simp] theorem State.withResultsOf_ctl (s t : State) : (s.withResultsOf t).ctl = s.ctl := rfl
@[simp] theorem State.withResultsOf_nbits (s t : State) : (s.withResultsOf t).nbits = s.nbits := rfl
@[simp] theorem State.withResultsOf_srcBase (s t : State) : (s.withResultsOf t).srcBase = s.srcBase := rfl
@[simp] theorem State.withResultsOf_srcLimit (s t : State) : (s.withResultsOf t).srcLimit = s.srcLimit := rfl
@[simp] theorem State.withResultsOf_dstBase (s t : State) : (s.withResultsOf t).dstBase = s.dstBase := rfl
@[simp] theorem State.withResultsOf_size (s t : State) : (s.withResultsOf t).size = s.size := rfl
@[simp] theorem State.withResultsOf_o (s t : State) : (s.withResultsOf t).o = s.o := rfl
@[simp] theorem State.withResultsOf_p (s t : State) : (s.withResultsOf t).p = s.p := rfl
@[simp] theorem State.withResultsOf_phase (s t : State) : (s.withResultsOf t).phase = s.phase := rfl
@[simp] theorem State.withResultsOf_crc (s t : State) : (s.withResultsOf t).crc = s.crc := rfl
@[simp] theorem State.withResultsOf_variant (s t : State) : (s.withResultsOf t).variant = s.variant := rfl
@[simp] theorem State.withResultsOf_seed (s t : State) : (s.withResultsOf t).seed = s.seed := rfl
@[simp] theorem State.withResultsOf_acc (s t : State) : (s.withResultsOf t).acc = s.acc := rfl
@[simp] theorem State.withResultsOf_i (s t : State) : (s.withResultsOf t).i = s.i := rfl
@[simp] theorem State.withResultsOf_d (s t : State) : (s.withResultsOf t).d = s.d := rfl
@[simp] theorem State.withResultsOf_r (s t : State) : (s.withResultsOf t).r = s.r := rfl
@[simp] theorem State.withResultsOf_word0 (s t : State) : (s.withResultsOf t).word0 = s.word0 := rfl
@[simp] theorem State.withResultsOf_word1 (s t : State) : (s.withResultsOf t).word1 = s.word1 := rfl
@[simp] theorem State.withResultsOf_op (s t : State) : (s.withResultsOf t).op = s.op := rfl
@[simp] theorem State.withResultsOf_arg0 (s t : State) : (s.withResultsOf t).arg0 = s.arg0 := rfl
@[simp] theorem State.withResultsOf_arg1 (s t : State) : (s.withResultsOf t).arg1 = s.arg1 := rfl
@[simp] theorem State.withResultsOf_arg2 (s t : State) : (s.withResultsOf t).arg2 = s.arg2 := rfl
@[simp] theorem State.withResultsOf_arg3 (s t : State) : (s.withResultsOf t).arg3 = s.arg3 := rfl
@[simp] theorem State.withResultsOf_arg4 (s t : State) : (s.withResultsOf t).arg4 = s.arg4 := rfl
@[simp] theorem State.withResultsOf_arg5 (s t : State) : (s.withResultsOf t).arg5 = s.arg5 := rfl
@[simp] theorem State.withResultsOf_res0 (s t : State) : (s.withResultsOf t).res0 = t.res0 := rfl
@[simp] theorem State.withResultsOf_res1 (s t : State) : (s.withResultsOf t).res1 = t.res1 := rfl
@[simp] theorem State.withResultsOf_res2 (s t : State) : (s.withResultsOf t).res2 = t.res2 := rfl
@[simp] theorem State.withResultsOf_res3 (s t : State) : (s.withResultsOf t).res3 = t.res3 := rfl
@[simp] theorem State.withResultsOf_status (s t : State) : (s.withResultsOf t).status = s.status := rfl
@[simp] theorem State.withResultsOf_err (s t : State) : (s.withResultsOf t).err = s.err := rfl
@[simp] theorem State.withResultsOf_info (s t : State) : (s.withResultsOf t).info = s.info := rfl
@[simp] theorem State.withResultsOf_start (s t : State) : (s.withResultsOf t).start = s.start := rfl
@[simp] theorem State.withResultsOf_free (s t : State) : (s.withResultsOf t).free = t.free := rfl

/-! ### `lzdecInit` -/

@[simp] theorem lzdecInit_cfg (a b c n : Word) (s : State) : (lzdecInit a b c n s).cfg = s.cfg := rfl
@[simp] theorem lzdecInit_src (a b c n : Word) (s : State) : (lzdecInit a b c n s).src = s.src := rfl
@[simp] theorem lzdecInit_dst (a b c n : Word) (s : State) : (lzdecInit a b c n s).dst = s.dst := rfl
@[simp] theorem lzdecInit_sp (a b c n : Word) (s : State) : (lzdecInit a b c n s).sp = a.toNat + 16 := rfl
@[simp] theorem lzdecInit_dp (a b c n : Word) (s : State) : (lzdecInit a b c n s).dp = 0 := rfl
@[simp] theorem lzdecInit_ctl (a b c n : Word) (s : State) : (lzdecInit a b c n s).ctl = (Config.freeWord s.free).setWidth 8 := rfl
@[simp] theorem lzdecInit_nbits (a b c n : Word) (s : State) : (lzdecInit a b c n s).nbits = 0 := rfl
@[simp] theorem lzdecInit_srcBase (a b c n : Word) (s : State) : (lzdecInit a b c n s).srcBase = a := rfl
@[simp] theorem lzdecInit_srcLimit (a b c n : Word) (s : State) : (lzdecInit a b c n s).srcLimit = b := rfl
@[simp] theorem lzdecInit_dstBase (a b c n : Word) (s : State) : (lzdecInit a b c n s).dstBase = c := rfl
@[simp] theorem lzdecInit_size (a b c n : Word) (s : State) : (lzdecInit a b c n s).size = n := rfl
@[simp] theorem lzdecInit_o (a b c n : Word) (s : State) : (lzdecInit a b c n s).o = s.o := rfl
@[simp] theorem lzdecInit_p (a b c n : Word) (s : State) : (lzdecInit a b c n s).p = s.p := rfl
@[simp] theorem lzdecInit_phase (a b c n : Word) (s : State) : (lzdecInit a b c n s).phase = s.phase := rfl
@[simp] theorem lzdecInit_crc (a b c n : Word) (s : State) : (lzdecInit a b c n s).crc = s.crc := rfl
@[simp] theorem lzdecInit_variant (a b c n : Word) (s : State) : (lzdecInit a b c n s).variant = s.variant := rfl
@[simp] theorem lzdecInit_seed (a b c n : Word) (s : State) : (lzdecInit a b c n s).seed = s.seed := rfl
@[simp] theorem lzdecInit_acc (a b c n : Word) (s : State) : (lzdecInit a b c n s).acc = s.acc := rfl
@[simp] theorem lzdecInit_i (a b c n : Word) (s : State) : (lzdecInit a b c n s).i = s.i := rfl
@[simp] theorem lzdecInit_d (a b c n : Word) (s : State) : (lzdecInit a b c n s).d = s.d := rfl
@[simp] theorem lzdecInit_r (a b c n : Word) (s : State) : (lzdecInit a b c n s).r = s.r := rfl
@[simp] theorem lzdecInit_word0 (a b c n : Word) (s : State) : (lzdecInit a b c n s).word0 = s.word0 := rfl
@[simp] theorem lzdecInit_word1 (a b c n : Word) (s : State) : (lzdecInit a b c n s).word1 = s.word1 := rfl
@[simp] theorem lzdecInit_op (a b c n : Word) (s : State) : (lzdecInit a b c n s).op = s.op := rfl
@[simp] theorem lzdecInit_arg0 (a b c n : Word) (s : State) : (lzdecInit a b c n s).arg0 = s.arg0 := rfl
@[simp] theorem lzdecInit_arg1 (a b c n : Word) (s : State) : (lzdecInit a b c n s).arg1 = s.arg1 := rfl
@[simp] theorem lzdecInit_arg2 (a b c n : Word) (s : State) : (lzdecInit a b c n s).arg2 = s.arg2 := rfl
@[simp] theorem lzdecInit_arg3 (a b c n : Word) (s : State) : (lzdecInit a b c n s).arg3 = s.arg3 := rfl
@[simp] theorem lzdecInit_arg4 (a b c n : Word) (s : State) : (lzdecInit a b c n s).arg4 = s.arg4 := rfl
@[simp] theorem lzdecInit_arg5 (a b c n : Word) (s : State) : (lzdecInit a b c n s).arg5 = s.arg5 := rfl
@[simp] theorem lzdecInit_res0 (a b c n : Word) (s : State) : (lzdecInit a b c n s).res0 = s.res0 := rfl
@[simp] theorem lzdecInit_res1 (a b c n : Word) (s : State) : (lzdecInit a b c n s).res1 = s.res1 := rfl
@[simp] theorem lzdecInit_res2 (a b c n : Word) (s : State) : (lzdecInit a b c n s).res2 = s.res2 := rfl
@[simp] theorem lzdecInit_res3 (a b c n : Word) (s : State) : (lzdecInit a b c n s).res3 = s.res3 := rfl
@[simp] theorem lzdecInit_status (a b c n : Word) (s : State) : (lzdecInit a b c n s).status = s.status := rfl
@[simp] theorem lzdecInit_err (a b c n : Word) (s : State) : (lzdecInit a b c n s).err = s.err := rfl
@[simp] theorem lzdecInit_info (a b c n : Word) (s : State) : (lzdecInit a b c n s).info = s.info := rfl
@[simp] theorem lzdecInit_start (a b c n : Word) (s : State) : (lzdecInit a b c n s).start = s.start := rfl
@[simp] theorem lzdecInit_free (a b c n : Word) (s : State) : (lzdecInit a b c n s).free = s.free + 1 := rfl

/-! ### `lzdecComplete` -/

@[simp] theorem lzdecComplete_cfg (s : State) : (lzdecComplete s).cfg = s.cfg := rfl
@[simp] theorem lzdecComplete_src (s : State) : (lzdecComplete s).src = s.src := rfl
@[simp] theorem lzdecComplete_dst (s : State) : (lzdecComplete s).dst = s.dst := rfl
@[simp] theorem lzdecComplete_sp (s : State) : (lzdecComplete s).sp = s.sp := rfl
@[simp] theorem lzdecComplete_dp (s : State) : (lzdecComplete s).dp = s.dp := rfl
@[simp] theorem lzdecComplete_ctl (s : State) : (lzdecComplete s).ctl = s.ctl := rfl
@[simp] theorem lzdecComplete_nbits (s : State) : (lzdecComplete s).nbits = s.nbits := rfl
@[simp] theorem lzdecComplete_srcBase (s : State) : (lzdecComplete s).srcBase = s.srcBase := rfl
@[simp] theorem lzdecComplete_srcLimit (s : State) : (lzdecComplete s).srcLimit = s.srcLimit := rfl
@[simp] theorem lzdecComplete_dstBase (s : State) : (lzdecComplete s).dstBase = s.dstBase := rfl
@[simp] theorem lzdecComplete_size (s : State) : (lzdecComplete s).size = s.size := rfl
@[simp] theorem lzdecComplete_o (s : State) : (lzdecComplete s).o = s.o := rfl
@[simp] theorem lzdecComplete_p (s : State) : (lzdecComplete s).p = s.p := rfl
@[simp] theorem lzdecComplete_phase (s : State) : (lzdecComplete s).phase = s.phase := rfl
@[simp] theorem lzdecComplete_crc (s : State) : (lzdecComplete s).crc = s.crc := rfl
@[simp] theorem lzdecComplete_variant (s : State) : (lzdecComplete s).variant = s.variant := rfl
@[simp] theorem lzdecComplete_seed (s : State) : (lzdecComplete s).seed = s.seed := rfl
@[simp] theorem lzdecComplete_acc (s : State) : (lzdecComplete s).acc = s.acc := rfl
@[simp] theorem lzdecComplete_i (s : State) : (lzdecComplete s).i = s.i := rfl
@[simp] theorem lzdecComplete_d (s : State) : (lzdecComplete s).d = s.d := rfl
@[simp] theorem lzdecComplete_r (s : State) : (lzdecComplete s).r = s.r := rfl
@[simp] theorem lzdecComplete_word0 (s : State) : (lzdecComplete s).word0 = s.word0 := rfl
@[simp] theorem lzdecComplete_word1 (s : State) : (lzdecComplete s).word1 = s.word1 := rfl
@[simp] theorem lzdecComplete_op (s : State) : (lzdecComplete s).op = s.op := rfl
@[simp] theorem lzdecComplete_arg0 (s : State) : (lzdecComplete s).arg0 = s.arg0 := rfl
@[simp] theorem lzdecComplete_arg1 (s : State) : (lzdecComplete s).arg1 = s.arg1 := rfl
@[simp] theorem lzdecComplete_arg2 (s : State) : (lzdecComplete s).arg2 = s.arg2 := rfl
@[simp] theorem lzdecComplete_arg3 (s : State) : (lzdecComplete s).arg3 = s.arg3 := rfl
@[simp] theorem lzdecComplete_arg4 (s : State) : (lzdecComplete s).arg4 = s.arg4 := rfl
@[simp] theorem lzdecComplete_arg5 (s : State) : (lzdecComplete s).arg5 = s.arg5 := rfl
@[simp] theorem lzdecComplete_res0 (s : State) : (lzdecComplete s).res0 = if s.sp < 2 ^ 32 then BitVec.ofNat 32 s.sp else Config.freeWord s.free := rfl
@[simp] theorem lzdecComplete_res1 (s : State) : (lzdecComplete s).res1 = BitVec.ofNat 32 s.dp := rfl
@[simp] theorem lzdecComplete_res2 (s : State) : (lzdecComplete s).res2 = Config.freeWord (s.free + 2) := rfl
@[simp] theorem lzdecComplete_res3 (s : State) : (lzdecComplete s).res3 = Config.freeWord (s.free + 3) := rfl
@[simp] theorem lzdecComplete_status (s : State) : (lzdecComplete s).status = .done := rfl
@[simp] theorem lzdecComplete_err (s : State) : (lzdecComplete s).err = s.err := rfl
@[simp] theorem lzdecComplete_info (s : State) : (lzdecComplete s).info = s.info := rfl
@[simp] theorem lzdecComplete_start (s : State) : (lzdecComplete s).start = s.start := rfl
@[simp] theorem lzdecComplete_free (s : State) : (lzdecComplete s).free = s.free + 4 := rfl

/-! ### `accumulateRegs`, `combineRegs`, `publishChecksum` -/

@[simp] theorem accumulateRegs_cfg (s : State) : (accumulateRegs s).cfg = s.cfg := rfl
@[simp] theorem accumulateRegs_src (s : State) : (accumulateRegs s).src = s.src := rfl
@[simp] theorem accumulateRegs_dst (s : State) : (accumulateRegs s).dst = s.dst := rfl
@[simp] theorem accumulateRegs_sp (s : State) : (accumulateRegs s).sp = s.sp := rfl
@[simp] theorem accumulateRegs_dp (s : State) : (accumulateRegs s).dp = s.dp := rfl
@[simp] theorem accumulateRegs_ctl (s : State) : (accumulateRegs s).ctl = s.ctl := rfl
@[simp] theorem accumulateRegs_nbits (s : State) : (accumulateRegs s).nbits = s.nbits := rfl
@[simp] theorem accumulateRegs_srcBase (s : State) : (accumulateRegs s).srcBase = s.srcBase := rfl
@[simp] theorem accumulateRegs_srcLimit (s : State) : (accumulateRegs s).srcLimit = s.srcLimit := rfl
@[simp] theorem accumulateRegs_dstBase (s : State) : (accumulateRegs s).dstBase = s.dstBase := rfl
@[simp] theorem accumulateRegs_size (s : State) : (accumulateRegs s).size = s.size := rfl
@[simp] theorem accumulateRegs_o (s : State) : (accumulateRegs s).o = s.o := rfl
@[simp] theorem accumulateRegs_p (s : State) : (accumulateRegs s).p = s.p := rfl
@[simp] theorem accumulateRegs_phase (s : State) : (accumulateRegs s).phase = s.phase := rfl
@[simp] theorem accumulateRegs_crc (s : State) : (accumulateRegs s).crc = s.crc := rfl
@[simp] theorem accumulateRegs_variant (s : State) : (accumulateRegs s).variant = s.variant := rfl
@[simp] theorem accumulateRegs_seed (s : State) : (accumulateRegs s).seed = s.seed := rfl
@[simp] theorem accumulateRegs_acc (s : State) : (accumulateRegs s).acc = accumulate s.dst s.seed s.variant := by unfold accumulateRegs; rfl
@[simp] theorem accumulateRegs_i (s : State) : (accumulateRegs s).i = Config.winLast := by unfold accumulateRegs; rfl
@[simp] theorem accumulateRegs_d (s : State) : (accumulateRegs s).d = windowWord s.dst Config.winLast := by unfold accumulateRegs; rfl
@[simp] theorem accumulateRegs_r (s : State) : (accumulateRegs s).r = Sys2Proof.Machine.rotation (windowWord s.dst Config.winLast) := by unfold accumulateRegs; rfl
@[simp] theorem accumulateRegs_word0 (s : State) : (accumulateRegs s).word0 = s.word0 := rfl
@[simp] theorem accumulateRegs_word1 (s : State) : (accumulateRegs s).word1 = s.word1 := rfl
@[simp] theorem accumulateRegs_op (s : State) : (accumulateRegs s).op = s.op := rfl
@[simp] theorem accumulateRegs_arg0 (s : State) : (accumulateRegs s).arg0 = s.arg0 := rfl
@[simp] theorem accumulateRegs_arg1 (s : State) : (accumulateRegs s).arg1 = s.arg1 := rfl
@[simp] theorem accumulateRegs_arg2 (s : State) : (accumulateRegs s).arg2 = s.arg2 := rfl
@[simp] theorem accumulateRegs_arg3 (s : State) : (accumulateRegs s).arg3 = s.arg3 := rfl
@[simp] theorem accumulateRegs_arg4 (s : State) : (accumulateRegs s).arg4 = s.arg4 := rfl
@[simp] theorem accumulateRegs_arg5 (s : State) : (accumulateRegs s).arg5 = s.arg5 := rfl
@[simp] theorem accumulateRegs_res0 (s : State) : (accumulateRegs s).res0 = s.res0 := rfl
@[simp] theorem accumulateRegs_res1 (s : State) : (accumulateRegs s).res1 = s.res1 := rfl
@[simp] theorem accumulateRegs_res2 (s : State) : (accumulateRegs s).res2 = s.res2 := rfl
@[simp] theorem accumulateRegs_res3 (s : State) : (accumulateRegs s).res3 = s.res3 := rfl
@[simp] theorem accumulateRegs_status (s : State) : (accumulateRegs s).status = s.status := rfl
@[simp] theorem accumulateRegs_err (s : State) : (accumulateRegs s).err = s.err := rfl
@[simp] theorem accumulateRegs_info (s : State) : (accumulateRegs s).info = s.info := rfl
@[simp] theorem accumulateRegs_start (s : State) : (accumulateRegs s).start = s.start := rfl
@[simp] theorem accumulateRegs_free (s : State) : (accumulateRegs s).free = s.free := rfl

@[simp] theorem combineRegs_cfg (s : State) : (combineRegs s).cfg = s.cfg := rfl
@[simp] theorem combineRegs_src (s : State) : (combineRegs s).src = s.src := rfl
@[simp] theorem combineRegs_dst (s : State) : (combineRegs s).dst = s.dst := rfl
@[simp] theorem combineRegs_sp (s : State) : (combineRegs s).sp = s.sp := rfl
@[simp] theorem combineRegs_dp (s : State) : (combineRegs s).dp = s.dp := rfl
@[simp] theorem combineRegs_ctl (s : State) : (combineRegs s).ctl = s.ctl := rfl
@[simp] theorem combineRegs_nbits (s : State) : (combineRegs s).nbits = s.nbits := rfl
@[simp] theorem combineRegs_srcBase (s : State) : (combineRegs s).srcBase = s.srcBase := rfl
@[simp] theorem combineRegs_srcLimit (s : State) : (combineRegs s).srcLimit = s.srcLimit := rfl
@[simp] theorem combineRegs_dstBase (s : State) : (combineRegs s).dstBase = s.dstBase := rfl
@[simp] theorem combineRegs_size (s : State) : (combineRegs s).size = s.size := rfl
@[simp] theorem combineRegs_o (s : State) : (combineRegs s).o = s.o := rfl
@[simp] theorem combineRegs_p (s : State) : (combineRegs s).p = s.p := rfl
@[simp] theorem combineRegs_phase (s : State) : (combineRegs s).phase = s.phase := rfl
@[simp] theorem combineRegs_crc (s : State) : (combineRegs s).crc = s.crc := rfl
@[simp] theorem combineRegs_variant (s : State) : (combineRegs s).variant = s.variant := rfl
@[simp] theorem combineRegs_seed (s : State) : (combineRegs s).seed = s.seed := rfl
@[simp] theorem combineRegs_acc (s : State) : (combineRegs s).acc = s.acc := rfl
@[simp] theorem combineRegs_i (s : State) : (combineRegs s).i = s.i := rfl
@[simp] theorem combineRegs_d (s : State) : (combineRegs s).d = s.d := rfl
@[simp] theorem combineRegs_r (s : State) : (combineRegs s).r = s.r := rfl
@[simp] theorem combineRegs_word0 (s : State) : (combineRegs s).word0 = (combine s.variant s.acc).1 := rfl
@[simp] theorem combineRegs_word1 (s : State) : (combineRegs s).word1 = (combine s.variant s.acc).2 := rfl
@[simp] theorem combineRegs_op (s : State) : (combineRegs s).op = s.op := rfl
@[simp] theorem combineRegs_arg0 (s : State) : (combineRegs s).arg0 = s.arg0 := rfl
@[simp] theorem combineRegs_arg1 (s : State) : (combineRegs s).arg1 = s.arg1 := rfl
@[simp] theorem combineRegs_arg2 (s : State) : (combineRegs s).arg2 = s.arg2 := rfl
@[simp] theorem combineRegs_arg3 (s : State) : (combineRegs s).arg3 = s.arg3 := rfl
@[simp] theorem combineRegs_arg4 (s : State) : (combineRegs s).arg4 = s.arg4 := rfl
@[simp] theorem combineRegs_arg5 (s : State) : (combineRegs s).arg5 = s.arg5 := rfl
@[simp] theorem combineRegs_res0 (s : State) : (combineRegs s).res0 = s.res0 := rfl
@[simp] theorem combineRegs_res1 (s : State) : (combineRegs s).res1 = s.res1 := rfl
@[simp] theorem combineRegs_res2 (s : State) : (combineRegs s).res2 = s.res2 := rfl
@[simp] theorem combineRegs_res3 (s : State) : (combineRegs s).res3 = s.res3 := rfl
@[simp] theorem combineRegs_status (s : State) : (combineRegs s).status = s.status := rfl
@[simp] theorem combineRegs_err (s : State) : (combineRegs s).err = s.err := rfl
@[simp] theorem combineRegs_info (s : State) : (combineRegs s).info = s.info := rfl
@[simp] theorem combineRegs_start (s : State) : (combineRegs s).start = s.start := rfl
@[simp] theorem combineRegs_free (s : State) : (combineRegs s).free = s.free := rfl

@[simp] theorem publishChecksum_cfg (s : State) : (publishChecksum s).cfg = s.cfg := rfl
@[simp] theorem publishChecksum_src (s : State) : (publishChecksum s).src = s.src := rfl
@[simp] theorem publishChecksum_dst (s : State) : (publishChecksum s).dst = s.dst.writeChecksum s.word0 s.word1 := rfl
@[simp] theorem publishChecksum_sp (s : State) : (publishChecksum s).sp = s.sp := rfl
@[simp] theorem publishChecksum_dp (s : State) : (publishChecksum s).dp = s.dp := rfl
@[simp] theorem publishChecksum_ctl (s : State) : (publishChecksum s).ctl = s.ctl := rfl
@[simp] theorem publishChecksum_nbits (s : State) : (publishChecksum s).nbits = s.nbits := rfl
@[simp] theorem publishChecksum_srcBase (s : State) : (publishChecksum s).srcBase = s.srcBase := rfl
@[simp] theorem publishChecksum_srcLimit (s : State) : (publishChecksum s).srcLimit = s.srcLimit := rfl
@[simp] theorem publishChecksum_dstBase (s : State) : (publishChecksum s).dstBase = s.dstBase := rfl
@[simp] theorem publishChecksum_size (s : State) : (publishChecksum s).size = s.size := rfl
@[simp] theorem publishChecksum_o (s : State) : (publishChecksum s).o = s.o := rfl
@[simp] theorem publishChecksum_p (s : State) : (publishChecksum s).p = s.p := rfl
@[simp] theorem publishChecksum_phase (s : State) : (publishChecksum s).phase = s.phase := rfl
@[simp] theorem publishChecksum_crc (s : State) : (publishChecksum s).crc = s.crc := rfl
@[simp] theorem publishChecksum_variant (s : State) : (publishChecksum s).variant = s.variant := rfl
@[simp] theorem publishChecksum_seed (s : State) : (publishChecksum s).seed = s.seed := rfl
@[simp] theorem publishChecksum_acc (s : State) : (publishChecksum s).acc = s.acc := rfl
@[simp] theorem publishChecksum_i (s : State) : (publishChecksum s).i = s.i := rfl
@[simp] theorem publishChecksum_d (s : State) : (publishChecksum s).d = s.d := rfl
@[simp] theorem publishChecksum_r (s : State) : (publishChecksum s).r = s.r := rfl
@[simp] theorem publishChecksum_word0 (s : State) : (publishChecksum s).word0 = s.word0 := rfl
@[simp] theorem publishChecksum_word1 (s : State) : (publishChecksum s).word1 = s.word1 := rfl
@[simp] theorem publishChecksum_op (s : State) : (publishChecksum s).op = s.op := rfl
@[simp] theorem publishChecksum_arg0 (s : State) : (publishChecksum s).arg0 = s.arg0 := rfl
@[simp] theorem publishChecksum_arg1 (s : State) : (publishChecksum s).arg1 = s.arg1 := rfl
@[simp] theorem publishChecksum_arg2 (s : State) : (publishChecksum s).arg2 = s.arg2 := rfl
@[simp] theorem publishChecksum_arg3 (s : State) : (publishChecksum s).arg3 = s.arg3 := rfl
@[simp] theorem publishChecksum_arg4 (s : State) : (publishChecksum s).arg4 = s.arg4 := rfl
@[simp] theorem publishChecksum_arg5 (s : State) : (publishChecksum s).arg5 = s.arg5 := rfl
@[simp] theorem publishChecksum_res0 (s : State) : (publishChecksum s).res0 = s.word0 := rfl
@[simp] theorem publishChecksum_res1 (s : State) : (publishChecksum s).res1 = s.word1 := rfl
@[simp] theorem publishChecksum_res2 (s : State) : (publishChecksum s).res2 = s.variant.number := rfl
@[simp] theorem publishChecksum_res3 (s : State) : (publishChecksum s).res3 = s.crc := rfl
@[simp] theorem publishChecksum_status (s : State) : (publishChecksum s).status = .done := rfl
@[simp] theorem publishChecksum_err (s : State) : (publishChecksum s).err = s.err := rfl
@[simp] theorem publishChecksum_info (s : State) : (publishChecksum s).info = s.info := rfl
@[simp] theorem publishChecksum_start (s : State) : (publishChecksum s).start = s.start := rfl
@[simp] theorem publishChecksum_free (s : State) : (publishChecksum s).free = s.free + 4 := rfl

end Sys2Proof.Machine
end

