-- ==== Sys2Proof/Laws/Ops.lean ====
section
/-! SUPPORT. What the shared operations can do, said once each: starting an operation, the stream fetch, the decoded
store, the back-reference copy. -/

namespace Sys2Proof.Machine

/-! ### Effects and starts -/

@[simp] theorem Effect.andThen_ok (s : State) (k : State → Effect) : Effect.andThen (.ok s) k = k s := rfl
@[simp] theorem Effect.andThen_error (s : State) (k : State → Effect) : Effect.andThen (.error s) k = .error s := rfl
@[simp] theorem Effect.state_ok (s : State) : Effect.state (.ok s) = s := rfl
@[simp] theorem Effect.state_error (s : State) : Effect.state (.error s) = s := rfl

@[simp] theorem State.begin_cfg (s : State) (b : Bool) : (s.begin b).cfg = s.cfg := rfl
@[simp] theorem State.begin_src (s : State) (b : Bool) : (s.begin b).src = s.src := rfl
@[simp] theorem State.begin_dst (s : State) (b : Bool) : (s.begin b).dst = s.dst := rfl
@[simp] theorem State.begin_sp (s : State) (b : Bool) : (s.begin b).sp = s.sp := rfl
@[simp] theorem State.begin_dp (s : State) (b : Bool) : (s.begin b).dp = s.dp := rfl
@[simp] theorem State.begin_ctl (s : State) (b : Bool) : (s.begin b).ctl = s.ctl := rfl
@[simp] theorem State.begin_nbits (s : State) (b : Bool) : (s.begin b).nbits = s.nbits := rfl
@[simp] theorem State.begin_srcBase (s : State) (b : Bool) : (s.begin b).srcBase = s.srcBase := rfl
@[simp] theorem State.begin_srcLimit (s : State) (b : Bool) : (s.begin b).srcLimit = s.srcLimit := rfl
@[simp] theorem State.begin_dstBase (s : State) (b : Bool) : (s.begin b).dstBase = s.dstBase := rfl
@[simp] theorem State.begin_size (s : State) (b : Bool) : (s.begin b).size = s.size := rfl
@[simp] theorem State.begin_o (s : State) (b : Bool) : (s.begin b).o = s.o := rfl
@[simp] theorem State.begin_p (s : State) (b : Bool) : (s.begin b).p = s.p := rfl
@[simp] theorem State.begin_phase (s : State) (b : Bool) : (s.begin b).phase = s.phase := rfl
@[simp] theorem State.begin_crc (s : State) (b : Bool) : (s.begin b).crc = s.crc := rfl
@[simp] theorem State.begin_variant (s : State) (b : Bool) : (s.begin b).variant = s.variant := rfl
@[simp] theorem State.begin_seed (s : State) (b : Bool) : (s.begin b).seed = s.seed := rfl
@[simp] theorem State.begin_acc (s : State) (b : Bool) : (s.begin b).acc = s.acc := rfl
@[simp] theorem State.begin_i (s : State) (b : Bool) : (s.begin b).i = s.i := rfl
@[simp] theorem State.begin_d (s : State) (b : Bool) : (s.begin b).d = s.d := rfl
@[simp] theorem State.begin_r (s : State) (b : Bool) : (s.begin b).r = s.r := rfl
@[simp] theorem State.begin_word0 (s : State) (b : Bool) : (s.begin b).word0 = s.word0 := rfl
@[simp] theorem State.begin_word1 (s : State) (b : Bool) : (s.begin b).word1 = s.word1 := rfl
@[simp] theorem State.begin_op (s : State) (b : Bool) : (s.begin b).op = s.op := rfl
@[simp] theorem State.begin_arg0 (s : State) (b : Bool) : (s.begin b).arg0 = s.arg0 := rfl
@[simp] theorem State.begin_arg1 (s : State) (b : Bool) : (s.begin b).arg1 = s.arg1 := rfl
@[simp] theorem State.begin_arg2 (s : State) (b : Bool) : (s.begin b).arg2 = s.arg2 := rfl
@[simp] theorem State.begin_arg3 (s : State) (b : Bool) : (s.begin b).arg3 = s.arg3 := rfl
@[simp] theorem State.begin_arg4 (s : State) (b : Bool) : (s.begin b).arg4 = s.arg4 := rfl
@[simp] theorem State.begin_arg5 (s : State) (b : Bool) : (s.begin b).arg5 = s.arg5 := rfl
@[simp] theorem State.begin_res0 (s : State) (b : Bool) : (s.begin b).res0 = Config.freeWord s.free := rfl
@[simp] theorem State.begin_res1 (s : State) (b : Bool) : (s.begin b).res1 = Config.freeWord (s.free + 1) := rfl
@[simp] theorem State.begin_res2 (s : State) (b : Bool) : (s.begin b).res2 = Config.freeWord (s.free + 2) := rfl
@[simp] theorem State.begin_res3 (s : State) (b : Bool) : (s.begin b).res3 = Config.freeWord (s.free + 3) := rfl
@[simp] theorem State.begin_status (s : State) (b : Bool) : (s.begin b).status = .busy := rfl
@[simp] theorem State.begin_err (s : State) (b : Bool) : (s.begin b).err = s.err := rfl
@[simp] theorem State.begin_info (s : State) (b : Bool) : (s.begin b).info = s.info := rfl
@[simp] theorem State.begin_start (s : State) (b : Bool) : (s.begin b).start = b := rfl
@[simp] theorem State.begin_free (s : State) (b : Bool) : (s.begin b).free = s.free + 4 := rfl

/-- An operation that the host has started, or may start, runs from the state in which it is begun. -/
theorem startOp_of_startable {s : State} (run : State → Outcome) (h : s.startable) :
    startOp s run = run (s.begin false) := by
  rcases h with (h | h) | ⟨h, hst⟩ <;> simp [startOp, *]

theorem startOp_of_busy {s : State} (run : State → Outcome) (h : s.status = .busy) (hst : s.start = false) :
    startOp s run = .refused .startWhileBusy := by simp [startOp, h, hst]

theorem startOp_of_fault {s : State} (run : State → Outcome) (h : s.status = .fault) :
    startOp s run = .refused .startAfterFault := by simp [startOp, h]

/-- An operation that answers a next state was started, or could be. -/
theorem startOp_next {s t : State} {run : State → Outcome} (h : startOp s run = .next t) :
    s.startable ∧ run (s.begin false) = .next t := by
  unfold startOp at h
  split at h
  · next hs =>
    split at h
    · next hst => exact ⟨.inr ⟨hs, hst⟩, h⟩
    · cases h
  · cases h
  · next hs => exact ⟨.inl (.inl hs), h⟩
  · next hs => exact ⟨.inl (.inr hs), h⟩

/-! ### Stream fetch -/

theorem State.inSource_of_le {s : State} {a b : Nat} (h : s.inSource b) (hab : a ≤ b) : s.inSource a :=
  ⟨Nat.lt_of_le_of_lt hab h.1, Nat.lt_of_le_of_lt hab h.2⟩

theorem srcByte_inside {s : State} (h : s.inSource s.sp) :
    srcByte s = .ok (s.src.read s.sp, { s with sp := s.sp + 1 }) := by rw [srcByte, if_pos h]

theorem srcByte_outside {s : State} (h : ¬ s.inSource s.sp) : srcByte s = .error (s.raise .truncatedStream s.sp) := by
  rw [srcByte, if_neg h]

/-- A fetch whose last byte is inside the source consumes its bytes and does nothing else. -/
theorem consume_inside (n : Nat) (s : State) (h : ∀ j, j < n → s.inSource (s.sp + j)) :
    consume n s = .ok { s with sp := s.sp + n } := by
  induction n generalizing s with
  | zero => rfl
  | succ n ih =>
    have h0 : s.inSource s.sp := h 0 (by omega)
    rw [consume, srcByte_inside h0]
    simp only
    rw [ih]
    · simp only [Nat.add_assoc, Nat.add_comm 1]
    · intro j hj
      have := h (j + 1) (by omega)
      rwa [show s.sp + (j + 1) = s.sp + 1 + j by omega] at this

/-- A fetch whose `k`-th byte is the first outside the source raises `TruncatedStream` there. -/
theorem consume_cut (n k : Nat) (s : State) (hk : k < n) (h : ∀ j, j < k → s.inSource (s.sp + j))
    (hcut : ¬ s.inSource (s.sp + k)) :
    consume n s = .error (({ s with sp := s.sp + k } : State).raise .truncatedStream (s.sp + k)) := by
  induction n generalizing s k with
  | zero => omega
  | succ n ih =>
    cases k with
    | zero => rw [consume, srcByte_outside hcut]; rfl
    | succ k =>
      have h0 : s.inSource s.sp := h 0 (by omega)
      rw [consume, srcByte_inside h0]
      simp only
      rw [ih k _ (by omega)]
      · simp only [Nat.add_assoc, Nat.add_comm 1]
      · intro j hj
        have := h (j + 1) (by omega)
        rwa [show s.sp + (j + 1) = s.sp + 1 + j by omega] at this
      · rwa [show s.sp + (k + 1) = s.sp + 1 + k by omega] at hcut

/-- A fetch of `n` bytes either has them all inside the source or has a first byte outside. -/
theorem inSource_or_cut (s : State) (n : Nat) :
    (∀ j, j < n → s.inSource (s.sp + j)) ∨
      ∃ k, k < n ∧ (∀ j, j < k → s.inSource (s.sp + j)) ∧ ¬ s.inSource (s.sp + k) := by
  induction n with
  | zero => exact .inl fun j hj => absurd hj (Nat.not_lt_zero j)
  | succ n ih =>
    rcases ih with h | ⟨k, hk, h⟩
    · by_cases hn : s.inSource (s.sp + n)
      · refine .inl fun j hj => ?_
        rcases Nat.lt_succ_iff_lt_or_eq.mp hj with hj | rfl
        · exact h j hj
        · exact hn
      · exact .inr ⟨n, by omega, h, hn⟩
    · exact .inr ⟨k, by omega, h⟩

/-! ### Decoded store -/

theorem dstWrite_room {s : State} (v : Byte) (h : s.dp < s.size.toNat ∧ s.dstBase.toNat + s.dp < s.cfg.dstLen) :
    dstWrite v s = .ok { s with dst := s.dst.write (s.dstBase.toNat + s.dp) v, dp := s.dp + 1 } := by
  rw [dstWrite, if_pos h]

theorem dstWrite_full {s : State} (v : Byte) (h : ¬ (s.dp < s.size.toNat ∧ s.dstBase.toNat + s.dp < s.cfg.dstLen)) :
    dstWrite v s = .error (s.raise .outputOverrun s.dp) := by
  rw [dstWrite, if_neg h]

theorem State.room_pos {s : State} :
    0 < s.room ↔ s.dp < s.size.toNat ∧ s.dstBase.toNat + s.dp < s.cfg.dstLen := by
  unfold State.room; omega

/-! ### Back-reference copy -/

@[simp] theorem copy_zero (offset : Nat) (s : State) : copy offset 0 s = .ok s := rfl

theorem copy_succ (offset length : Nat) (s : State) :
    copy offset (length + 1) s = (copyByte offset s).andThen (copy offset length) := rfl

/-- A copy of `a + b` bytes is a copy of `a` bytes and then one of `b`. -/
theorem copy_add (offset a b : Nat) (s : State) :
    copy offset (a + b) s = (copy offset a s).andThen (copy offset b) := by
  induction a generalizing s with
  | zero => simp
  | succ a ih =>
    rw [show a + 1 + b = a + b + 1 by omega, copy_succ, copy_succ]
    cases h : copyByte offset s with
    | ok t => simp [ih]
    | error t => simp

/-- A copy that begins before the first destination byte raises `BoundsError` and writes nothing (R97). -/
theorem copy_before {offset length : Nat} {s : State} (h : s.dp < offset) (hl : 0 < length) :
    copy offset length s = .error (s.raise .boundsError s.dp) := by
  obtain ⟨n, rfl⟩ : ∃ n, length = n + 1 := ⟨length - 1, by omega⟩
  rw [copy_succ, copyByte, if_pos h]
  rfl

/-- A copy that fits follows the overlap law (R94). -/
theorem copy_fits (offset length : Nat) (s : State) (hpos : 0 < offset) (hoff : offset ≤ s.dp)
    (hroom : length ≤ s.room) :
    ∃ m, copy offset length s = .ok { s with dst := m, dp := s.dp + length } ∧
      OverlapCopy s.dst m (s.dstBase.toNat + s.dp) offset length := by
  induction length generalizing s with
  | zero => exact ⟨s.dst, rfl, fun k hk => absurd hk (Nat.not_lt_zero k), fun _ _ => rfl⟩
  | succ n ih =>
    have hr := State.room_pos.mp (show 0 < s.room by omega)
    rw [copy_succ, copyByte, if_neg (by omega), dstWrite_room _ hr, Effect.andThen_ok]
    obtain ⟨m, hm, hin, hout⟩ := ih
      { s with
        dst := s.dst.write (s.dstBase.toNat + s.dp) (s.dst.read (s.dstBase.toNat + s.dp - offset))
        dp := s.dp + 1 }
      (by simp only; omega) (by simp only [State.room] at hroom ⊢; omega)
    simp only [] at hm hin hout
    refine ⟨m, ?_, fun k hk => ?_, fun a ha => ?_⟩
    · rw [hm]; simp only [Nat.add_assoc, Nat.add_comm 1]
    · cases k with
      | zero =>
        rw [Nat.add_zero, hout _ (by omega), Memory.read_write_same, Nat.zero_mod, Nat.add_zero]
      | succ k =>
        have hlt := Nat.mod_lt k hpos
        have := hin k (by omega)
        rw [show s.dstBase.toNat + (s.dp + 1) + k = s.dstBase.toNat + s.dp + (k + 1) by omega] at this
        rw [this, Memory.read_write]
        have hstep : (k + 1) % offset = if k % offset + 1 = offset then 0 else k % offset + 1 := by
          rw [Nat.add_mod]
          by_cases h1 : offset = 1
          · subst h1; simp [Nat.mod_one]
          · rw [Nat.mod_eq_of_lt (show 1 < offset by omega)]
            split
            · next he => rw [he, Nat.mod_self]
            · exact Nat.mod_eq_of_lt (by omega)
        rw [hstep]
        split_ifs with h1 h2 h2
        · rfl
        · omega
        · omega
        · congr 1; omega
    · rw [hout a (by omega), Memory.read_write_ne _ _ (by omega)]

/-- A copy that does not fit writes the bytes that do and raises `OutputOverrun` at the next (R89). -/
theorem copy_overruns (offset length : Nat) (s : State) (hpos : 0 < offset) (hoff : offset ≤ s.dp)
    (hroom : s.room < length) :
    ∃ m, copy offset length s =
        .error (({ s with dst := m, dp := s.dp + s.room } : State).raise .outputOverrun (s.dp + s.room)) ∧
      OverlapCopy s.dst m (s.dstBase.toNat + s.dp) offset s.room := by
  obtain ⟨m, hm, hlaw⟩ := copy_fits offset s.room s hpos hoff (Nat.le_refl _)
  refine ⟨m, ?_, hlaw⟩
  obtain ⟨n, hn⟩ : ∃ n, length = s.room + (n + 1) := ⟨length - s.room - 1, by omega⟩
  rw [hn, copy_add, hm, Effect.andThen_ok, copy_succ, copyByte, if_neg (by simp only; omega), dstWrite_full]
  · rfl
  · simp only [State.room]; omega

/-- Everything a copy can do: it writes `k` bytes at the destination cursor, all of them inside `size` and DST, and either
`k` is the whole length or it raises `OutputOverrun` or `BoundsError`. -/
theorem copy_cases (offset length : Nat) (s : State) :
    ∃ m k, k ≤ length ∧
      (∀ a, a < s.dstBase.toNat + s.dp ∨ s.dstBase.toNat + s.dp + k ≤ a → m.read a = s.dst.read a) ∧
      (s.dst.wf → m.wf) ∧ (s.dst.inside s.cfg.dstLen → m.inside s.cfg.dstLen) ∧
      (k = 0 ∨ (s.dp + k ≤ s.size.toNat ∧ s.dstBase.toNat + s.dp + k ≤ s.cfg.dstLen)) ∧
      ((k = length ∧ copy offset length s = .ok { s with dst := m, dp := s.dp + k }) ∨
        ∃ c, (c = .outputOverrun ∨ c = .boundsError) ∧
          copy offset length s = .error (({ s with dst := m, dp := s.dp + k } : State).raise c (s.dp + k))) := by
  induction length generalizing s with
  | zero => exact ⟨s.dst, 0, Nat.le_refl _, fun _ _ => rfl, id, id, .inl rfl, .inl ⟨rfl, rfl⟩⟩
  | succ n ih =>
    rw [copy_succ, copyByte]
    split
    · exact ⟨s.dst, 0, by omega, fun _ _ => rfl, id, id, .inl rfl, .inr ⟨.boundsError, .inr rfl, rfl⟩⟩
    · by_cases hr : s.dp < s.size.toNat ∧ s.dstBase.toNat + s.dp < s.cfg.dstLen
      · rw [dstWrite_room _ hr, Effect.andThen_ok]
        obtain ⟨m, k, hk, hout, hwf, hins, hfit, hend⟩ := ih
          { s with
            dst := s.dst.write (s.dstBase.toNat + s.dp) (s.dst.read (s.dstBase.toNat + s.dp - offset))
            dp := s.dp + 1 }
        simp only [] at hout hwf hins hfit hend
        refine ⟨m, k + 1, by omega, fun a ha => ?_, fun h => hwf (Memory.write_wf _ _ h),
          fun h => hins (Memory.write_inside _ _ hr.2 h), .inr ⟨by omega, by omega⟩, ?_⟩
        · rw [hout a (by omega), Memory.read_write_ne _ _ (by omega)]
        · rw [show s.dp + (k + 1) = s.dp + 1 + k by omega]
          rcases hend with ⟨rfl, hend⟩ | ⟨c, hc, hend⟩
          · exact .inl ⟨rfl, hend⟩
          · exact .inr ⟨c, hc, hend⟩
      · rw [dstWrite_full _ hr, Effect.andThen_error]
        exact ⟨s.dst, 0, by omega, fun _ _ => rfl, id, id, .inl rfl, .inr ⟨.outputOverrun, .inl rfl, rfl⟩⟩

end Sys2Proof.Machine
end

