-- ==== Sys2Proof/Laws/Checksum.lean ====
section
/-! SUPPORT. What the checksum engine's operation can do, said once, and what its loops depend on. -/

namespace Sys2Proof.Machine

/-- The loop of `n` words from offset `i` depends on those window words and, for variant 6105, on the lookup words. -/
theorem accLoop_congr {m n : Memory} {v : Variant} (words i : Nat) (t : Accumulators)
    (hwin : ∀ k, k < words → windowWord m (i + 4 * k) = windowWord n (i + 4 * k))
    (hlut : v = .v6105 → ∀ k, k < words → lookupWord m (i + 4 * k) = lookupWord n (i + 4 * k)) :
    accLoop m v words i t = accLoop n v words i t := by
  induction words generalizing i t with
  | zero => rfl
  | succ words ih =>
    have h0 : windowWord m i = windowWord n i := hwin 0 (by omega)
    have hstep : accStep v (lookupWord m i) (windowWord m i) t = accStep v (lookupWord n i) (windowWord n i) t := by
      rw [h0]
      cases v with
      | v6105 =>
        have h1 : lookupWord m i = lookupWord n i := hlut rfl 0 (by omega)
        rw [h1]
      | v6101 => rfl
      | v6102 => rfl
      | v6103 => rfl
      | v6106 => rfl
    rw [accLoop, accLoop, hstep]
    apply ih
    · intro k hk
      have := hwin (k + 1) (by omega)
      rwa [show i + 4 * (k + 1) = i + 4 + 4 * k by omega] at this
    · intro hv k hk
      have := hlut hv (k + 1) (by omega)
      rwa [show i + 4 * (k + 1) = i + 4 + 4 * k by omega] at this

/-- The window offset is left at the last word of the window. -/
theorem accumulateRegs_i_in_window (s : State) : (accumulateRegs s).i % 4 = 0 ∧ (accumulateRegs s).i < Config.winLen := by
  rw [accumulateRegs_i]; decide

theorem Memory.read_writeChecksum_outside (m : Memory) {b : Nat} (w0 w1 : Word) (h : b < 0x10 ∨ 0x18 ≤ b) :
    (m.writeChecksum w0 w1).read b = m.read b := by
  unfold Memory.writeChecksum Config.ck0Off Config.ck1Off
  rw [Memory.read_writeBe32_outside, Memory.read_writeBe32_outside] <;> omega

theorem Memory.writeChecksum_wf {m : Memory} (w0 w1 : Word) (h : m.wf) : (m.writeChecksum w0 w1).wf :=
  Memory.writeBe32_wf _ _ (Memory.writeBe32_wf _ _ h)

theorem Memory.writeChecksum_inside {m : Memory} {len : Nat} (w0 w1 : Word) (hlen : 0x18 ≤ len)
    (h : m.inside len) : (m.writeChecksum w0 w1).inside len :=
  Memory.writeBe32_inside _ _ (by unfold Config.ck1Off; omega)
    (Memory.writeBe32_inside _ _ (by unfold Config.ck0Off; omega) h)

/-- Everything `FIXCHK` can do. -/
theorem execFixchk_next {s t : State} (h : execFixchk s = .next t) :
    s.startable ∧ s.cfg.crcsDistinct ∧
      ((s.cfg.dstLen < 0x101000 ∧ t = (s.begin false).raise .boundsError s.cfg.dstLen) ∨
        (0x101000 ≤ s.cfg.dstLen ∧ cicOfCrc s.cfg (bootCrc s.dst) = none ∧
          t = ({ s.begin false with crc := bootCrc s.dst } : State).raise .unsupportedBootVariant (bootCrc s.dst).toNat) ∨
        (0x101000 ≤ s.cfg.dstLen ∧
          ∃ v seed, cicOfCrc s.cfg (bootCrc s.dst) = some (v, seed) ∧
            t = publishChecksum (combineRegs (accumulateRegs
              { s.begin false with crc := bootCrc s.dst, variant := v, seed := seed })))) := by
  obtain ⟨hs, h⟩ := startOp_next h
  split at h
  · next hd =>
    cases h
    refine ⟨hs, hd, ?_⟩
    have hcic : cicOfCrc (s.begin false).cfg (bootCrc (s.begin false).dst) = cicOfCrc s.cfg (bootCrc s.dst) := rfl
    unfold fixChecksum
    split
    · next hlt => exact .inl ⟨hlt, rfl⟩
    · next hlt =>
      have hle : 0x101000 ≤ s.cfg.dstLen := Nat.le_of_not_lt hlt
      rw [hcic]
      cases hc : cicOfCrc s.cfg (bootCrc s.dst) with
      | none => exact .inr (.inl ⟨hle, rfl, rfl⟩)
      | some p => exact .inr (.inr ⟨hle, p.1, p.2, rfl, rfl⟩)
  · cases h

end Sys2Proof.Machine
end

