-- ==== Sys2Proof/Laws/HostActions.lean ====
section
/-! SUPPORT. What the host's moves can do, said once. -/

namespace Sys2Proof.Machine

/-- A start that answers a next state found `STATUS` ready and one of the five operations in the registers. -/
theorem hostStart_next {s t : State} (h : hostStart s = .next t) :
    s.ready ∧ (∃ i, decodeOp s.opWords = .ok i) ∧ t = s.begin true := by
  have accept : acceptStart s = .next t → (∃ i, decodeOp s.opWords = .ok i) ∧ t = s.begin true := by
    intro h
    unfold acceptStart fetchOperation at h
    cases hd : decodeOp s.opWords with
    | ok i => rw [hd] at h; cases h; exact ⟨⟨i, rfl⟩, rfl⟩
    | error e =>
      rw [hd] at h
      cases e with
      | truncated =>
        exfalso
        unfold decodeOp decodeSelect at hd
        split_ifs at hd <;> simp at hd
      | reservedOp op => cases h
      | reservedSelect sel => cases h
  unfold hostStart at h
  split at h
  · cases h
  · cases h
  · next hs => exact ⟨.inl hs, accept h⟩
  · next hs => exact ⟨.inr hs, accept h⟩

/-- The start of an operation that the registers hold. -/
theorem hostStart_of_decodeOp {s : State} {i : Instr} (hs : s.ready) (hd : decodeOp s.opWords = .ok i) :
    hostStart s = .next (s.begin true) := by
  rcases hs with hs | hs <;> simp [hostStart, hs, acceptStart, fetchOperation, hd]

theorem hostWriteRegister_next {s u t : State} (h : hostWriteRegister s u = .next t) : s.ready ∧ t = u := by
  unfold hostWriteRegister at h
  split at h
  · cases h
  · cases h
  · next hs => cases h; exact ⟨.inl hs, rfl⟩
  · next hs => cases h; exact ⟨.inr hs, rfl⟩

/-- The host writes a memory only while `STATUS` is not `BUSY`, and only inside it. -/
theorem hostWriteMemory_next {s t : State} {sel : MemSel} {a : Nat} {v : Byte}
    (h : hostWriteMemory sel a v s = .next t) :
    s.status ≠ .busy ∧ a < s.memoryLen sel ∧ t = s.setMemory sel ((s.memory sel).write a v) := by
  unfold hostWriteMemory at h
  split_ifs at h with hb ha
  cases h
  exact ⟨hb, ha, rfl⟩

/-- Everything a move of the host can do: write interface registers, write one byte of a memory, start an operation, or
reset. -/
theorem hostMove_cases {s t : State} (h : HostMove s t) :
    (s.ready ∧ ∃ w : OpWords,
        t = { s with
              op := w.op
              arg0 := w.arg0
              arg1 := w.arg1
              arg2 := w.arg2
              arg3 := w.arg3
              arg4 := w.arg4
              arg5 := w.arg5 }) ∨
      (s.status ≠ .busy ∧ ∃ sel a v, a < s.memoryLen sel ∧ t = s.setMemory sel ((s.memory sel).write a v)) ∨
      (hostStart s = .next t ∧ s.ready ∧ (∃ i, decodeOp s.opWords = .ok i) ∧ t = s.begin true) ∨ t = hostReset s := by
  cases h with
  | writeOp v h =>
    obtain ⟨hs, rfl⟩ := hostWriteRegister_next h
    exact .inl ⟨hs, ⟨v, s.arg0, s.arg1, s.arg2, s.arg3, s.arg4, s.arg5⟩, rfl⟩
  | writeArg k v h =>
    obtain ⟨hs, rfl⟩ := hostWriteRegister_next h
    refine .inl ⟨hs, ?_⟩
    match k with
    | 0 => exact ⟨⟨s.op, v, s.arg1, s.arg2, s.arg3, s.arg4, s.arg5⟩, rfl⟩
    | 1 => exact ⟨⟨s.op, s.arg0, v, s.arg2, s.arg3, s.arg4, s.arg5⟩, rfl⟩
    | 2 => exact ⟨⟨s.op, s.arg0, s.arg1, v, s.arg3, s.arg4, s.arg5⟩, rfl⟩
    | 3 => exact ⟨⟨s.op, s.arg0, s.arg1, s.arg2, v, s.arg4, s.arg5⟩, rfl⟩
    | 4 => exact ⟨⟨s.op, s.arg0, s.arg1, s.arg2, s.arg3, v, s.arg5⟩, rfl⟩
    | 5 => exact ⟨⟨s.op, s.arg0, s.arg1, s.arg2, s.arg3, s.arg4, v⟩, rfl⟩
  | writeOpWords w h =>
    obtain ⟨hs, rfl⟩ := hostWriteRegister_next h
    exact .inl ⟨hs, w, rfl⟩
  | writeMemory sel a v h =>
    obtain ⟨hb, ha, rfl⟩ := hostWriteMemory_next h
    exact .inr (.inl ⟨hb, sel, a, v, ha, rfl⟩)
  | start h => exact .inr (.inr (.inl ⟨h, hostStart_next h⟩))
  | reset h => exact .inr (.inr (.inr h))

end Sys2Proof.Machine
end

