-- ==== Sys2Proof/Laws/Lz.lean ====
section
/-! SUPPORT. What the LZ decoder's instructions can do, said once each. -/

namespace Sys2Proof.Machine

/-- A stream command answers a next state exactly when it is due, and then the state its effect ends in. -/
theorem streamCommand_next {due : Prop} [Decidable due] {e : Effect} {t : State} :
    streamCommand due e = .next t ↔ due ∧ t = e.state := by
  unfold streamCommand
  split <;> simp_all [eq_comm]

theorem streamCommand_of_due {due : Prop} [Decidable due] (e : Effect) (h : due) :
    streamCommand due e = .next e.state := by rw [streamCommand, if_pos h]

/-- Everything a due `CTL` can do. -/
theorem execCtl_next {s t : State} {flags : Byte} (h : execCtl flags s = .next t) :
    s.controlDue ∧
      ((s.inSource s.sp ∧ t = { s with sp := s.sp + 1, ctl := flags, nbits := 8 }) ∨
        (¬ s.inSource s.sp ∧ t = s.raise .truncatedStream s.sp)) := by
  obtain ⟨hdue, rfl⟩ := streamCommand_next.mp h
  refine ⟨hdue, ?_⟩
  by_cases hin : s.inSource s.sp
  · exact .inl ⟨hin, by simp [consume, srcByte_inside hin, loadControl]⟩
  · exact .inr ⟨hin, by simp [consume, srcByte_outside hin]⟩

/-- Everything a due `LIT` can do. -/
theorem execLit_next {s t : State} {v : Byte} (h : execLit v s = .next t) :
    s.literalDue ∧
      ((s.inSource s.sp ∧ s.dstBase.toNat + s.dp < s.cfg.dstLen ∧
          t = { s with
                sp := s.sp + 1
                dst := s.dst.write (s.dstBase.toNat + s.dp) v
                dp := s.dp + 1
                ctl := s.ctl <<< 1
                nbits := s.nbits - 1 }) ∨
        (s.inSource s.sp ∧ s.cfg.dstLen ≤ s.dstBase.toNat + s.dp ∧
          t = ({ s with sp := s.sp + 1 } : State).raise .outputOverrun s.dp) ∨
        (¬ s.inSource s.sp ∧ t = s.raise .truncatedStream s.sp)) := by
  obtain ⟨hdue, rfl⟩ := streamCommand_next.mp h
  refine ⟨hdue, ?_⟩
  by_cases hin : s.inSource s.sp
  · by_cases hr : s.dstBase.toNat + s.dp < s.cfg.dstLen
    · refine .inl ⟨hin, hr, ?_⟩
      have hroom : s.dp < s.size.toNat ∧ s.dstBase.toNat + s.dp < s.cfg.dstLen := ⟨hdue.1.2.2, hr⟩
      simp [consume, srcByte_inside hin, dstWrite, hroom, shiftControl]
    · refine .inr (.inl ⟨hin, by omega, ?_⟩)
      have hroom : ¬ (s.dp < s.size.toNat ∧ s.dstBase.toNat + s.dp < s.cfg.dstLen) := fun h => hr h.2
      simp only [consume, srcByte_inside hin, Effect.andThen_ok, dstWrite, if_neg hroom, Effect.andThen_error,
        Effect.state_error]
  · exact .inr (.inr ⟨hin, by simp [consume, srcByte_outside hin]⟩)

/-- Everything a back-reference can do once it is due: its payload is cut off, or it writes `k` bytes and either that is
its whole length or it raises `OutputOverrun` or `BoundsError`, with the control byte unshifted. -/
theorem backReference_cases (bytes offset length : Nat) (s : State) :
    (∃ k, k < bytes ∧ (∀ j, j < k → s.inSource (s.sp + j)) ∧ ¬ s.inSource (s.sp + k) ∧
        (backReference bytes offset length s).state =
          ({ s with sp := s.sp + k } : State).raise .truncatedStream (s.sp + k)) ∨
      ((∀ j, j < bytes → s.inSource (s.sp + j)) ∧
        ∃ m k, k ≤ length ∧
          (∀ a, a < s.dstBase.toNat + s.dp ∨ s.dstBase.toNat + s.dp + k ≤ a → m.read a = s.dst.read a) ∧
          (s.dst.wf → m.wf) ∧ (s.dst.inside s.cfg.dstLen → m.inside s.cfg.dstLen) ∧
          (k = 0 ∨ (s.dp + k ≤ s.size.toNat ∧ s.dstBase.toNat + s.dp + k ≤ s.cfg.dstLen)) ∧
          ((k = length ∧
              (backReference bytes offset length s).state =
                { s with
                  sp := s.sp + bytes
                  dst := m
                  dp := s.dp + k
                  ctl := s.ctl <<< 1
                  nbits := s.nbits - 1 }) ∨
            ∃ c, (c = .outputOverrun ∨ c = .boundsError) ∧
              (backReference bytes offset length s).state =
                ({ s with sp := s.sp + bytes, dst := m, dp := s.dp + k } : State).raise c (s.dp + k))) := by
  rcases inSource_or_cut s bytes with hall | ⟨k, hk, hbefore, hcut⟩
  · refine .inr ⟨hall, ?_⟩
    obtain ⟨m, k, hk, hout, hwf, hins, hfit, hend⟩ := copy_cases offset length { s with sp := s.sp + bytes }
    refine ⟨m, k, hk, hout, hwf, hins, hfit, ?_⟩
    simp only [backReference, consume_inside _ _ hall, Effect.andThen_ok]
    rcases hend with ⟨rfl, hend⟩ | ⟨c, hc, hend⟩
    · exact .inl ⟨rfl, by rw [hend]; rfl⟩
    · exact .inr ⟨c, hc, by rw [hend]; rfl⟩
  · exact .inl ⟨k, hk, hbefore, hcut, by simp [backReference, consume_cut _ _ _ hk hbefore hcut]⟩

theorem execRefs_next {s t : State} {n : BitVec 4} {d : BitVec 12} (h : execRefs n d s = .next t) :
    n ≠ 0#4 ∧ s.backRefDue ∧ t = (backReference 2 (backOffset d) (refsLength n) s).state := by
  unfold execRefs at h
  split at h
  · cases h
  · next hn => exact ⟨hn, streamCommand_next.mp h⟩

theorem execRefl_next {s t : State} {d : BitVec 12} {extra : Byte} (h : execRefl d extra s = .next t) :
    s.backRefDue ∧ t = (backReference 3 (backOffset d) (reflLength extra) s).state :=
  streamCommand_next.mp h

theorem execLzdec_next {s t : State} {a b c n : Word} (h : execLzdec a b c n s = .next t) :
    s.startable ∧ t = lzdecInit a b c n (s.begin false) := by
  obtain ⟨hs, h⟩ := startOp_next h
  cases h
  exact ⟨hs, rfl⟩

end Sys2Proof.Machine
end

