-- ==== Sys2Proof/Laws/PerInstr.lean ====
section
/-! SUPPORT. One family of statements made per instruction: where an encoding stands and how long it is. -/

namespace Sys2Proof.Laws

/-- The encoding of an instruction is of the level that runs it: a stream command's payload has the bytes that the
command consumes (spec 30_encoding.md R68), and a host operation consumes none and has one of the codes 1 to 5 (R73). -/
def EncodedLength.Statement (i : Instr) : Prop :=
  match encode i with
  | .control bytes => bytes.length = i.streamBytes ∧ i.streamBytes = 1
  | .command flag bytes => bytes.length = i.streamBytes ∧ (flag = true ↔ i.streamBytes = 1) ∧ i.streamBytes ≤ 3
  | .operation words => i.streamBytes = 0 ∧ 1 ≤ words.op.toNat ∧ words.op.toNat ≤ 5

theorem EncodedLength.ctl (flags : BitVec 8) : EncodedLength.Statement (.ctl flags) := ⟨rfl, rfl⟩

theorem EncodedLength.lit (v : BitVec 8) : EncodedLength.Statement (.lit v) :=
  ⟨rfl, ⟨fun _ => rfl, fun _ => rfl⟩, (by decide : 1 ≤ 3)⟩

theorem EncodedLength.refs (n : BitVec 4) (distance : BitVec 12) : EncodedLength.Statement (.refs n distance) :=
  ⟨rfl, (by decide : false = true ↔ 2 = 1), (by decide : 2 ≤ 3)⟩

theorem EncodedLength.refl (distance : BitVec 12) (extra : BitVec 8) :
    EncodedLength.Statement (.refl distance extra) :=
  ⟨rfl, (by decide : false = true ↔ 3 = 1), Nat.le_refl 3⟩

theorem EncodedLength.locate : EncodedLength.Statement .locate := ⟨rfl, by decide, by decide⟩

theorem EncodedLength.tdec (sel : MemSel) (base index : BitVec 32) : EncodedLength.Statement (.tdec sel base index) :=
  match sel with
  | .src => ⟨rfl, (by decide : 1 ≤ 2), (by decide : 2 ≤ 5)⟩
  | .dst => ⟨rfl, (by decide : 1 ≤ 2), (by decide : 2 ≤ 5)⟩

theorem EncodedLength.tenc (base index startVirtual endVirtual startPhysical endPhysical : BitVec 32) :
    EncodedLength.Statement (.tenc base index startVirtual endVirtual startPhysical endPhysical) :=
  ⟨rfl, (by decide : 1 ≤ 3), (by decide : 3 ≤ 5)⟩

theorem EncodedLength.lzdec (srcBase srcLimit dstBase size : BitVec 32) :
    EncodedLength.Statement (.lzdec srcBase srcLimit dstBase size) :=
  ⟨rfl, (by decide : 1 ≤ 4), (by decide : 4 ≤ 5)⟩

theorem EncodedLength.fixchk : EncodedLength.Statement .fixchk := ⟨rfl, by decide, by decide⟩

end Sys2Proof.Laws
end

