-- ==== Sys2Proof/Laws/TableParser.lean ====
section
/-! SUPPORT. What the table parser's operations can do, said once each. -/

namespace Sys2Proof.Machine

/-- The scan stops at a stride of the sequence `a, a + 16, ...`; every stride before it was whole and failed the test; and
if it did not run out of tests, it stopped because its stride passes or is not whole. -/
theorem scan_spec (test : Nat → Bool) (len strides a : Nat) :
    a ≤ scan test len strides a ∧ scan test len strides a % 16 = a % 16 ∧
      (∀ x, x % 16 = a % 16 → a ≤ x → x < scan test len strides a → x + 16 ≤ len ∧ test x = false) ∧
      (scan test len strides a = a + 16 * strides ∨
        (scan test len strides a + 16 ≤ len → test (scan test len strides a) = true)) := by
  induction strides generalizing a with
  | zero => exact ⟨Nat.le_refl _, rfl, fun x _ h1 h2 => absurd h2 (by simp only [scan]; omega), .inl rfl⟩
  | succ n ih =>
    have stop : ∀ P : Prop, ∀ x, a ≤ x → x < a → P := fun _ x h1 h2 => absurd h1 (by omega)
    by_cases hlen : a + 16 ≤ len
    · by_cases ht : test a = true
      · have he : scan test len (n + 1) a = a := by rw [scan, if_pos (show a + Config.entryBytes ≤ len from hlen), if_pos ht]
        rw [he]
        exact ⟨Nat.le_refl _, rfl, fun x _ h1 h2 => stop _ x h1 h2, .inr fun _ => ht⟩
      · have he : scan test len (n + 1) a = scan test len n (a + 16) := by
          rw [scan, if_pos (show a + Config.entryBytes ≤ len from hlen), if_neg ht]; rfl
        rw [he]
        obtain ⟨h1, h2, h3, h4⟩ := ih (a + 16)
        refine ⟨by omega, by omega, fun x hx hax hxq => ?_, ?_⟩
        · by_cases hxa : x = a
          · subst hxa; exact ⟨hlen, by simpa using ht⟩
          · exact h3 x (by omega) (by omega) hxq
        · rcases h4 with h4 | h4
          · exact .inl (by omega)
          · exact .inr h4
    · have he : scan test len (n + 1) a = a := by rw [scan, if_neg (show ¬ a + Config.entryBytes ≤ len from hlen)]
      rw [he]
      exact ⟨Nat.le_refl _, rfl, fun x _ h1 h2 => stop _ x h1 h2, .inr fun h => absurd h hlen⟩

/-- The whole-memory scan: the first stride from `a` on that passes the test, or else the first that is not whole. -/
theorem scanFrom_spec (test : Nat → Bool) (len a : Nat) :
    a ≤ scanFrom test len a ∧ scanFrom test len a % 16 = a % 16 ∧
      (∀ x, x % 16 = a % 16 → a ≤ x → x < scanFrom test len a → x + 16 ≤ len ∧ test x = false) ∧
      (scanFrom test len a + 16 ≤ len → test (scanFrom test len a) = true) := by
  obtain ⟨h1, h2, h3, h4⟩ := scan_spec test len (len / Config.entryBytes + 1) a
  refine ⟨h1, h2, h3, fun hw => ?_⟩
  rcases h4 with h4 | h4
  · change scan _ _ _ _ + 16 ≤ len at hw
    simp only [Config.entryBytes] at *
    omega
  · exact h4 hw

/-- If `q` is a stride that passes and none before it does, the scan finds it. -/
theorem scanFrom_eq {test : Nat → Bool} {len a q : Nat} (haq : a ≤ q) (hmod : q % 16 = a % 16) (hq : q + 16 ≤ len)
    (ht : test q = true) (hbefore : ∀ x, x % 16 = a % 16 → a ≤ x → x < q → test x = false) :
    scanFrom test len a = q := by
  obtain ⟨h1, h2, h3, h4⟩ := scanFrom_spec test len a
  rcases Nat.lt_trichotomy (scanFrom test len a) q with h | h | h
  · have := hbefore _ h2 h1 h
    rw [h4 (by omega)] at this
    cases this
  · exact h
  · have := (h3 q hmod haq h).2
    rw [ht] at this
    cases this

/-- If no stride from `a` on passes, the scan ends at the first stride that is not whole. -/
theorem scanFrom_none {test : Nat → Bool} {len a : Nat}
    (hnone : ∀ x, x % 16 = a % 16 → a ≤ x → x + 16 ≤ len → test x = false) : ¬ scanFrom test len a + 16 ≤ len := by
  obtain ⟨h1, h2, _, h4⟩ := scanFrom_spec test len a
  intro h
  have := hnone _ h2 h1 h
  rw [h4 h] at this
  cases this

theorem isCandidate_iff (m : Memory) (o : Nat) : isCandidate m o = true ↔ CandidateHeader m o := by
  simp [isCandidate, CandidateHeader, Config.magic0, Config.magic1, Config.magic2Hi, and_assoc]

theorem isSentinel_iff (m : Memory) (p : Nat) : isSentinel m p = true ↔ m.be32 p = 0x00001060#32 := by
  simp [isSentinel, Config.sentinel]

/-- Everything phase B can do. -/
theorem locatePhaseB_cases (s : State) :
    ∃ q, q = scanFrom (isSentinel s.src) s.cfg.srcLen s.p ∧
      ((q + 16 ≤ s.cfg.srcLen ∧ locatePhaseB s = (({ s with p := q } : State).complete).setRes0 (q - 16)) ∨
        (¬ q + 16 ≤ s.cfg.srcLen ∧ locatePhaseB s = ({ s with p := q } : State).raise .tableNotFound 1)) := by
  refine ⟨_, rfl, ?_⟩
  by_cases h : scanFrom (isSentinel s.src) s.cfg.srcLen s.p + Config.entryBytes ≤ s.cfg.srcLen
  · exact .inl ⟨h, if_pos h⟩
  · exact .inr ⟨h, if_neg h⟩

/-- Everything phase A can do. -/
theorem locatePhaseA_cases (s : State) :
    ∃ q, q = scanFrom (isCandidate s.src) s.cfg.srcLen s.o ∧
      ((q + 16 ≤ s.cfg.srcLen ∧ locatePhaseA s = locatePhaseB { s with o := q, p := q + 16, phase := .b }) ∨
        (¬ q + 16 ≤ s.cfg.srcLen ∧ locatePhaseA s = ({ s with o := q } : State).raise .tableNotFound 0)) := by
  refine ⟨_, rfl, ?_⟩
  by_cases h : scanFrom (isCandidate s.src) s.cfg.srcLen s.o + Config.entryBytes ≤ s.cfg.srcLen
  · exact .inl ⟨h, if_pos h⟩
  · exact .inr ⟨h, if_neg h⟩

/-- Everything `LOCATE` can do. -/
theorem execLocate_next {s t : State} (h : execLocate s = .next t) :
    s.startable ∧
      ∃ q, q = scanFrom (isCandidate s.src) s.cfg.srcLen 0 ∧
        ((q + 16 ≤ s.cfg.srcLen ∧ t = locatePhaseB { s.begin false with o := q, p := q + 16, phase := .b }) ∨
          (¬ q + 16 ≤ s.cfg.srcLen ∧
            t = ({ s.begin false with o := q, phase := .a } : State).raise .tableNotFound 0)) := by
  obtain ⟨hs, h⟩ := startOp_next h
  cases h
  refine ⟨hs, _, rfl, ?_⟩
  by_cases hq : scanFrom (isCandidate s.src) s.cfg.srcLen 0 + Config.entryBytes ≤ s.cfg.srcLen
  · exact .inl ⟨hq, if_pos hq⟩
  · exact .inr ⟨hq, if_neg hq⟩

theorem execTdec_next {s t : State} {sel : MemSel} {base index : Word} (h : execTdec sel base index s = .next t) :
    s.startable ∧
      ((recordAddr base index + 16 ≤ s.memoryLen sel ∧
          t = readRecord (s.memory sel) (recordAddr base index) (s.begin false)) ∨
        (s.memoryLen sel < recordAddr base index + 16 ∧ t = (s.begin false).raise .boundsError (recordAddr base index))) := by
  obtain ⟨hs, h⟩ := startOp_next h
  cases h
  refine ⟨hs, ?_⟩
  have hm : (s.begin false).memory sel = s.memory sel := by cases sel <;> rfl
  have hl : (s.begin false).memoryLen sel = s.memoryLen sel := by cases sel <;> rfl
  unfold tableDecode
  rw [hm, hl]
  split
  · next hle => exact .inl ⟨hle, rfl⟩
  · next hle => exact .inr ⟨by simp only [Config.entryBytes] at hle; omega, rfl⟩

theorem execTenc_next {s t : State} {base index sv ev sp ep : Word}
    (h : execTenc base index sv ev sp ep s = .next t) :
    s.startable ∧
      ((recordAddr base index + 16 ≤ s.cfg.dstLen ∧
          t = ({ s.begin false with dst := s.dst.writeRecord (recordAddr base index) sv ev sp ep } : State).complete) ∨
        (s.cfg.dstLen < recordAddr base index + 16 ∧ t = (s.begin false).raise .boundsError (recordAddr base index))) := by
  obtain ⟨hs, h⟩ := startOp_next h
  cases h
  refine ⟨hs, ?_⟩
  unfold tableEncode
  split
  · next hle => exact .inl ⟨hle, rfl⟩
  · next hle =>
    refine .inr ⟨?_, rfl⟩
    have : ¬ recordAddr base index + 16 ≤ s.cfg.dstLen := hle
    omega

/-- A record write leaves every byte outside its 16 as it was. -/
theorem Memory.read_writeRecord_outside (m : Memory) {a b : Nat} (sv ev sp ep : Word) (h : b < a ∨ a + 16 ≤ b) :
    (m.writeRecord a sv ev sp ep).read b = m.read b := by
  unfold Memory.writeRecord
  rw [Memory.read_writeBe32_outside, Memory.read_writeBe32_outside, Memory.read_writeBe32_outside,
    Memory.read_writeBe32_outside] <;> omega

theorem Memory.writeRecord_wf {m : Memory} (a : Nat) (sv ev sp ep : Word) (h : m.wf) :
    (m.writeRecord a sv ev sp ep).wf :=
  Memory.writeBe32_wf _ _ (Memory.writeBe32_wf _ _ (Memory.writeBe32_wf _ _ (Memory.writeBe32_wf _ _ h)))

theorem Memory.writeRecord_inside {m : Memory} {len : Nat} (a : Nat) (sv ev sp ep : Word) (ha : a + 16 ≤ len)
    (h : m.inside len) : (m.writeRecord a sv ev sp ep).inside len :=
  Memory.writeBe32_inside _ _ (by omega) <| Memory.writeBe32_inside _ _ (by omega) <|
    Memory.writeBe32_inside _ _ (by omega) <| Memory.writeBe32_inside _ _ (by omega) h

end Sys2Proof.Machine
end

