-- ==== Sys2Proof/Laws/Step.lean ====
section
/-! SUPPORT. What one step can do, said once: every statement about a step follows from `step_cases`. -/

namespace Sys2Proof.Machine

/-- The bytes a command may be decoded from are the source bytes from `a` on, up to the first outside the source. -/
theorem State.available_getElem (s : State) (n a k : Nat) (h : k < (s.available n a).length) :
    (s.available n a)[k] = s.src.read (a + k) ∧ s.inSource (a + k) := by
  induction n generalizing a k with
  | zero => simp [State.available] at h
  | succ n ih =>
    by_cases hin : s.inSource a
    · have hav : s.available (n + 1) a = s.src.read a :: s.available n (a + 1) := by
        rw [State.available, if_pos hin]
      simp only [hav] at h ⊢
      cases k with
      | zero => exact ⟨rfl, hin⟩
      | succ k =>
        have := ih (a + 1) k (by simpa using h)
        rwa [show a + 1 + k = a + (k + 1) by omega] at this
    · have hav : s.available (n + 1) a = [] := by rw [State.available, if_neg hin]
      simp [hav] at h

/-- They stop at `n` bytes or at the first byte outside the source. -/
theorem State.available_end (s : State) (n a : Nat) :
    (s.available n a).length = n ∨ ((s.available n a).length < n ∧ ¬ s.inSource (a + (s.available n a).length)) := by
  induction n generalizing a with
  | zero => exact .inl rfl
  | succ n ih =>
    by_cases hin : s.inSource a
    · have hav : s.available (n + 1) a = s.src.read a :: s.available n (a + 1) := by
        rw [State.available, if_pos hin]
      rw [hav, List.length_cons]
      rcases ih (a + 1) with h | ⟨h1, h2⟩
      · exact .inl (by omega)
      · refine .inr ⟨by omega, ?_⟩
        rwa [show a + 1 + (s.available n (a + 1)).length = a + ((s.available n (a + 1)).length + 1) by omega] at h2
    · have hav : s.available (n + 1) a = [] := by rw [State.available, if_neg hin]
      rw [hav]
      exact .inr ⟨by simp, by simpa using hin⟩

/-- If the first `n` source bytes are inside the source, they are available. -/
theorem State.available_eq (s : State) (n a : Nat) (h : ∀ j, j < n → s.inSource (a + j)) :
    (s.available n a).length = n := by
  rcases s.available_end n a with h1 | ⟨h1, h2⟩
  · exact h1
  · exact absurd (h _ h1) h2

/-- Everything a step that answers a next state can be: nothing to do, the completion of `LZDEC`, a cut-off command, a stream
command that is due, or a started host operation. -/
theorem step_cases {s t : State} (h : step s = .next t) :
    (s.status ≠ .busy ∧ t = s) ∨
      (s.start = false ∧ s.status = .busy ∧ s.size.toNat ≤ s.dp ∧ t = lzdecComplete s) ∨
      (s.start = false ∧ s.status = .busy ∧ s.dp < s.size.toNat ∧ (∃ e, s.decodeNext = .error e) ∧ t = s.cutOff) ∨
      (s.start = false ∧ s.status = .busy ∧ s.dp < s.size.toNat ∧
        ∃ i rest, s.decodeNext = .ok (i, rest) ∧ exec i s = .next t) ∨
      (s.start = true ∧ s.status = .busy ∧ ∃ i, decodeOp s.opWords = .ok i ∧ exec i s = .next t) := by
  have op : (match fetchOperation s with
        | .run i => exec i s
        | .settle u => .next u
        | .refuse r => .refused r) = Host.Outcome.next t →
      ∃ i, decodeOp s.opWords = .ok i ∧ exec i s = .next t := by
    intro hst
    unfold fetchOperation at hst
    cases hd : decodeOp s.opWords with
    | ok i => rw [hd] at hst; exact ⟨i, rfl, hst⟩
    | error e =>
      rw [hd] at hst
      cases e with
      | truncated =>
        exfalso
        unfold decodeOp decodeSelect at hd
        split_ifs at hd <;> simp at hd
      | reservedOp op => cases hst
      | reservedSelect sel => cases hst
  unfold step at h
  cases hstatus : s.status with
  | busy =>
    cases hstart : s.start with
    | true =>
      simp only [fetch, hstatus, hstart, if_true] at h
      exact .inr (.inr (.inr (.inr ⟨rfl, rfl, op h⟩)))
    | false =>
      simp only [fetch, hstatus, hstart, Bool.false_eq_true, if_false, fetchCommand] at h
      by_cases hdp : s.dp < s.size.toNat
      · rw [if_pos hdp] at h
        cases hd : s.decodeNext with
        | ok p =>
          rw [hd] at h
          exact .inr (.inr (.inr (.inl ⟨rfl, rfl, hdp, p.1, p.2, rfl, h⟩)))
        | error e =>
          rw [hd] at h
          cases h
          exact .inr (.inr (.inl ⟨rfl, rfl, hdp, ⟨e, rfl⟩, rfl⟩))
      · rw [if_neg hdp] at h
        cases h
        exact .inr (.inl ⟨rfl, rfl, by omega, rfl⟩)
  | idle => simp only [fetch, hstatus] at h; cases h; exact .inl ⟨by simp, rfl⟩
  | done => simp only [fetch, hstatus] at h; cases h; exact .inl ⟨by simp, rfl⟩
  | fault => simp only [fetch, hstatus] at h; cases h; exact .inl ⟨by simp, rfl⟩

/-- While no operation runs, a step changes nothing. -/
theorem step_of_not_busy {s : State} (h : s.status ≠ .busy) : step s = .next s := by
  unfold step fetch
  cases hs : s.status with
  | busy => exact absurd hs h
  | idle => rfl
  | done => rfl
  | fault => rfl

/-- A running `LZDEC` fetches. -/
theorem step_of_busy {s : State} (hb : s.status = .busy) (hst : s.start = false) :
    step s =
      match fetchCommand s with
      | .run i => exec i s
      | .settle t => .next t
      | .refuse r => .refused r := by
  unfold step; simp only [fetch, hb, hst, Bool.false_eq_true, if_false] <;> rfl

/-- A command that decodes is run. -/
theorem step_of_decodeNext {s : State} {i : Instr} {rest : List Byte} (hb : s.status = .busy)
    (hst : s.start = false) (hdp : s.dp < s.size.toNat) (hd : s.decodeNext = .ok (i, rest)) : step s = exec i s := by
  rw [step_of_busy hb hst, fetchCommand, if_pos hdp, hd]

/-- A started operation that decodes is run. -/
theorem step_of_decodeOp {s : State} {i : Instr} (hb : s.status = .busy) (hst : s.start = true)
    (hd : decodeOp s.opWords = .ok i) : step s = exec i s := by
  simp only [step, fetch, fetchOperation, hb, hst, hd, if_true]

/-- What the decoder reads from the stream is one of the four stream commands, and which kind follows from `nbits` and
the flag. -/
theorem decodeNext_cases {s : State} {i : Instr} {rest : List Byte} (h : s.decodeNext = .ok (i, rest)) :
    (s.nbits = 0 ∧ ∃ f, i = .ctl f) ∨ (s.nbits ≠ 0 ∧ s.flag = true ∧ ∃ v, i = .lit v) ∨
      (s.nbits ≠ 0 ∧ s.flag = false ∧ ((∃ n d, n ≠ 0#4 ∧ i = .refs n d) ∨ ∃ d e, i = .refl d e)) := by
  unfold State.decodeNext at h
  by_cases hn : s.nbits = 0
  · rw [if_pos hn] at h
    refine .inl ⟨hn, ?_⟩
    unfold decodeControl at h
    split at h
    · cases h; exact ⟨_, rfl⟩
    · cases h
  · rw [if_neg hn] at h
    cases hf : s.flag with
    | true =>
      rw [hf] at h
      refine .inr (.inl ⟨hn, rfl, ?_⟩)
      unfold decodeCommand at h
      split at h
      · cases h; exact ⟨_, rfl⟩
      · cases h
      · contradiction
    | false =>
      rw [hf] at h
      refine .inr (.inr ⟨hn, rfl, ?_⟩)
      simp only [decodeCommand] at h
      unfold decodeBackRef at h
      split at h
      · split at h
        · split at h
          · cases h; exact .inr ⟨_, _, rfl⟩
          · cases h
        · next hl =>
          cases h
          exact .inl ⟨_, _, hl, rfl⟩
      · cases h

/-- The operations that the interface registers decode to, with the operation code of each. -/
theorem decodeOp_cases {w : OpWords} {i : Instr} (h : decodeOp w = .ok i) :
    (w.op = 1#32 ∧ i = .locate) ∨ (w.op = 2#32 ∧ ∃ sel, i = .tdec sel w.arg1 w.arg2) ∨
      (w.op = 3#32 ∧ i = .tenc w.arg0 w.arg1 w.arg2 w.arg3 w.arg4 w.arg5) ∨
      (w.op = 4#32 ∧ i = .lzdec w.arg0 w.arg1 w.arg2 w.arg3) ∨ (w.op = 5#32 ∧ i = .fixchk) := by
  unfold decodeOp at h
  split_ifs at h with h1 h2 h3 h4 h5
  · cases h; exact .inl ⟨h1, rfl⟩
  · split at h
    · cases h; exact .inr (.inl ⟨h2, _, rfl⟩)
    · cases h
  · cases h; exact .inr (.inr (.inl ⟨h3, rfl⟩))
  · cases h; exact .inr (.inr (.inr (.inl ⟨h4, rfl⟩)))
  · cases h; exact .inr (.inr (.inr (.inr ⟨h5, rfl⟩)))

/-- A step of a running `LZDEC` always answers a next state: the command it decodes is due. -/
theorem busyStep_next {s : State} (hb : s.status = .busy) (hst : s.start = false) : ∃ t, step s = .next t := by
  by_cases hdp : s.dp < s.size.toNat
  · cases hd : s.decodeNext with
    | error e => exact ⟨s.cutOff, by rw [step_of_busy hb hst, fetchCommand, if_pos hdp, hd]⟩
    | ok p =>
      rw [step_of_decodeNext hb hst hdp hd]
      have hdec : s.decoding := ⟨hb, hst, hdp⟩
      rcases decodeNext_cases hd with ⟨hn, f, hi⟩ | ⟨hn, hf, v, hi⟩ | ⟨hn, hf, ⟨n, d, h0, hi⟩ | ⟨d, e, hi⟩⟩
      · rw [hi]; exact ⟨_, streamCommand_of_due _ ⟨hdec, hn⟩⟩
      · rw [hi]; exact ⟨_, streamCommand_of_due _ ⟨hdec, hn, hf⟩⟩
      · rw [hi, exec, execRefs, if_neg h0]; exact ⟨_, streamCommand_of_due _ ⟨hdec, hn, hf⟩⟩
      · rw [hi]; exact ⟨_, streamCommand_of_due _ ⟨hdec, hn, hf⟩⟩
  · exact ⟨lzdecComplete s, by rw [step_of_busy hb hst, fetchCommand, if_neg hdp]⟩

/-- A memory `m` that differs from DST only in `k` bytes at the destination cursor, all of them inside `size` and DST. -/
structure WroteAtCursor (s : State) (m : Memory) (k : Nat) : Prop where
  frame : ∀ a, a < s.dstBase.toNat + s.dp ∨ s.dstBase.toNat + s.dp + k ≤ a → m.read a = s.dst.read a
  canonical : s.dst.wf → m.wf
  bounded : s.dst.inside s.cfg.dstLen → m.inside s.cfg.dstLen
  fits : k = 0 ∨ (s.dp + k ≤ s.size.toNat ∧ s.dstBase.toNat + s.dp + k ≤ s.cfg.dstLen)

theorem WroteAtCursor.none (s : State) : WroteAtCursor s s.dst 0 := ⟨fun _ _ => rfl, id, id, .inl rfl⟩

theorem WroteAtCursor.byte {s : State} (v : Byte) (h1 : s.dp < s.size.toNat)
    (h2 : s.dstBase.toNat + s.dp < s.cfg.dstLen) :
    WroteAtCursor s (s.dst.write (s.dstBase.toNat + s.dp) v) 1 :=
  ⟨fun a ha => Memory.read_write_ne _ _ (by omega), Memory.write_wf _ _, Memory.write_inside _ _ h2,
    .inr ⟨by omega, by omega⟩⟩

/-- `t` is `s` after a command other than `CTL` that completed: it consumed 1 to 3 bytes, wrote 1 to 273 bytes at the
destination cursor, and shifted the control byte. -/
def CommandDone (s t : State) : Prop :=
  ∃ used m k, 1 ≤ used ∧ used ≤ 3 ∧ 1 ≤ k ∧ k ≤ 273 ∧ WroteAtCursor s m k ∧ (∀ j, j < used → s.inSource (s.sp + j)) ∧
    t = { s with sp := s.sp + used, dst := m, dp := s.dp + k, ctl := s.ctl <<< 1, nbits := s.nbits - 1 }

/-- `t` is `s` after a command that raised one of the decoder's three faults: it consumed up to 3 bytes and wrote up to
273 bytes at the destination cursor, none if a control byte was due. -/
def CommandFaulted (s t : State) : Prop :=
  ∃ used m k c info, used ≤ 3 ∧ k ≤ 273 ∧ (s.nbits = 0 → k = 0) ∧ WroteAtCursor s m k ∧
    (∀ j, j < used → s.inSource (s.sp + j)) ∧ (c = .truncatedStream ∨ c = .outputOverrun ∨ c = .boundsError) ∧
    t = ({ s with sp := s.sp + used, dst := m, dp := s.dp + k } : State).raise c info

/-- A back-reference that is due completes or faults. -/
theorem backReference_step {bytes offset length : Nat} {s : State} (hb : 1 ≤ bytes) (hb3 : bytes ≤ 3)
    (hl : 1 ≤ length) (hl3 : length ≤ 273) (hn : s.nbits ≠ 0) :
    CommandDone s (backReference bytes offset length s).state ∨
      CommandFaulted s (backReference bytes offset length s).state := by
  rcases backReference_cases bytes offset length s with
    ⟨k, hk, hin, _, he⟩ | ⟨hin, m, k, hk, hf, hw, hi, hfit, hend⟩
  · exact .inr ⟨k, s.dst, 0, _, _, by omega, by omega, fun h => absurd h hn, .none s, hin, .inl rfl, he⟩
  · rcases hend with ⟨rfl, he⟩ | ⟨c, hc, he⟩
    · exact .inl ⟨bytes, m, k, hb, hb3, hl, hl3, ⟨hf, hw, hi, hfit⟩, hin, he⟩
    · exact .inr ⟨bytes, m, k, c, _, hb3, by omega, fun h => absurd h hn, ⟨hf, hw, hi, hfit⟩, hin, .inr hc, he⟩

/-- The first byte of a command is not in the source. -/
theorem CommandFaulted.at_first_byte (s : State) (info : Nat) : CommandFaulted s (s.raise .truncatedStream info) :=
  ⟨0, s.dst, 0, _, info, by omega, by omega, fun _ => rfl, .none s, fun j hj => absurd hj (Nat.not_lt_zero j),
    .inl rfl, rfl⟩

/-- Everything a step of a running `LZDEC` can do: complete, fetch a control byte, run a command, or fault. -/
theorem busyStep_cases {s t : State} (hb : s.status = .busy) (hst : s.start = false) (h : step s = .next t) :
    (s.size.toNat ≤ s.dp ∧ t = lzdecComplete s) ∨
      (s.dp < s.size.toNat ∧ s.nbits = 0 ∧ s.inSource s.sp ∧
        ∃ flags, t = { s with sp := s.sp + 1, ctl := flags, nbits := 8 }) ∨
      (s.dp < s.size.toNat ∧ s.nbits ≠ 0 ∧ CommandDone s t) ∨ (s.dp < s.size.toNat ∧ CommandFaulted s t) := by
  rcases step_cases h with ⟨hnb, _⟩ | ⟨_, _, hdp, ht⟩ | ⟨_, _, hdp, ⟨e, he⟩, ht⟩ | ⟨_, _, hdp, i, rest, hd, hx⟩ |
    ⟨ht, _⟩
  · exact absurd hb hnb
  · exact .inl ⟨hdp, ht⟩
  · have hlen : s.commandBytes.length ≤ 3 := by
      have := s.available_end 3 s.sp
      change (s.available 3 s.sp).length ≤ 3
      omega
    exact .inr (.inr (.inr ⟨hdp, _, s.dst, 0, _, _, hlen, by omega, fun _ => rfl, .none s,
      fun j hj => (s.available_getElem 3 s.sp j hj).2, .inl rfl, ht⟩))
  · rcases decodeNext_cases hd with ⟨hn, f, rfl⟩ | ⟨hn, _, v, rfl⟩ | ⟨hn, _, ⟨n, d, _, rfl⟩ | ⟨d, e, rfl⟩⟩
    · obtain ⟨_, ⟨hin, ht⟩ | ⟨_, rfl⟩⟩ := execCtl_next hx
      · exact .inr (.inl ⟨hdp, hn, hin, f, ht⟩)
      · exact .inr (.inr (.inr ⟨hdp, .at_first_byte s _⟩))
    · obtain ⟨_, ⟨hin, hr, ht⟩ | ⟨hin, hr, ht⟩ | ⟨_, rfl⟩⟩ := execLit_next hx
      · exact .inr (.inr (.inl ⟨hdp, hn, 1, _, 1, by omega, by omega, by omega, by omega, .byte v hdp hr,
          fun j hj => State.inSource_of_le hin (by omega), ht⟩))
      · exact .inr (.inr (.inr ⟨hdp, 1, s.dst, 0, _, _, by omega, by omega, fun _ => rfl, .none s,
          fun j hj => State.inSource_of_le hin (by omega), .inr (.inl rfl), ht⟩))
      · exact .inr (.inr (.inr ⟨hdp, .at_first_byte s _⟩))
    · obtain ⟨_, _, rfl⟩ := execRefs_next hx
      have := n.isLt
      rcases backReference_step (offset := backOffset d) (length := refsLength n) (bytes := 2) (by omega) (by omega)
        (by unfold refsLength; omega) (by unfold refsLength; omega) hn with h | h
      · exact .inr (.inr (.inl ⟨hdp, hn, h⟩))
      · exact .inr (.inr (.inr ⟨hdp, h⟩))
    · obtain ⟨_, rfl⟩ := execRefl_next hx
      have := e.isLt
      rcases backReference_step (offset := backOffset d) (length := reflLength e) (bytes := 3) (by omega) (by omega)
        (by unfold reflLength; omega) (by unfold reflLength; omega) hn with h | h
      · exact .inr (.inr (.inl ⟨hdp, hn, h⟩))
      · exact .inr (.inr (.inr ⟨hdp, h⟩))
  · rw [hst] at ht; cases ht

end Sys2Proof.Machine
end

