-- ==== Sys2Proof/Tests/Slice0.lean ====
section
/-! SUPPORT. Tests of single steps against values written down in the spec (95_test_vectors.md and the rules named), the
smoke test of well-formedness, decoding of words written out by hand, and one witness for each hypothesis of a
statement. -/

namespace Sys2Proof.Tests
open Sys2Proof.Machine

/-! ### Helpers -/

/-- The outcome is a next state of which `p` holds. -/
def nextWith (o : Outcome) (p : State → Bool) : Bool :=
  match o with
  | .next t => p t
  | .fault _ => false
  | .refused _ => false

/-- An idle block with memories of these lengths, every byte 0. -/
def idle (srcLen dstLen : Nat) : State :=
  { State.reset with cfg := { Params.default with srcLen := srcLen, dstLen := dstLen } }

/-- A block that the host has started on these words. -/
def started (w : OpWords) (s : State) : State := { placeOperation w s with err := s.err }

/-- A running `LZDEC` whose next stream bytes are `stream` and whose output so far is `out`; DST has 16 bytes. -/
def running (stream out : List Byte) (size : Word) (ctl : Byte) (nbits : Nat) : State :=
  { idle (16 + stream.length) 16 with
    status := .busy
    src := Memory.ofBytes 16 stream
    dst := Memory.ofBytes 0 out
    srcLimit := BitVec.ofNat 32 (16 + stream.length)
    size := size
    sp := 16
    dp := out.length
    ctl := ctl
    nbits := nbits }

/-- A block whose SRC holds these bytes at these addresses. -/
def withSource (srcLen : Nat) (parts : List (Nat × List Byte)) : State :=
  { idle srcLen 0 with src := parts.foldl (fun m p => Memory.writeBytes m p.1 p.2) [] }

/-- The locator signature of 95_test_vectors.md 2.4. -/
def sig : List Byte := [0x7A, 0x65, 0x6C, 0x64, 0x61, 0x40, 0x73, 0x72, 0x64]

/-- The locator sentinel of 95_test_vectors.md 2.4. -/
def sen : List Byte := [0x00, 0x00, 0x10, 0x60]

/-! ### Well-formedness -/

/-- The one check: a `REFS` with length nibble 0 is no instruction (R64), and `exec` refuses it by name. -/
theorem test_wellFormed_refs_zero : (Instr.refs 0 5).wellFormed = false := by decide
theorem test_wellFormed_refs_one : (Instr.refs 1 5).wellFormed = true := by decide
theorem test_exec_ill_formed :
    exec (.refs 0 5) (running [0x00, 0x05, 0x00] [1] 8 0x00 1) = .refused .illFormed := rfl

/-! ### Decoding, words written from the layouts of 30_encoding.md and from spec/opcode_table.json -/

theorem test_decode_ctl : decodeTableWord 8 0b11100000 = some (.ctl 0xE0) := by decide
theorem test_decode_lit : decodeTableWord 16 0b1_01000001 = some (.lit 0x41) := by decide
/-- `2A BC` of 95_test_vectors.md 2.3: nibble 2, distance 0xABC, below a flag 0. -/
theorem test_decode_refs : decodeTableWord 24 0b0_0010_1010_10111100 = some (.refs 2 0xABC) := by decide
/-- `01 00 01` of 95_test_vectors.md 2.3: distance 256, length 19. -/
theorem test_decode_refl : decodeTableWord 32 0b0_0000_0001_00000000_00000001 = some (.refl 256 1) := by decide
theorem test_decode_locate : decodeTableWord 32 0x00000001 = some .locate := by decide
theorem test_decode_tdec : decodeTableWord 32 0x00000002 = some (.tdec .src 0 0) := by decide
theorem test_decode_tenc : decodeTableWord 32 0x00000003 = some (.tenc 0 0 0 0 0 0) := by decide
theorem test_decode_lzdec : decodeTableWord 32 0x00000004 = some (.lzdec 0 0 0 0) := by decide
theorem test_decode_fixchk : decodeTableWord 32 0x00000005 = some .fixchk := by decide
/-- The operands of `LZDEC` come from `ARG0` to `ARG3` in the order of R73. -/
theorem test_decode_lzdec_args : decodeOp ⟨4, 1, 2, 3, 4, 5, 6⟩ = .ok (.lzdec 1 2 3 4) := by decide
theorem test_decode_reserved : decodeOp ⟨6, 0, 0, 0, 0, 0, 0⟩ = .error (.reservedOp 6) := by decide
theorem test_decode_reserved_select : decodeOp ⟨2, 2, 0, 0, 0, 0, 0⟩ = .error (.reservedSelect 2) := by decide

/-- The stream bytes of V3 (95_test_vectors.md 2.1), written with `REF` (R76). -/
theorem test_assemble_V3 :
    ((refCommand 0 5).bind fun ref => assemble [.lit 0x41, .lit 0x42, .lit 0x43, ref]) =
      some [0xE0, 0x41, 0x42, 0x43, 0x30, 0x00] := by decide
/-- The stream bytes of V2b but for the unused flags, which an assembler leaves 0 (R75): two groups. -/
theorem test_assemble_two_groups :
    assemble [.lit 0x41, .lit 0x42, .lit 0x43, .lit 0x44, .lit 0x45, .lit 0x46, .lit 0x47, .lit 0x48, .lit 0x49] =
      some [0xFF, 0x41, 0x42, 0x43, 0x44, 0x45, 0x46, 0x47, 0x48, 0x80, 0x49] := by decide

/-! ### Placing a table word where the next step fetches it -/

theorem test_fetchWord_lit :
    nextWith (step (State.reset.withFetchWord 16 0x141)) (fun t => t.dst == [(0, 0x41)] && t.dp == 1) = true := by
  decide
theorem test_fetchWord_lzdec :
    nextWith (step (State.reset.withFetchWord 32 4)) (fun t => t.status == .busy && t.sp == 16) = true := by decide

/-! ### Stream commands -/

/-- The first step of V3. -/
theorem test_ctl : nextWith (step (running [0xE0] [] 8 0x55 0)) (fun t => t.ctl == 0xE0 && t.nbits == 8 && t.sp == 17) =
    true := by decide
/-- F1: nothing after the header; `INFO` is 16. -/
theorem test_ctl_truncated :
    nextWith (step (running [] [] 1 0x55 0)) (fun t => t.errCode == 4 && t.info == 16 && t.sp == 16 && t.nbits == 0) =
      true := by decide
/-- The first command of V2. -/
theorem test_lit :
    nextWith (step (running [0x41] [] 3 0xFF 8)) (fun t => t.dst == [(0, 0x41)] && t.ctl == 0xFE && t.nbits == 7) =
      true := by decide
/-- F10: `dst_base + dp` reaches the end of DST, the byte is consumed, the control byte is not shifted. -/
theorem test_lit_overrun :
    nextWith (step { running [0x03] [1, 2] 3 0x80 6 with dstBase := 14 })
      (fun t => t.errCode == 5 && t.info == 2 && t.sp == 17 && t.ctl == 0x80 && t.nbits == 6) = true := by decide
/-- The last command of V3: period 1. -/
theorem test_refs_overlap :
    nextWith (step (running [0x30, 0x00] [0x41, 0x42, 0x43] 8 0x00 5))
      (fun t => t.dst.bytes 0 9 == [0x41, 0x42, 0x43, 0x43, 0x43, 0x43, 0x43, 0x43, 0] && t.nbits == 4 && t.sp == 18) =
      true := by decide
/-- F9: both too far back and too long; `BoundsError` wins and nothing is written. -/
theorem test_refs_bounds :
    nextWith (step (running [0xF0, 0x05] [0x01] 4 0x00 7))
      (fun t => t.errCode == 6 && t.info == 1 && t.sp == 18 && t.dp == 1 && t.nbits == 7) = true := by decide
/-- The last command of V4, in a `size` of 4 as in F6: three bytes fit. -/
theorem test_refl_overrun :
    nextWith (step (running [0x00, 0x00, 0x00] [0x5A] 4 0x00 7))
      (fun t => t.errCode == 5 && t.info == 4 && t.dst.bytes 0 5 == [0x5A, 0x5A, 0x5A, 0x5A, 0] && t.nbits == 7) =
      true := by decide
/-- F4: `extra` is missing, nothing is copied. -/
theorem test_refl_truncated :
    nextWith (step (running [0x00, 0x00] [0x41] 30 0x00 7))
      (fun t => t.errCode == 4 && t.info == 18 && t.dp == 1 && t.nbits == 7) = true := by decide

/-! ### The start event and host operations -/

/-- R31, R55: after the start `STATUS` reads 1 (`BUSY`), a second start and a write of `ARG1` are refused. -/
theorem test_hostStart :
    nextWith (hostStart { idle 64 64 with op := 2 })
      (fun t => hostReadStatus t == 1 && !nextWith (hostStart t) (fun _ => true) &&
        !nextWith (hostWriteArg 1 7 t) (fun _ => true)) = true := by decide
/-- R74: a reserved code does not start. -/
theorem test_hostStart_reserved : hostStart { idle 64 64 with op := 6 } = .refused (.reservedOp 6) := rfl

/-- V11: a source shorter than its header, `size = 0`. -/
theorem test_lzdec :
    nextWith (step (started ⟨4, 0, 10, 0, 0, 0, 0⟩ (idle 10 16)))
      (fun t => t.sp == 16 && t.dp == 0 && t.nbits == 0 && t.status == .busy && t.srcLimit == 10) = true := by decide
/-- V9's end: `RES0 = sp`, `RES1 = dp`. -/
theorem test_lzdec_completes :
    nextWith (step { running [0xDE, 0xAD] [0x41, 0x42] 2 0x00 6 with sp := 19 })
      (fun t => t.status == .done && t.res0 == 19 && t.res1 == 2) = true := by decide
/-- V20. -/
theorem test_locate :
    nextWith (exec .locate (withSource 96 [(0x10, sig), (0x40, sen)])) (fun t => t.status == .done && t.res0 == 0x30) =
      true := by decide
/-- V25: the sentinel is not in the first word of its stride. -/
theorem test_locate_misplaced :
    nextWith (exec .locate (withSource 96 [(0x10, sig), (0x44, sen)])) (fun t => t.errCode == 2 && t.info == 1) = true := by
  decide
/-- V40. -/
theorem test_tdec :
    nextWith (exec (.tdec .src 0 0) (withSource 16 [(0, [0, 0, 0x10, 0x60, 0, 0, 0x74, 0x30, 0, 0, 0x10, 0x60])]))
      (fun t => t.res0 == 0x1060 && t.res1 == 0x7430 && t.res2 == 0x1060 && t.res3 == 0) = true := by decide
/-- V44: the address does not wrap. -/
theorem test_tdec_no_wrap :
    nextWith (exec (.tdec .src 0x10 0xFFFFFFFF) (withSource 64 [])) (fun t => t.errCode == 6 && t.info == 0) = true := by
  decide
/-- V42. -/
theorem test_tenc :
    nextWith (exec (.tenc 0 0 0xFFFFFFFF 0 0x80000000 0x01020304) (idle 0 16))
      (fun t => t.dst.bytes 0 16 == [0xFF, 0xFF, 0xFF, 0xFF, 0, 0, 0, 0, 0x80, 0, 0, 0, 1, 2, 3, 4]) = true := by decide
/-- V43, index 1, with `TENC`: one byte too few. -/
theorem test_tenc_bounds :
    nextWith (exec (.tenc 0x50 1 1 2 3 4) (idle 0 0x60)) (fun t => t.errCode == 6 && t.info == 0x60 && t.dst == []) =
      true := by decide
/-- S4: the rotation by 31, the other branch of line 6, and `t1` wrapping to 0. -/
theorem test_fixchk_step :
    accStep .v6102 0 0xFFFFFFFF (accInit 0xF8CA4DDC) =
      ⟨0, 0xFFFFFFF8, 0x0735B223, 0xF8CA4DDD, 0xF8CA4DDB, 0xF8CA4DDB⟩ := by decide
/-- R131: DST one byte too short. -/
theorem test_fixchk_short :
    nextWith (exec .fixchk (idle 0 0x100FFF)) (fun t => t.errCode == 6 && t.info == 0x100FFF) = true := by decide

/-! ### The host -/

/-- 95_test_vectors.md 2.9. -/
theorem test_normalize :
    normalize [0x37, 0x80, 0x40, 0x12, 0x00, 0x00, 0x0F, 0x00] = [0x80, 0x37, 0x12, 0x40, 0x00, 0x00, 0x00, 0x0F] := by
  decide
theorem test_normalize_plain : normalize [0x80, 0x37, 0x12, 0x40] = [0x80, 0x37, 0x12, 0x40] := by decide

/-! ### Witnesses: a state and operands that meet every hypothesis of a statement -/

theorem witness_DecodeOfEncodeIsTheInstruction : (Instr.refs 1 0xFFF).wellFormed = true := by decide

theorem witness_DecodedStreamBytesAreTheEncoding :
    decodeControl [0xE0, 7] = .ok (.ctl 0xE0, [7]) ∧ decodeCommand true [0x41] = .ok (.lit 0x41, []) ∧
      decodeCommand false [0x1F, 0xFF] = .ok (.refs 1 0xFFF, []) ∧
      decodeCommand false [0x0F, 0xFF, 0xFF] = .ok (.refl 0xFFF 0xFF, []) := by decide

theorem witness_LengthAndDistanceAssembly :
    (0x10#8).toNat >>> 4 ≠ 0 ∧ (0x0F#8).toNat >>> 4 = 0 ∧ (3 ≤ 3 ∧ 3 ≤ 273) ∧ (3 ≤ 17 ∧ 17 ≤ 273) ∧
      (3 ≤ 18 ∧ 18 ≤ 273) ∧ (3 ≤ 273 ∧ 273 ≤ 273) := by decide

theorem witness_StepRunsTheStartedOperation :
    (started ⟨1, 0, 0, 0, 0, 0, 0⟩ (idle 64 64)).status = .busy ∧
      (started ⟨1, 0, 0, 0, 0, 0, 0⟩ (idle 64 64)).start = true ∧
      decodeOp (started ⟨1, 0, 0, 0, 0, 0, 0⟩ (idle 64 64)).opWords = .ok .locate := by decide

/-- The hypothesis of the statement on the bytes at `sp`, for a list of at most three bytes. -/
theorem bytesAt_of_range {s : State} {payload : List Byte}
    (h : ∀ k : Fin 3, ∀ b, payload[k.val]? = some b → s.inSource (s.sp + k.val) ∧ s.src.read (s.sp + k.val) = b)
    (hlen : payload.length ≤ 3) (k : Nat) (b : Byte) (hb : payload[k]? = some b) :
    s.inSource (s.sp + k) ∧ s.src.read (s.sp + k) = b := by
  have hk : k < 3 := by
    obtain ⟨hk, _⟩ := List.getElem?_eq_some_iff.mp hb
    omega
  exact h ⟨k, hk⟩ b hb

theorem witness_StepRunsTheCommandAtSp_control :
    let s := running [0xE0] [] 8 0x00 0
    s.status = .busy ∧ s.start = false ∧ s.dp < s.size.toNat ∧ (Instr.ctl 0xE0).wellFormed = true ∧
      encode (.ctl 0xE0) = (if s.nbits = 0 then Encoding.control [0xE0] else .command s.ctl.msb [0xE0]) ∧
      ∀ (k : Nat) (b : Byte), [0xE0#8][k]? = some b → s.inSource (s.sp + k) ∧ s.src.read (s.sp + k) = b :=
  ⟨rfl, rfl, by decide, rfl, rfl, bytesAt_of_range (by decide) (by decide)⟩

theorem witness_StepRunsTheCommandAtSp_backReference :
    let s := running [0x00, 0x02, 0xFF] [1, 2, 3] 8 0x00 1
    s.status = .busy ∧ s.start = false ∧ s.dp < s.size.toNat ∧ (Instr.refl 2 0xFF).wellFormed = true ∧
      encode (.refl 2 0xFF) =
        (if s.nbits = 0 then Encoding.control [0x00, 0x02, 0xFF] else .command s.ctl.msb [0x00, 0x02, 0xFF]) ∧
      ∀ (k : Nat) (b : Byte), [0x00#8, 0x02#8, 0xFF#8][k]? = some b →
        s.inSource (s.sp + k) ∧ s.src.read (s.sp + k) = b :=
  ⟨rfl, rfl, by decide, rfl, by decide, bytesAt_of_range (by decide) (by decide)⟩

theorem witness_StepWithoutWorkChangesNothing :
    State.reset.status ≠ .busy ∧ ({ State.reset with status := .done } : State).status ≠ .busy ∧
      ({ State.reset with status := .fault } : State).status ≠ .busy := by decide

/-- At `dp = size`, and one byte before. -/
theorem witness_LzdecCompletesAtSize :
    (let s := running [] [1, 2] 2 0x00 6;
      s.status = .busy ∧ s.start = false ∧ s.dp ≤ s.size.toNat ∧ s.dp = s.size.toNat) ∧
    (let s := running [] [1] 2 0x00 6;
      s.status = .busy ∧ s.start = false ∧ s.dp ≤ s.size.toNat ∧ s.dp < s.size.toNat) := by decide

theorem witness_ReservedStartIsRefused :
    (State.reset.ready ∧ State.reset.op = 0#32) ∧
      (let s : State := { State.reset with status := .done, op := 6#32 }; s.ready ∧ 6 ≤ s.op.toNat) ∧
      (let s : State := { State.reset with op := 2#32, arg0 := 2#32 };
        s.ready ∧ s.op = 2#32 ∧ s.arg0 ≠ 0#32 ∧ s.arg0 ≠ 1#32) := by decide

theorem witness_CtlFetchesTheControlByte :
    ((running [0xE0] [] 8 0x00 0).controlDue ∧ (running [0xE0] [] 8 0x00 0).inSource (running [0xE0] [] 8 0x00 0).sp) ∧
      (running [] [] 8 0x00 0).controlDue ∧ ¬ (running [] [] 8 0x00 0).inSource (running [] [] 8 0x00 0).sp := by
  decide

/-- The last byte of DST, the address just past it, and no source byte left. -/
theorem witness_LitCopiesOneByte :
    (let s := { running [0x41] [1] 2 0x80 1 with dstBase := 14 };
      s.literalDue ∧ s.inSource s.sp ∧ s.dstBase.toNat + s.dp < s.cfg.dstLen) ∧
    (let s := { running [0x41] [1] 2 0x80 1 with dstBase := 15 };
      s.literalDue ∧ s.inSource s.sp ∧ s.cfg.dstLen ≤ s.dstBase.toNat + s.dp) ∧
    (let s := running [] [1] 2 0x80 1;
      s.literalDue ∧ ¬ s.inSource s.sp) := by decide

/-- The boundaries: the offset is `dp`, and the copy fills DST and `size`. -/
theorem witness_BackReferencesCopyWithOverlap :
    (let s := { running [0x10, 0x01] [1, 2] 5 0x00 1 with dstBase := 11 };
      1#4 ≠ 0#4 ∧ s.backRefDue ∧ s.inSource (s.sp + 1) ∧ (1#12).toNat + 1 ≤ s.dp ∧ (1#4).toNat + 2 ≤ s.room) ∧
    (let s := { running [0, 0, 0] [1] 19 0x00 1 with cfg := { Params.default with srcLen := 19, dstLen := 19 } };
      s.backRefDue ∧ s.inSource (s.sp + 2) ∧ (0#12).toNat + 1 ≤ s.dp ∧ (0#8).toNat + 18 ≤ s.room) := by decide

theorem witness_CutOffCommandRaisesTruncatedStream :
    ((running [] [] 1 0x00 0).controlDue ∧ 0 < (Instr.ctl 0).streamBytes ∧ ¬ (running [] [] 1 0x00 0).inSource 16) ∧
      ((running [] [] 1 0x80 1).literalDue ∧ 0 < (Instr.lit 0).streamBytes ∧ ¬ (running [] [] 1 0x80 1).inSource 16) ∧
      ((running [0x20] [1] 5 0x00 1).backRefDue ∧ 1 < (Instr.refs 2 0).streamBytes ∧
        (∀ j, j < 1 → (running [0x20] [1] 5 0x00 1).inSource (16 + j)) ∧ ¬ (running [0x20] [1] 5 0x00 1).inSource 17) ∧
      ((running [0, 0] [1] 30 0x00 1).backRefDue ∧ 2 < (Instr.refl 0 0).streamBytes ∧
        (∀ j, j < 2 → (running [0, 0] [1] 30 0x00 1).inSource (16 + j)) ∧
        ¬ (running [0, 0] [1] 30 0x00 1).inSource 18) := by decide

theorem witness_StepAtTheEndOfTheSourceFaults :
    (let s := running [] [] 1 0x00 0;
      s.status = .busy ∧ s.start = false ∧ s.dp < s.size.toNat ∧ ¬ s.inSource (s.sp + 0)) ∧
    (let s := running [0x20] [1] 5 0x00 1;
      s.status = .busy ∧ s.start = false ∧ s.dp < s.size.toNat ∧ (∀ j, j < 1 → s.inSource (s.sp + j)) ∧
        ¬ s.inSource (s.sp + 1) ∧ s.nbits ≠ 0 ∧ s.ctl.msb = false) ∧
    (let s := running [0x0F, 0xFF] [1] 5 0x00 1;
      s.status = .busy ∧ s.start = false ∧ s.dp < s.size.toNat ∧ (∀ j, j < 2 → s.inSource (s.sp + j)) ∧
        ¬ s.inSource (s.sp + 2) ∧ s.nbits ≠ 0 ∧ s.ctl.msb = false ∧ s.src.read s.sp >>> 4 = 0#8) := by decide

/-- Both back-references; the room left is one byte less than the copy, and none at all. -/
theorem witness_TooLongBackReferenceOverruns :
    (let s := running [0x10, 0x00] [1] 3 0x00 1;
      (Instr.refs 1 0).wellFormed = true ∧ backRefParts (.refs 1 0) = some (1, 3) ∧ s.backRefDue ∧
        s.inSource (s.sp + ((Instr.refs 1 0).streamBytes - 1)) ∧ 1 ≤ s.dp ∧ s.room < 3) ∧
    (let s := { running [0, 0, 0] [1] 2 0x00 1 with dstBase := 15 };
      (Instr.refl 0 0).wellFormed = true ∧ backRefParts (.refl 0 0) = some (1, 18) ∧ s.backRefDue ∧
        s.inSource (s.sp + ((Instr.refl 0 0).streamBytes - 1)) ∧ 1 ≤ s.dp ∧ s.room < 18) := by decide

theorem witness_BackReferenceBeforeTheStartIsOutOfBounds :
    (let s := running [0x10, 0x00] [] 8 0x00 8;
      (Instr.refs 1 0).wellFormed = true ∧ backRefParts (.refs 1 0) = some (1, 3) ∧ s.backRefDue ∧
        s.inSource (s.sp + ((Instr.refs 1 0).streamBytes - 1)) ∧ s.dp < 1) ∧
    (let s := running [0x00, 0x03, 0xFF] [1, 2, 3] 8 0x00 8;
      (Instr.refl 3 0xFF).wellFormed = true ∧ backRefParts (.refl 3 0xFF) = some (4, 273) ∧ s.backRefDue ∧
        s.inSource (s.sp + ((Instr.refl 3 0xFF).streamBytes - 1)) ∧ s.dp < 4) := by decide

/-- `startable` is met while `STATUS` is `IDLE`, while it is `DONE`, and after the host's start. -/
theorem witness_startable :
    State.reset.startable ∧ ({ State.reset with status := .done } : State).startable ∧
      (started ⟨1, 0, 0, 0, 0, 0, 0⟩ State.reset).startable := by decide

theorem witness_LzdecInitialises : (idle 0 0).startable := by decide

theorem witness_LzdecOfSizeZeroCompletes : ({ idle 0 0 with status := .done } : State).startable := by decide

theorem witness_LzdecEnds : (running [] [] 1 0x00 0).status = .busy ∧ (running [] [] 1 0x00 0).start = false := by decide

/-- A whole run: a control byte, one literal, the end. -/
def oneLiteral (dstLen : Nat) : State :=
  { idle 18 dstLen with src := [(16, 0x80#8), (17, 0x41#8)] }

theorem witness_CompletedLzdecWritesExactlySizeBytes :
    ∃ t u, exec (.lzdec 0 18 0 1) (oneLiteral 1) = .next t ∧ runBusy 3 t = .next u ∧ u.status = .done :=
  ⟨_, _, rfl, rfl, rfl⟩

theorem witness_LzdecOutputDependsOnTheSourceOnly :
    (oneLiteral 1).src = (oneLiteral 9).src ∧ (oneLiteral 1).cfg.srcLen = (oneLiteral 9).cfg.srcLen ∧
      (∃ t u, exec (.lzdec 0 18 0 1) (oneLiteral 1) = .next t ∧ runBusy 3 t = .next u ∧ u.status = .done) ∧
      ∃ t u, exec (.lzdec 0 18 8 1) (oneLiteral 9) = .next t ∧ runBusy 3 t = .next u ∧ u.status = .done :=
  ⟨rfl, rfl, ⟨_, _, rfl, rfl, rfl⟩, ⟨_, _, rfl, rfl, rfl⟩⟩

theorem witness_DecoderStepsMoveForward :
    (running [0x30, 0x00] [1] 8 0x00 1).status = .busy ∧ (running [0x30, 0x00] [1] 8 0x00 1).start = false ∧
      (running [0x30, 0x00] [1] 8 0x00 1).nbits ≠ 0 ∧
      (∃ t, step (running [0x30, 0x00] [1] 8 0x00 1) = .next t ∧ t.status = .busy) ∧
      (running [0xE0] [] 8 0x00 0).nbits = 0 ∧ ∃ t, step (running [0xE0] [] 8 0x00 0) = .next t :=
  ⟨rfl, rfl, by decide, ⟨_, rfl, rfl⟩, rfl, ⟨_, rfl⟩⟩

theorem witness_LzdecFaultCauses :
    (running [] [] 1 0x00 0).status = .busy ∧ (running [] [] 1 0x00 0).start = false ∧
      ∃ t, step (running [] [] 1 0x00 0) = .next t ∧ t.status = .fault :=
  ⟨rfl, rfl, ⟨_, rfl, rfl⟩⟩

/-- The header stands in the first stride and the sentinel in the next and last. -/
def oneTable : State := withSource 32 [(0, sig), (16, sen)]

theorem oneTable_firstCandidate : FirstCandidate oneTable 0 :=
  ⟨rfl, by decide, ⟨by decide, by decide, by decide⟩, fun x _ hx => absurd hx (Nat.not_lt_zero x)⟩

theorem witness_LocateReturnsTheStrideBeforeTheSentinel :
    oneTable.startable ∧ FirstCandidate oneTable 0 ∧ 16 % 16 = 0 ∧ 0 < 16 ∧ 16 + 16 ≤ oneTable.cfg.srcLen ∧
      oneTable.src.be32 16 = 0x00001060#32 ∧
      ∀ x, x % 16 = 0 → 0 < x → x < 16 → oneTable.src.be32 x ≠ 0x00001060#32 :=
  ⟨by decide, oneTable_firstCandidate, rfl, by decide, by decide, by decide, fun x h1 h2 h3 => by omega⟩

theorem witness_LocateWithoutHeaderFails :
    (idle 15 0).startable ∧ ∀ x, x % 16 = 0 → x + 16 ≤ (idle 15 0).cfg.srcLen → ¬ CandidateHeader (idle 15 0).src x :=
  ⟨by decide, fun x _ h => absurd (show x + 16 ≤ 15 from h) (by omega)⟩

/-- The header stands in the last stride. -/
theorem witness_LocateWithoutSentinelFails :
    let s := withSource 16 [(0, sig)]
    s.startable ∧ FirstCandidate s 0 ∧
      ∀ x, x % 16 = 0 → 0 < x → x + 16 ≤ s.cfg.srcLen → s.src.be32 x ≠ 0x00001060#32 :=
  ⟨by decide, ⟨rfl, by decide, ⟨by decide, by decide, by decide⟩, fun x _ hx => absurd hx (Nat.not_lt_zero x)⟩,
    fun x h1 h2 h3 => absurd (show x + 16 ≤ 16 from h3) (by omega)⟩

theorem witness_LocateResultIsATable : ∃ t, exec .locate oneTable = .next t ∧ t.status = .done :=
  ⟨_, rfl, by decide⟩

/-- The record ends at the end of the memory, and one byte after it. -/
theorem witness_TdecReadsTheRecord :
    (idle 32 32).startable ∧ (0x10#32).toNat + 16 * (0#32).toNat + 16 ≤ (idle 32 32).memoryLen .src ∧
      (0#32).toNat + 16 * (1#32).toNat + 16 ≤ (idle 32 32).memoryLen .dst ∧ (idle 31 31).startable ∧
      (idle 31 31).memoryLen .src < (0x10#32).toNat + 16 * (0#32).toNat + 16 ∧
      (idle 31 31).memoryLen .dst < (0#32).toNat + 16 * (1#32).toNat + 16 := by decide

theorem witness_TencWritesTheRecord :
    (idle 0 32).startable ∧ (0x10#32).toNat + 16 * (0#32).toNat + 16 ≤ (idle 0 32).cfg.dstLen ∧
      (idle 0 31).startable ∧ (idle 0 31).cfg.dstLen < (0x10#32).toNat + 16 * (0#32).toNat + 16 := by decide

theorem witness_EntryRoundTrip :
    (∃ t, exec (.tenc 0x10 0 1 2 3 4) (idle 0 32) = .next t ∧ t.status = .done) ∧
      (idle 0 32).dst.wf ∧ ∃ t, exec (.tdec .dst 0x10 0) (idle 0 32) = .next t ∧ t.status = .done :=
  ⟨⟨_, rfl, rfl⟩, by decide, _, rfl, rfl⟩

/-- `Size` 0 (V48), and an end one below the start. -/
theorem witness_EntryHelpers :
    (⟨0x10, 0x10, 0, 0⟩ : TableEntry).startVirtual.toNat ≤ (⟨0x10, 0x10, 0, 0⟩ : TableEntry).endVirtual.toNat ∧
      (⟨0x10, 0x0F, 0, 0⟩ : TableEntry).endVirtual.toNat < (⟨0x10, 0x0F, 0, 0⟩ : TableEntry).startVirtual.toNat := by
  decide

/-- An image of zeros in a configuration in which the CRC of its boot code is that of variant 6101. -/
def knownImage : State :=
  { idle 0 0x101000 with
    cfg :=
      { Params.default with
        dstLen := 0x101000
        crc6101 := bootCrc []
        crc6102 := bootCrc [] + 1
        crc6103 := bootCrc [] + 2
        crc6105 := bootCrc [] + 3
        crc6106 := bootCrc [] + 4 } }

theorem five_distinct (c : Word) : [c, c + 1, c + 2, c + 3, c + 4].Nodup := by
  simp

theorem knownImage_cic : cicOfCrc knownImage.cfg (bootCrc []) = some (.v6101, 0xF8CA4DDC#32) := if_pos rfl

theorem witness_FixchkWritesTheChecksum :
    knownImage.startable ∧ knownImage.cfg.crcsDistinct ∧ 0x101000 ≤ knownImage.cfg.dstLen ∧
      cicOfCrc knownImage.cfg (crc32 (knownImage.dst.bytes 0x40 4032)) = some (.v6101, 0xF8CA4DDC#32) :=
  ⟨by decide, five_distinct _, Nat.le_refl _, knownImage_cic⟩

/-- The same image where none of the constants is the CRC of its boot code. -/
def unknownImage : State :=
  { idle 0 0x101000 with
    cfg :=
      { Params.default with
        dstLen := 0x101000
        crc6101 := bootCrc [] + 1
        crc6102 := bootCrc [] + 1 + 1
        crc6103 := bootCrc [] + 1 + 2
        crc6105 := bootCrc [] + 1 + 3
        crc6106 := bootCrc [] + 1 + 4 } }

theorem not_among (c : Word) : c ∉ [c + 1, c + 1 + 1, c + 1 + 2, c + 1 + 3, c + 1 + 4] := by
  simp [BitVec.add_assoc]

theorem witness_UnknownBootCodeIsUnsupported :
    unknownImage.startable ∧ unknownImage.cfg.crcsDistinct ∧ 0x101000 ≤ unknownImage.cfg.dstLen ∧
      crc32 (unknownImage.dst.bytes 0x40 4032) ∉
        [unknownImage.cfg.crc6101, unknownImage.cfg.crc6102, unknownImage.cfg.crc6103, unknownImage.cfg.crc6105,
          unknownImage.cfg.crc6106] :=
  ⟨by decide, five_distinct _, Nat.le_refl _, not_among _⟩

theorem witness_FixchkOnAShortImageIsOutOfBounds :
    (idle 0 0x100FFF).startable ∧ (idle 0 0x100FFF).cfg.crcsDistinct ∧ (idle 0 0x100FFF).cfg.dstLen < 0x101000 := by
  decide

theorem witness_EachCrcSelectsItsVariant :
    Params.default.crcsDistinct ∧ 0#32 ∉ [Params.default.crc6101, Params.default.crc6102, Params.default.crc6103,
        Params.default.crc6105, Params.default.crc6106] ∧
      (let s : State := { State.reset with cfg := { Params.default with crc6102 := Params.default.crc6101 } };
        s.startable ∧ ¬ s.cfg.crcsDistinct) := by decide

theorem knownImage_completes : ∃ t, exec .fixchk knownImage = .next t ∧ t.status = .done := by
  have hs : knownImage.startable := by decide
  have hd : (knownImage.begin false).cfg.crcsDistinct := five_distinct _
  refine ⟨fixChecksum (knownImage.begin false), ?_, ?_⟩
  · rw [exec, execFixchk, startOp_of_startable _ hs]
    exact if_pos hd
  · have hc : cicOfCrc (knownImage.begin false).cfg (bootCrc (knownImage.begin false).dst) = some (.v6101, 0xF8CA4DDC#32) :=
      knownImage_cic
    have hl : ¬ (knownImage.begin false).cfg.dstLen < Config.checksumEnd := Nat.lt_irrefl _
    rw [fixChecksum, if_neg hl, hc]
    exact publishChecksum_status _

/-- Two memories that differ only outside the regions named. -/
theorem witness_ChecksumDependsOnItsRegions :
    (∀ a, 0x40 ≤ a → a < 0x1000 → Memory.read [] a = Memory.read [(0x10, 1#8)] a) ∧
      (∀ k, k < 0x100000 → Memory.read [] (0x1000 + k) = Memory.read [(0x10, 1#8)] (0x1000 + k)) ∧
      (Variant.v6105 = .v6105 → ∀ k, k < 0x100 → Memory.read [] (0x750 + k) = Memory.read [(0x10, 1#8)] (0x750 + k)) ∧
      ∃ t, exec .fixchk knownImage = .next t ∧ t.status = .done := by
  refine ⟨fun a ha _ => ?_, fun k hk => ?_, fun _ k hk => ?_, knownImage_completes⟩ <;>
    · rw [Memory.read_cons, if_neg (by omega)]

theorem witness_ZeroWindowChecksum :
    (∀ k, k < 0x100000 → Memory.read [] (0x1000 + k) = 0#8) ∧ Variant.v6101 ≠ .v6105 ∧ (1#32) ≠ 0#32 :=
  ⟨fun _ _ => rfl, by decide, by decide⟩

theorem witness_FaultIsSticky :
    ({ State.reset with status := .fault } : State).status = .fault ∧
      Instr.locate.streamBytes = 0 := by decide

theorem witness_HostStartsAnOperation :
    State.reset.ready ∧ ({ State.reset with status := .done } : State).ready ∧
      decodeOp ⟨5, 0, 0, 0, 0, 0, 0⟩ = .ok .fixchk := by decide

theorem witness_StartWhileBusyIsRefused :
    (running [] [] 1 0x00 0).status = .busy ∧ (running [] [] 1 0x00 0).start = false ∧
      Instr.fixchk.streamBytes = 0 := by decide

/-- A running `LZDEC`, and a started operation that the engine has not begun; a reset is a move of the host. -/
theorem witness_HostAccessWhileBusyIsRefused :
    (running [] [] 1 0x00 0).status = .busy ∧ (started ⟨1, 0, 0, 0, 0, 0, 0⟩ State.reset).status = .busy ∧
      HostMove (running [] [] 1 0x00 0) (hostReset (running [] [] 1 0x00 0)) := ⟨rfl, rfl, .reset rfl⟩

theorem witness_StatusTransitions :
    (∃ t, step State.reset = .next t) ∧ (∃ t, step (started ⟨4, 0, 0, 0, 0, 0, 0⟩ State.reset) = .next t) ∧
      (∃ t, step (running [] [] 0 0x00 0) = .next t) ∧ (∃ t, hostStart { State.reset with op := 1 } = .next t) ∧
      (∃ t, HostMove { State.reset with op := 1 } t ∧ t.status = .busy) ∧ ∃ t, HostMove State.reset t ∧ t.op = 7 :=
  ⟨⟨_, rfl⟩, ⟨_, rfl⟩, ⟨_, rfl⟩, ⟨_, rfl⟩, ⟨_, .start rfl, rfl⟩, ⟨_, .writeOp 7 rfl, rfl⟩⟩

theorem witness_ErrIsWrittenOnRaiseOnly :
    (∃ t, step (running [] [] 1 0x00 0) = .next t) ∧ State.reset.err = none ∧
      ({ State.reset with err := some .boundsError } : State).err = some .boundsError ∧
      ∃ t, HostMove State.reset t := ⟨⟨_, rfl⟩, rfl, rfl, ⟨_, .writeArg 0 7 rfl⟩⟩

theorem witness_StepsNeverWriteWhatTheHostOwns :
    ∃ t, step (started ⟨3, 0, 0, 1, 2, 3, 4⟩ (idle 0 16)) = .next t := ⟨_, rfl⟩

/-- The byte just past `size` is one that no step of a running `LZDEC` may write, and neither is the byte before `dp`. -/
theorem witness_StepsWriteDstOnlyWhereAllowed :
    (∃ t, step (running [0x41] [1] 3 0x80 1) = .next t) ∧ ¬ (running [0x41] [1] 3 0x80 1).mayWrite 3 ∧
      ¬ (running [0x41] [1] 3 0x80 1).mayWrite 0 :=
  ⟨⟨_, rfl⟩, by simp [State.mayWrite, running, idle, State.reset], by simp [State.mayWrite, running, idle, State.reset]⟩

/-- A running `LZDEC` meets the invariant and goes on; a block that the host has just started meets it too. -/
theorem witness_EveryStepKeepsTheInvariant :
    (running [0x30, 0x00] [1] 8 0x00 1).Inv ∧ (∃ t, step (running [0x30, 0x00] [1] 8 0x00 1) = .next t) ∧
      (started ⟨1, 0, 0, 0, 0, 0, 0⟩ State.reset).Inv ∧ State.reset.Inv ∧ ∃ t, HostMove State.reset t :=
  ⟨⟨by decide, by decide, by decide, by decide, by decide⟩, ⟨_, rfl⟩,
    ⟨by decide, by decide, by decide, by decide, by decide⟩, ⟨by decide, by decide, by decide, by decide, by decide⟩,
    ⟨_, .writeMemory .src 0 7 rfl⟩⟩

theorem witness_BigEndianAccess : (3 < 4 ∨ 4 + 4 ≤ 3) ∧ (8 < 4 ∨ 4 + 4 ≤ 8) := by decide

theorem witness_NormalizeSwapsPairs :
    [0x37#8, 2#8][0]? = some 0x37#8 ∧ [0x37#8, 2#8].length % 2 = 0 ∧ 2 * 0 + 1 < [0x37#8, 2#8].length ∧
      [0x80#8, 0x37#8][0]? ≠ some 0x37#8 := by decide

theorem witness_WrongImageSizeIsInvalid : ([] : List Byte).length ≠ Params.default.srcLen := by decide

theorem witness_PrepareDstCopiesTheSource : 0 < (idle 1 2).cfg.dstLen ∧ 1 < (idle 1 2).cfg.dstLen := by decide

/-- A file that ends with both memories; one that is a byte too long for SRC; one that is a byte too long for DST. -/
theorem witness_CopyFileCopiesOrFaults :
    let e : TableEntry := ⟨4, 8, 2, 0⟩
    (e.startPhysical.toNat + 4 ≤ (idle 6 8).cfg.srcLen ∧ e.startVirtual.toNat + 4 ≤ (idle 6 8).cfg.dstLen) ∧
      (idle 5 8).cfg.srcLen < e.startPhysical.toNat + 4 ∧ (idle 6 7).cfg.dstLen < e.startVirtual.toNat + 4 := by decide

theorem witness_ZeroFillClearsTheRange : (4 ≤ 4 ∧ 4 < 5) ∧ (3 < 4 ∨ 5 ≤ 3) ∧ (5 < 4 ∨ 5 ≤ 5) := by decide

theorem witness_AssembledStreamReadsBack :
    (∀ i ∈ [Instr.lit 0x41, .refs 3 0, .refl 0 1], i.wellFormed = true) ∧
      assemble [.lit 0x41, .refs 3 0, .refl 0 1] = some [0x80, 0x41, 0x30, 0x00, 0x00, 0x00, 0x01] := by decide

/-- The boundary lengths of both forms and the lengths next to them. -/
theorem witness_RefPseudoCommand :
    refCommand 4095 3 = some (.refs 1 4095) ∧ refCommand 4095 17 = some (.refs 15 4095) ∧
      refCommand 4095 18 = some (.refl 4095 0) ∧ refCommand 4095 273 = some (.refl 4095 255) ∧
      refCommand 0 2 = none ∧ refCommand 0 274 = none := by decide

end Sys2Proof.Tests
end

section
/-! PROOFS. The interface of the block (spec 10_state.md R11, R25 to R31): what a step of the engine does to `STATUS` and
`ERR` and what it leaves to the host. The rule is said once, in `step_engineMove`. -/

namespace Sys2Proof.Machine

/-! ### What a step does to the interface -/

/-- `t` agrees with `s` in what only the host writes: SRC, the parameters, `OP` and the `ARG` registers. -/
structure SameHostSide (s t : State) : Prop where
  src : t.src = s.src
  cfg : t.cfg = s.cfg
  opWords : t.opWords = s.opWords

theorem SameHostSide.refl (s : State) : SameHostSide s s := ⟨rfl, rfl, rfl⟩

/-- How a step of an operation that runs in `s` leaves the interface: the operation goes on, completes, or raises one of
the five causes of the engine (R180, R184). -/
structure EngineMove (s t : State) : Prop where
  hostSide : SameHostSide s t
  outcome :
    (t.err = s.err ∧ (t.status = .busy ∨ t.status = .done)) ∨
      (t.status = .fault ∧ ∃ c, c ≠ .invalidImageSize ∧ t.err = some c)

section
variable {s u : State}

theorem EngineMove.goesOn (h : SameHostSide s u) (herr : u.err = s.err) (hbusy : u.status = .busy) : EngineMove s u :=
  ⟨h, .inl ⟨herr, .inl hbusy⟩⟩

theorem EngineMove.completes (h : SameHostSide s u) (herr : u.err = s.err) (hdone : u.status = .done) : EngineMove s u :=
  ⟨h, .inl ⟨herr, .inr hdone⟩⟩

/-- A raise after a part of the operation that left the host's side alone. -/
theorem EngineMove.raises {c : FaultCause} {info : Nat} (h : SameHostSide s u)
    (hc : c ≠ .invalidImageSize := by decide) : EngineMove s (u.raise c info) :=
  ⟨⟨h.src, h.cfg, h.opWords⟩, .inr ⟨rfl, c, hc, rfl⟩⟩

end

/-! ### The host operations -/

section
variable {s t : State}

theorem locatePhaseB_engineMove {u : State} (h : SameHostSide s u) (herr : u.err = s.err) :
    EngineMove s (locatePhaseB u) := by
  obtain ⟨q, _, ⟨_, hu⟩ | ⟨_, hu⟩⟩ := locatePhaseB_cases u
  · rw [hu]; exact .completes ⟨h.src, h.cfg, h.opWords⟩ herr rfl
  · rw [hu]; exact .raises ⟨h.src, h.cfg, h.opWords⟩

theorem execLocate_engineMove (h : execLocate s = .next t) : EngineMove s t := by
  obtain ⟨_, q, _, ⟨_, rfl⟩ | ⟨_, rfl⟩⟩ := execLocate_next h
  · exact locatePhaseB_engineMove ⟨rfl, rfl, rfl⟩ rfl
  · exact .raises ⟨rfl, rfl, rfl⟩

theorem execTdec_engineMove {sel : MemSel} {base index : Word} (h : execTdec sel base index s = .next t) :
    EngineMove s t := by
  obtain ⟨_, ⟨_, rfl⟩ | ⟨_, rfl⟩⟩ := execTdec_next h
  · exact .completes ⟨rfl, rfl, rfl⟩ rfl rfl
  · exact .raises ⟨rfl, rfl, rfl⟩

theorem execTenc_engineMove {base index sv ev sp ep : Word} (h : execTenc base index sv ev sp ep s = .next t) :
    EngineMove s t := by
  obtain ⟨_, ⟨_, rfl⟩ | ⟨_, rfl⟩⟩ := execTenc_next h
  · exact .completes ⟨rfl, rfl, rfl⟩ rfl rfl
  · exact .raises ⟨rfl, rfl, rfl⟩

theorem execLzdec_engineMove {a b c n : Word} (h : execLzdec a b c n s = .next t) : EngineMove s t := by
  obtain ⟨_, rfl⟩ := execLzdec_next h
  exact .goesOn ⟨rfl, rfl, rfl⟩ rfl rfl

theorem execFixchk_engineMove (h : execFixchk s = .next t) : EngineMove s t := by
  obtain ⟨_, _, ⟨_, rfl⟩ | ⟨_, _, rfl⟩ | ⟨_, v, seed, _, rfl⟩⟩ := execFixchk_next h
  · exact .raises ⟨rfl, rfl, rfl⟩
  · exact .raises ⟨rfl, rfl, rfl⟩
  · exact .completes ⟨rfl, rfl, rfl⟩ rfl rfl

/-- A started operation, whichever the registers hold. -/
theorem exec_engineMove_of_decodeOp {i : Instr} (hd : decodeOp s.opWords = .ok i) (h : exec i s = .next t) :
    EngineMove s t := by
  rcases decodeOp_cases hd with ⟨_, rfl⟩ | ⟨_, sel, rfl⟩ | ⟨_, rfl⟩ | ⟨_, rfl⟩ | ⟨_, rfl⟩
  · exact execLocate_engineMove h
  · exact execTdec_engineMove h
  · exact execTenc_engineMove h
  · exact execLzdec_engineMove h
  · exact execFixchk_engineMove h

/-! ### A running `LZDEC`, and the step -/

theorem busyStep_engineMove (hb : s.status = .busy) (hst : s.start = false) (h : step s = .next t) : EngineMove s t := by
  rcases busyStep_cases hb hst h with ⟨_, rfl⟩ | ⟨_, _, _, flags, rfl⟩ |
    ⟨_, _, used, m, k, _, _, _, _, _, _, rfl⟩ | ⟨_, used, m, k, c, info, _, _, _, _, _, hc, rfl⟩
  · exact .completes ⟨rfl, rfl, rfl⟩ rfl rfl
  · exact .goesOn ⟨rfl, rfl, rfl⟩ rfl hb
  · exact .goesOn ⟨rfl, rfl, rfl⟩ rfl hb
  · have hcause : c ≠ .invalidImageSize := by rcases hc with rfl | rfl | rfl <;> decide
    exact .raises ⟨rfl, rfl, rfl⟩ hcause

/-- Everything a step can do to the interface: it leaves a block that is not `BUSY` as it is, or it is a move of the
operation that runs. -/
theorem step_engineMove (h : step s = .next t) : t = s ∨ (s.status = .busy ∧ EngineMove s t) := by
  rcases step_cases h with ⟨_, ht⟩ | ⟨hst, hb, _⟩ | ⟨hst, hb, _⟩ | ⟨hst, hb, _⟩ | ⟨_, hb, i, hd, hx⟩
  · exact .inl ht
  · exact .inr ⟨hb, busyStep_engineMove hb hst h⟩
  · exact .inr ⟨hb, busyStep_engineMove hb hst h⟩
  · exact .inr ⟨hb, busyStep_engineMove hb hst h⟩
  · exact .inr ⟨hb, exec_engineMove_of_decodeOp hd hx⟩

theorem step_sameHostSide (h : step s = .next t) : SameHostSide s t := by
  rcases step_engineMove h with rfl | ⟨_, hmove⟩
  · exact .refl t
  · exact hmove.hostSide

theorem step_status (h : step s = .next t) :
    t.status = s.status ∨ (s.status = .busy ∧ (t.status = .done ∨ t.status = .fault)) := by
  rcases step_engineMove h with rfl | ⟨hb, hmove⟩
  · exact .inl rfl
  · rcases hmove.outcome with ⟨_, hbusy | hdone⟩ | ⟨hfault, _⟩
    · exact .inl (hbusy.trans hb.symm)
    · exact .inr ⟨hb, .inl hdone⟩
    · exact .inr ⟨hb, .inr hfault⟩

theorem step_err (h : step s = .next t) :
    t.err = s.err ∨ (t.status = .fault ∧ ∃ c, c ≠ .invalidImageSize ∧ t.err = some c) := by
  rcases step_engineMove h with rfl | ⟨_, hmove⟩
  · exact .inl rfl
  · exact hmove.outcome.imp_left And.left

/-! ### The host's moves -/

@[simp] theorem State.setMemory_status (s : State) (sel : MemSel) (m : Memory) :
    (s.setMemory sel m).status = s.status := by cases sel <;> rfl

@[simp] theorem State.setMemory_err (s : State) (sel : MemSel) (m : Memory) : (s.setMemory sel m).err = s.err := by
  cases sel <;> rfl

theorem hostStart_status (h : hostStart s = .next t) : s.ready ∧ t.status = .busy := by
  obtain ⟨hs, _, rfl⟩ := hostStart_next h
  exact ⟨hs, s.begin_status true⟩

theorem hostMove_status (h : HostMove s t) :
    t.status = s.status ∨ (hostStart s = .next t ∧ s.ready ∧ t.status = .busy) ∨
      (t = hostReset s ∧ t.status = .idle) := by
  rcases hostMove_cases h with ⟨_, w, rfl⟩ | ⟨_, sel, a, v, _, rfl⟩ | ⟨hstart, _⟩ | rfl
  · exact .inl rfl
  · exact .inl (s.setMemory_status _ _)
  · exact .inr (.inl ⟨hstart, hostStart_status hstart⟩)
  · exact .inr (.inr ⟨rfl, rfl⟩)

theorem hostMove_err (h : HostMove s t) : t.err = s.err ∨ t = hostReset s := by
  rcases hostMove_cases h with ⟨_, w, rfl⟩ | ⟨_, sel, a, v, _, rfl⟩ | ⟨_, _, _, rfl⟩ | ht
  · exact .inl rfl
  · exact .inl (s.setMemory_err _ _)
  · exact .inl (s.begin_err true)
  · exact .inr ht

theorem State.errCode_of_none (h : s.err = none) : s.errCode = 0 := by rw [errCode, h]

theorem State.errCode_of_some {c : FaultCause} (h : s.err = some c) : s.errCode = c.code := by rw [errCode, h]

/-- While `STATUS` is `BUSY` the only move of the host is a reset (R31, R55, R206). -/
theorem hostMove_of_busy (hb : s.status = .busy) (h : HostMove s t) : t = hostReset s := by
  have hnot : ¬ s.ready := by simp [hb]
  rcases hostMove_cases h with ⟨hs, _⟩ | ⟨hn, _⟩ | ⟨_, hs, _⟩ | ht
  · exact absurd hs hnot
  · exact absurd hb hn
  · exact absurd hs hnot
  · exact ht

theorem hostWriteRegister_of_ready (u : State) (hs : s.ready) : hostWriteRegister s u = .next u := by
  rcases hs with hs | hs <;> rw [hostWriteRegister, hs]

theorem hostWriteRegister_of_busy (u : State) (hb : s.status = .busy) :
    hostWriteRegister s u = .refused .hostAccessWhileBusy := by rw [hostWriteRegister, hb]

end

/-- An instruction that takes no stream bytes is a host operation: its meaning is the start of some run. -/
theorem exec_eq_startOp {i : Instr} (hi : i.streamBytes = 0) : ∃ run, ∀ s, exec i s = startOp s run := by
  cases i with
  | ctl | lit | refs | refl => simp [Instr.streamBytes] at hi
  | locate | tdec | tenc | lzdec | fixchk =>
    simp only [exec, execLocate, execTdec, execTenc, execLzdec, execFixchk]
    exact ⟨_, fun _ => rfl⟩

/-! ### `CICTAB` -/

/-- A value that is none of the five constants selects no variant. -/
theorem cicOfCrc_eq_none {c : Params} {x : Word}
    (hx : x ∉ [c.crc6101, c.crc6102, c.crc6103, c.crc6105, c.crc6106]) : cicOfCrc c x = none := by
  simp only [List.mem_cons, List.not_mem_nil, or_false, not_or] at hx
  obtain ⟨h1, h2, h3, h5, h6⟩ := hx
  rw [cicOfCrc, if_neg h1, if_neg h2, if_neg h3, if_neg h5, if_neg h6]

/-- With distinct constants, each row's constant passes the rows before it and selects its own. -/
theorem cicOfCrc_rows {c : Params} (hc : c.crcsDistinct) :
    cicOfCrc c c.crc6101 = some (.v6101, Config.seedA) ∧ cicOfCrc c c.crc6102 = some (.v6102, Config.seedA) ∧
      cicOfCrc c c.crc6103 = some (.v6103, c.seedB) ∧ cicOfCrc c c.crc6105 = some (.v6105, c.seedC) ∧
      cicOfCrc c c.crc6106 = some (.v6106, c.seedD) := by
  simp only [Params.crcsDistinct, List.nodup_cons, List.mem_cons, List.not_mem_nil, or_false, not_or] at hc
  obtain ⟨⟨h12, h13, h15, h16⟩, ⟨h23, h25, h26⟩, ⟨h35, h36⟩, h56, _⟩ := hc
  refine ⟨if_pos rfl, ?_, ?_, ?_, ?_⟩
  · rw [cicOfCrc, if_neg (Ne.symm h12), if_pos rfl]
  · rw [cicOfCrc, if_neg (Ne.symm h13), if_neg (Ne.symm h23), if_pos rfl]
  · rw [cicOfCrc, if_neg (Ne.symm h15), if_neg (Ne.symm h25), if_neg (Ne.symm h35), if_pos rfl]
  · rw [cicOfCrc, if_neg (Ne.symm h16), if_neg (Ne.symm h26), if_neg (Ne.symm h36), if_neg (Ne.symm h56), if_pos rfl]

/-- A configuration with two equal constants is refused by `FIXCHK` (U14). -/
theorem execFixchk_of_not_distinct {s : State} (hs : s.startable) (hc : ¬ s.cfg.crcsDistinct) :
    execFixchk s = .refused .crcsNotDistinct := by
  rw [execFixchk, startOp_of_startable _ hs]
  exact if_neg hc

/-! ### The obligations -/

/-- Settles O49: a step by what an engine's move does to `STATUS`, the host's moves by their four kinds. -/
theorem statusTransitions : Obligations.StatusTransitions :=
  ⟨fun _ _ => step_status, fun _ _ => hostMove_status, fun _ _ => hostStart_status, fun _ => rfl⟩

/-- Settles O50: the engine writes `ERR` only in a raise, and the host's only way to change it is a reset. -/
theorem errIsWrittenOnRaiseOnly : Obligations.ErrIsWrittenOnRaiseOnly := by
  refine ⟨fun _ _ => step_err, fun _ _ => hostMove_err, fun _ => rfl, fun _ => State.errCode_of_none, ?_⟩
  intro s c hc
  rw [State.errCode_of_some hc]
  cases c <;> rfl

/-- Settles O51: the frame of a step on the side of the host. -/
theorem stepsNeverWriteWhatTheHostOwns : Obligations.StepsNeverWriteWhatTheHostOwns := by
  intro s t h
  obtain ⟨hsrc, hcfg, hops⟩ := step_sameHostSide h
  exact ⟨hsrc, hcfg, hops⟩

/-- Settles O7: the law of the step for a started operation. -/
theorem stepRunsTheStartedOperation : Obligations.StepRunsTheStartedOperation :=
  fun _ _ => step_of_decodeOp

/-- Settles O37: the rows of `CICTAB` in turn, and the check that `FIXCHK` makes before it runs. -/
theorem eachCrcSelectsItsVariant : Obligations.EachCrcSelectsItsVariant := by
  refine ⟨fun c hc => ?_, fun s hs hc => execFixchk_of_not_distinct hs hc⟩
  obtain ⟨h1, h2, h3, h5, h6⟩ := cicOfCrc_rows hc
  exact ⟨h1, h2, h3, h5, h6, fun _ => cicOfCrc_eq_none⟩

/-- Settles O45: the register write keeps `STATUS`, so the start that follows is accepted, and the step after it decodes the
words that were written. -/
theorem hostStartsAnOperation : Obligations.HostStartsAnOperation := by
  intro s w i hs hd
  exact ⟨_, _, hostWriteRegister_of_ready _ hs, hostStart_of_decodeOp hs hd, rfl, rfl, step_of_decodeOp rfl rfl hd, rfl⟩

/-- Settles O46: both the host's start and the start inside a host operation look at `STATUS` first. -/
theorem startWhileBusyIsRefused : Obligations.StartWhileBusyIsRefused := by
  refine fun s hb => ⟨by rw [hostStart, hb], fun hst i hi => ?_⟩
  obtain ⟨run, hrun⟩ := exec_eq_startOp hi
  rw [hrun, startOp_of_busy run hb hst]

/-- Settles O47: each access looks at `STATUS` first, and a move of the host other than a reset is such an access or a
start. -/
theorem hostAccessWhileBusyIsRefused : Obligations.HostAccessWhileBusyIsRefused := fun _ hb =>
  ⟨fun _ _ _ => if_pos hb, fun _ _ => if_pos hb, fun _ => hostWriteRegister_of_busy _ hb,
    fun _ _ => hostWriteRegister_of_busy _ hb, fun _ => hostMove_of_busy hb⟩

end Sys2Proof.Machine
end

section
/-! PROOFS. Memory (spec 20_memory.md R42 to R49): the two 32-bit accesses byte by byte, and which bytes of DST a step can
change. A step changes DST only in a command of a running `LZDEC`, in `TENC` and in `FIXCHK`; each has its frame lemma. -/

namespace Sys2Proof.Machine

/-! ### The 32-bit accesses -/

theorem Memory.be32_toNat (m : Memory) (a : Nat) :
    (m.be32 a).toNat =
      (m.read a).toNat <<< 24 ||| (m.read (a + 1)).toNat <<< 16 ||| (m.read (a + 2)).toNat <<< 8 |||
        (m.read (a + 3)).toNat := by
  simp only [Memory.be32, BitVec.toNat_append, Nat.shiftLeft_or_distrib, ← Nat.shiftLeft_add]

/-- Byte `k` of a 32-bit write stands at the `k`-th address, the most significant byte first. -/
theorem Memory.read_writeBe32_add (m : Memory) (a : Nat) (v : Word) {k : Nat} (hk : k < 4) :
    (m.writeBe32 a v).read (a + k) = wordByte v k := by
  rw [Memory.read_writeBe32]
  interval_cases k <;> simp

theorem Memory.be32_writeBe32_same (m : Memory) (a : Nat) (v : Word) : (m.writeBe32 a v).be32 a = v := by
  have first : (m.writeBe32 a v).read a = wordByte v 0 := m.read_writeBe32_add a v (k := 0) (by decide)
  have byte (k : Nat) (hk : k < 4) := m.read_writeBe32_add a v hk
  calc (m.writeBe32 a v).be32 a
      = wordByte v 0 ++ wordByte v 1 ++ wordByte v 2 ++ wordByte v 3 := by
        rw [Memory.be32, first, byte 1 (by decide), byte 2 (by decide), byte 3 (by decide)]
    _ = v := wordByte_append v

/-! ### The addresses that a step may write -/

section
variable {s t : State} {a : Nat}

theorem State.mayWrite_of_running (hb : s.status = .busy) (hst : s.start = false) :
    s.mayWrite a ↔ s.dstBase.toNat + s.dp ≤ a ∧ a < s.dstBase.toNat + s.size.toNat := by
  simp [State.mayWrite, hb, hst]

theorem State.mayWrite_of_tenc (hb : s.status = .busy) (hst : s.start = true) (hop : s.op = 3#32) :
    s.mayWrite a ↔ recordAddr s.arg0 s.arg1 ≤ a ∧ a < recordAddr s.arg0 s.arg1 + 16 := by
  simp [State.mayWrite, hb, hst, hop, Config.entryBytes]

theorem State.mayWrite_of_fixchk (hb : s.status = .busy) (hst : s.start = true) (hop : s.op = 5#32) :
    s.mayWrite a ↔ 0x10 ≤ a ∧ a < 0x18 := by
  simp [State.mayWrite, hb, hst, hop, Config.ck0Off]

/-! ### What the host operations leave of DST -/

theorem locatePhaseB_dst (s : State) : (locatePhaseB s).dst = s.dst := by
  obtain ⟨q, _, ⟨_, hq⟩ | ⟨_, hq⟩⟩ := locatePhaseB_cases s <;> rw [hq] <;> rfl

theorem execLocate_dst (h : execLocate s = .next t) : t.dst = s.dst := by
  obtain ⟨_, q, _, ⟨_, rfl⟩ | ⟨_, rfl⟩⟩ := execLocate_next h
  · exact locatePhaseB_dst _
  · rfl

theorem execTdec_dst {sel : MemSel} {base index : Word} (h : execTdec sel base index s = .next t) :
    t.dst = s.dst := by
  obtain ⟨_, ⟨_, rfl⟩ | ⟨_, rfl⟩⟩ := execTdec_next h <;> rfl

theorem execLzdec_dst {srcBase srcLimit dstBase size : Word} (h : execLzdec srcBase srcLimit dstBase size s = .next t) :
    t.dst = s.dst := by
  obtain ⟨_, rfl⟩ := execLzdec_next h
  rfl

/-- `TENC` changes its record only: a raise comes before any write (R116). -/
theorem execTenc_read_outside {base index sv ev sp ep : Word} (h : execTenc base index sv ev sp ep s = .next t)
    (ha : a < recordAddr base index ∨ recordAddr base index + 16 ≤ a) : t.dst.read a = s.dst.read a := by
  obtain ⟨_, ⟨_, rfl⟩ | ⟨_, rfl⟩⟩ := execTenc_next h
  · exact s.dst.read_writeRecord_outside sv ev sp ep ha
  · rfl

/-- `FIXCHK` changes the two checksum words only: a raise comes before any write (R130, R150). -/
theorem execFixchk_read_outside (h : execFixchk s = .next t) (ha : a < 0x10 ∨ 0x18 ≤ a) :
    t.dst.read a = s.dst.read a := by
  obtain ⟨_, _, ⟨_, rfl⟩ | ⟨_, _, rfl⟩ | ⟨_, v, seed, _, rfl⟩⟩ := execFixchk_next h
  · rfl
  · rfl
  · exact s.dst.read_writeChecksum_outside _ _ ha

/-- A started operation, whichever the registers hold, changes DST only where it may write. -/
theorem exec_read_of_not_mayWrite {i : Instr} (hb : s.status = .busy) (hst : s.start = true)
    (hd : decodeOp s.opWords = .ok i) (h : exec i s = .next t) (ha : ¬ s.mayWrite a) :
    t.dst.read a = s.dst.read a := by
  rcases decodeOp_cases hd with ⟨_, rfl⟩ | ⟨_, sel, rfl⟩ | ⟨hop, rfl⟩ | ⟨_, rfl⟩ | ⟨hop, rfl⟩
  · rw [execLocate_dst h]
  · rw [execTdec_dst h]
  · rw [State.mayWrite_of_tenc hb hst hop] at ha
    exact execTenc_read_outside h (by simp only [State.opWords]; omega)
  · rw [execLzdec_dst h]
  · rw [State.mayWrite_of_fixchk hb hst hop] at ha
    exact execFixchk_read_outside h (by omega)

/-! ### What a step of `LZDEC` leaves of DST -/

/-- Bytes written at the destination cursor are inside `size`, so they are in the part not yet decoded. -/
theorem WroteAtCursor.read_of_not_mayWrite {m : Memory} {k : Nat} (h : WroteAtCursor s m k) (hb : s.status = .busy)
    (hst : s.start = false) (ha : ¬ s.mayWrite a) : m.read a = s.dst.read a := by
  rw [State.mayWrite_of_running hb hst] at ha
  have hfits := h.fits
  exact h.frame a (by omega)

theorem busyStep_read_of_not_mayWrite (hb : s.status = .busy) (hst : s.start = false) (h : step s = .next t)
    (ha : ¬ s.mayWrite a) : t.dst.read a = s.dst.read a := by
  rcases busyStep_cases hb hst h with ⟨_, rfl⟩ | ⟨_, _, _, flags, rfl⟩ |
    ⟨_, _, used, m, k, _, _, _, _, hwrote, _, rfl⟩ | ⟨_, used, m, k, c, info, _, _, _, hwrote, _, _, rfl⟩
  · rfl
  · rfl
  · exact hwrote.read_of_not_mayWrite hb hst ha
  · exact hwrote.read_of_not_mayWrite hb hst ha

end

/-! ### The obligations -/

/-- Settles O52: the block is not `BUSY` and the step changes nothing, or the step belongs to a running `LZDEC`, or it runs
the operation that the host has started. -/
theorem stepsWriteDstOnlyWhereAllowed : Obligations.StepsWriteDstOnlyWhereAllowed := by
  intro s t h a ha
  rcases step_cases h with ⟨_, rfl⟩ | ⟨hst, hb, _⟩ | ⟨hst, hb, _⟩ | ⟨hst, hb, _⟩ | ⟨hst, hb, i, hd, hx⟩
  · rfl
  · exact busyStep_read_of_not_mayWrite hb hst h ha
  · exact busyStep_read_of_not_mayWrite hb hst h ha
  · exact busyStep_read_of_not_mayWrite hb hst h ha
  · exact exec_read_of_not_mayWrite hb hst hd hx ha

/-- Settles O55: the word read is its four bytes appended, and byte `k` of the word written stands at the `k`-th address. -/
theorem bigEndianAccess : Obligations.BigEndianAccess := by
  refine ⟨Memory.be32_toNat, fun m a v => ?_⟩
  have byte (k : Nat) (hk : k < 4) := m.read_writeBe32_add a v hk
  exact ⟨byte 0 (by decide), byte 1 (by decide), byte 2 (by decide), byte 3 (by decide),
    fun _ => m.read_writeBe32_outside v, m.be32_writeBe32_same a v⟩

end Sys2Proof.Machine
end

section
/-! PROOFS. Encoding (spec 30_encoding.md): the decoder as the inverse of the encoder (R62 to R68, R73), the pseudo-command
`REF` (R76) as the one back-reference of a distance and a length (R67), the reading of an assembled stream group by group
(R75), and the start of what no operation encodes (R74). -/

namespace Sys2Proof

/-! ### The numbers of a back-reference -/

theorem lengthNibble_eq_zero_iff (b0 : Byte) : lengthNibble b0 = 0#4 ↔ b0.toNat >>> 4 = 0 := by
  rw [← lengthNibble_toNat, ← BitVec.toNat_inj, BitVec.toNat_zero]

theorem refByte0_toNat (n : BitVec 4) (d : BitVec 12) : (refByte0 n d).toNat = n.toNat <<< 4 ||| d.toNat >>> 8 := by
  have hd : d.toNat >>> 8 < 2 ^ 4 := by rw [Nat.shiftRight_eq_div_pow]; omega
  refine (BitVec.toNat_append n (d.extractLsb' 8 4)).trans ?_
  rw [BitVec.extractLsb'_toNat, Nat.mod_eq_of_lt hd]

theorem refByte1_toNat (d : BitVec 12) : (refByte1 d).toNat = d.toNat &&& 0xFF := by
  rw [refByte1, BitVec.extractLsb'_toNat, Nat.shiftRight_zero, ← Nat.and_two_pow_sub_one_eq_mod]

/-! ### The decoder inverts the encoder -/

theorem decodeCommand_short {b0 : Byte} (b1 : Byte) (rest : List Byte) (h : lengthNibble b0 ≠ 0#4) :
    decodeCommand false (b0 :: b1 :: rest) = .ok (.refs (lengthNibble b0) (distanceField b0 b1), rest) :=
  if_neg h

theorem decodeCommand_long {b0 : Byte} (b1 extra : Byte) (rest : List Byte) (h : lengthNibble b0 = 0#4) :
    decodeCommand false (b0 :: b1 :: extra :: rest) = .ok (.refl (distanceField b0 b1) extra, rest) :=
  if_pos h

theorem decodeControl_eq_ok_iff {bytes rest : List Byte} {i : Instr} :
    decodeControl bytes = .ok (i, rest) ↔ ∃ flags, i = .ctl flags ∧ bytes = flags :: rest := by
  cases bytes with
  | nil => simp [decodeControl]
  | cons flags tail => simp [decodeControl, eq_comm]

/-- A command that decodes is well formed, and the bytes it takes are its encoding (R68). -/
theorem encode_of_decodeCommand {flag : Bool} {bytes rest : List Byte} {i : Instr}
    (h : decodeCommand flag bytes = .ok (i, rest)) :
    i.wellFormed = true ∧ ∃ payload, encode i = .command flag payload ∧ bytes = payload ++ rest := by
  match flag, bytes with
  | true, [] => cases h
  | true, v :: tail =>
    cases h
    exact ⟨rfl, [v], rfl, rfl⟩
  | false, [] => cases h
  | false, [b0] => cases h
  | false, b0 :: b1 :: tail =>
    by_cases hn : lengthNibble b0 = 0#4
    · match tail with
      | [] =>
        simp [decodeCommand, decodeBackRef, hn] at h
      | extra :: tail =>
        cases (decodeCommand_long b1 extra tail hn).symm.trans h
        exact ⟨rfl, _, rfl, by simp [← hn]⟩
    · cases (decodeCommand_short b1 tail hn).symm.trans h
      exact ⟨by simpa [Instr.wellFormed] using hn, _, rfl, by simp⟩

/-- The commands that a flag and bytes begin with are those whose encoding they begin with. -/
theorem decodeCommand_eq_ok_iff {flag : Bool} {bytes rest : List Byte} {i : Instr} :
    decodeCommand flag bytes = .ok (i, rest) ↔
      i.wellFormed = true ∧ ∃ payload, encode i = .command flag payload ∧ bytes = payload ++ rest := by
  refine ⟨encode_of_decodeCommand, ?_⟩
  rintro ⟨hw, payload, hi, rfl⟩
  exact Machine.decodeCommand_commandParts i flag payload rest hw (by rw [Machine.commandParts, hi])

theorem decode_encode_followedBy_of_command {i : Instr} {flag : Bool} {payload : List Byte} (rest : List Byte)
    (hw : i.wellFormed = true) (hi : encode i = .command flag payload) :
    decode ((encode i).followedBy rest) = .ok (i, rest) := by
  rw [hi]
  exact decodeCommand_eq_ok_iff.mpr ⟨hw, payload, hi, rfl⟩

/-- The payload lengths of the commands: one byte after flag 1, two or three after flag 0 (R68). -/
theorem payload_length_of_encode {i : Instr} {flag : Bool} {payload : List Byte} (hi : encode i = .command flag payload) :
    payload.length = i.streamBytes ∧
      ((flag = true ∧ payload.length = 1) ∨ (flag = false ∧ (payload.length = 2 ∨ payload.length = 3))) := by
  cases i with
  | lit v => cases hi; exact ⟨rfl, .inl ⟨rfl, rfl⟩⟩
  | refs n d => cases hi; exact ⟨rfl, .inr ⟨rfl, .inl rfl⟩⟩
  | refl d extra => cases hi; exact ⟨rfl, .inr ⟨rfl, .inr rfl⟩⟩
  | tdec sel base index => cases sel <;> cases hi
  | ctl | locate | tenc | lzdec | fixchk => cases hi

/-! ### What no operation encodes -/

theorem decodeOp_of_reservedOp {w : OpWords} (h : w.op = 0#32 ∨ 6 ≤ w.op.toNat) :
    decodeOp w = .error (.reservedOp w.op) := by
  have reserved (k : Nat) (h1 : 1 ≤ k) (h5 : k ≤ 5) : w.op ≠ BitVec.ofNat 32 k := by
    intro hk
    rw [hk, BitVec.toNat_ofNat, ← BitVec.toNat_inj, BitVec.toNat_ofNat, BitVec.toNat_zero] at h
    omega
  rw [decodeOp, if_neg (reserved 1 _ _), if_neg (reserved 2 _ _), if_neg (reserved 3 _ _), if_neg (reserved 4 _ _),
    if_neg (reserved 5 _ _)] <;> decide

theorem decodeOp_of_reservedSelect {w : OpWords} (hop : w.op = 2#32) (h0 : w.arg0 ≠ 0#32) (h1 : w.arg0 ≠ 1#32) :
    decodeOp w = .error (.reservedSelect w.arg0) := by
  have hsel : decodeSelect w.arg0 = .error (.reservedSelect w.arg0) := by rw [decodeSelect, if_neg h0, if_neg h1]
  simp [decodeOp, hop, hsel]

end Sys2Proof

namespace Sys2Proof.Machine

/-! ### The pseudo-command `REF` -/

theorem refsLength_bounds {n : BitVec 4} (h : n ≠ 0#4) : 3 ≤ refsLength n ∧ refsLength n ≤ 17 := by
  have hn : n.toNat ≠ 0 := fun h0 => h (BitVec.eq_of_toNat_eq h0)
  unfold refsLength
  omega

theorem reflLength_bounds (extra : Byte) : 18 ≤ reflLength extra ∧ reflLength extra ≤ 273 := by
  unfold reflLength
  omega

theorem refCommand_refsLength {n : BitVec 4} (d : BitVec 12) (h : n ≠ 0#4) :
    refCommand d (refsLength n) = some (.refs n d) := by
  rw [refCommand, if_pos (refsLength_bounds h), refsLength, Nat.add_sub_cancel, BitVec.ofNat_toNat, BitVec.setWidth_eq]

theorem refCommand_reflLength (d : BitVec 12) (extra : Byte) : refCommand d (reflLength extra) = some (.refl d extra) := by
  obtain ⟨hlo, hhi⟩ := reflLength_bounds extra
  rw [refCommand, if_neg (by omega), if_pos ⟨hlo, hhi⟩, reflLength, Nat.add_sub_cancel, BitVec.ofNat_toNat,
    BitVec.setWidth_eq]

/-- Each length from 3 to 17 is that of one nonzero length nibble. -/
theorem exists_refsLength_eq {len : Nat} (h3 : 3 ≤ len) (h17 : len ≤ 17) :
    ∃ n : BitVec 4, n ≠ 0#4 ∧ refsLength n = len ∧ n.toNat = len - 2 := by
  have hn : (BitVec.ofNat 4 (len - 2)).toNat = len - 2 := Nat.mod_eq_of_lt (by omega)
  refine ⟨BitVec.ofNat 4 (len - 2), fun h0 => ?_, by rw [refsLength, hn]; omega, hn⟩
  rw [h0, BitVec.toNat_zero] at hn
  omega

/-- Each length from 18 to 273 is that of one third byte. -/
theorem exists_reflLength_eq {len : Nat} (h18 : 18 ≤ len) (h273 : len ≤ 273) :
    ∃ extra : Byte, reflLength extra = len ∧ extra.toNat = len - 18 := by
  have hn : (BitVec.ofNat 8 (len - 18)).toNat = len - 18 := Nat.mod_eq_of_lt (by omega)
  exact ⟨BitVec.ofNat 8 (len - 18), by rw [reflLength, hn]; omega, hn⟩

/-- `bytes` are the payload of a back-reference of distance field `d` and length `len`. -/
def IsBackReference (d : BitVec 12) (len : Nat) (bytes : List Byte) : Prop :=
  (∃ n, decodeCommand false bytes = .ok (.refs n d, []) ∧ refsLength n = len) ∨
    ∃ extra, decodeCommand false bytes = .ok (.refl d extra, []) ∧ reflLength extra = len

/-- The payload of a back-reference is the encoding of the command that `REF` stands for. -/
theorem IsBackReference.encode_refCommand {d : BitVec 12} {len : Nat} {bytes : List Byte}
    (h : IsBackReference d len bytes) : ∃ i, refCommand d len = some i ∧ encode i = .command false bytes := by
  rcases h with ⟨n, hdec, rfl⟩ | ⟨extra, hdec, rfl⟩
  · obtain ⟨hw, payload, hi, rfl⟩ := encode_of_decodeCommand hdec
    have hn : n ≠ 0#4 := by simpa [Instr.wellFormed] using hw
    exact ⟨_, refCommand_refsLength d hn, by rw [hi, List.append_nil]⟩
  · obtain ⟨_, payload, hi, rfl⟩ := encode_of_decodeCommand hdec
    exact ⟨_, refCommand_reflLength d extra, by rw [hi, List.append_nil]⟩

theorem IsBackReference.unique {d : BitVec 12} {len : Nat} {bytes bytes' : List Byte} (h : IsBackReference d len bytes)
    (h' : IsBackReference d len bytes') : bytes' = bytes := by
  obtain ⟨i, hi, henc⟩ := h.encode_refCommand
  obtain ⟨j, hj, henc'⟩ := h'.encode_refCommand
  cases hi.symm.trans hj
  cases henc.symm.trans henc'
  rfl

theorem exists_isBackReference (d : BitVec 12) {len : Nat} (h3 : 3 ≤ len) (h273 : len ≤ 273) :
    ∃ bytes, IsBackReference d len bytes := by
  rcases Nat.lt_or_ge 17 len with h | h
  · obtain ⟨extra, hlen, _⟩ := exists_reflLength_eq h h273
    exact ⟨_, .inr ⟨extra, decodeCommand_eq_ok_iff.mpr ⟨rfl, _, rfl, (List.append_nil _).symm⟩, hlen⟩⟩
  · obtain ⟨n, hn, hlen, _⟩ := exists_refsLength_eq h3 h
    have hw : (Instr.refs n d).wellFormed = true := by simpa [Instr.wellFormed] using hn
    exact ⟨_, .inl ⟨n, decodeCommand_eq_ok_iff.mpr ⟨hw, _, rfl, (List.append_nil _).symm⟩, hlen⟩⟩

/-! ### Reading an assembled stream -/

/-- The decoder reads the command `i` back from the flag and the payload `part`. -/
def ReadsBack (i : Instr) (part : Bool × List Byte) : Prop :=
  ∀ tail, decodeCommand part.1 (part.2 ++ tail) = .ok (i, tail)

theorem readsBack_of_mapM_commandParts {commands : List Instr} {parts : List (Bool × List Byte)}
    (hw : ∀ i ∈ commands, i.wellFormed = true) (h : commands.mapM commandParts = some parts) :
    List.Forall₂ ReadsBack commands parts := by
  induction commands generalizing parts with
  | nil => cases h; exact .nil
  | cons i commands ih =>
    obtain ⟨hi, hw⟩ := List.forall_mem_cons.mp hw
    simp only [List.mapM_cons, Option.bind_eq_bind, Option.bind_eq_some_iff, Option.pure_def, Option.some.injEq] at h
    obtain ⟨part, hpart, parts, hparts, rfl⟩ := h
    exact .cons (fun tail => decodeCommand_commandParts i part.1 part.2 tail hi hpart) (ih hw hparts)

/-- With no flag left the control byte is read first, and gives eight (R62). -/
theorem readCommands_control (count : Nat) (ctl flags : Byte) (bytes : List Byte) :
    readCommands (count + 1) ctl 0 (flags :: bytes) = readCommands (count + 1) flags 8 bytes := rfl

theorem readCommand_of_readsBack {i : Instr} {part : Bool × List Byte} {flags : List Bool} (n : Nat) (tail : List Byte)
    (h : ReadsBack i part) (hflags : flags.length ≤ 7) :
    readCommand (groupFlags (part.1 :: flags)) (n + 1) (part.2 ++ tail) = .ok (i, groupFlags flags, n, tail) := by
  simp only [readCommand, groupFlags_msb, h tail, groupFlags_shift _ _ hflags]

/-- The commands of one group are read from its payloads while its flags are shifted out, and the reading goes on behind
them. -/
theorem readCommands_payloads {commands more : List Instr} {parts : List (Bool × List Byte)} {nbits count : Nat}
    {tail rest : List Byte} (h : List.Forall₂ ReadsBack commands parts) (hbits : parts.length ≤ nbits) (h8 : nbits ≤ 8)
    (htail : readCommands count (groupFlags []) (nbits - parts.length) tail = .ok (more, rest)) :
    readCommands (commands.length + count) (groupFlags (parts.map Prod.fst)) nbits
      ((parts.map Prod.snd).flatten ++ tail) = .ok (commands ++ more, rest) := by
  induction h generalizing nbits with
  | nil => simpa using htail
  | @cons i part commands parts hi _ ih =>
    simp only [List.length_cons] at hbits htail
    obtain ⟨n, rfl⟩ : ∃ n, nbits = n + 1 := ⟨nbits - 1, by omega⟩
    rw [Nat.add_sub_add_right] at htail
    have hflags : (parts.map Prod.fst).length ≤ 7 := by rw [List.length_map]; omega
    rw [List.length_cons, Nat.add_right_comm, readCommands, List.map_cons, List.map_cons, List.flatten_cons,
      List.append_assoc, readCommand_of_readsBack n _ hi hflags]
    simp only [ih (by omega) (by omega) htail, List.cons_append]

theorem readCommands_assembleGroup {commands more : List Instr} {parts : List (Bool × List Byte)} {count : Nat}
    {tail rest : List Byte} (ctl : Byte) (h : List.Forall₂ ReadsBack commands parts) (hpos : 0 < commands.length)
    (h8 : parts.length ≤ 8)
    (htail : readCommands count (groupFlags []) (8 - parts.length) tail = .ok (more, rest)) :
    readCommands (commands.length + count) ctl 0 (assembleGroup parts ++ tail) = .ok (commands ++ more, rest) := by
  obtain ⟨n, hn⟩ : ∃ n, commands.length + count = n + 1 := ⟨commands.length + count - 1, by omega⟩
  have hgroup := readCommands_payloads h h8 (le_refl 8) htail
  rw [hn] at hgroup ⊢
  exact (readCommands_control n ctl _ _).trans hgroup

theorem assembleGroups_nil (groups : Nat) : assembleGroups groups [] = [] := by cases groups <;> rfl

/-- The groups are read one after the other: behind a group that is not the last no flag is left, so that the control byte
of the next is read; behind the last one no command is left. -/
theorem readCommands_assembleGroups {groups : Nat} {commands : List Instr} {parts : List (Bool × List Byte)}
    (ctl : Byte) (rest : List Byte) (h : List.Forall₂ ReadsBack commands parts) (hlen : parts.length ≤ groups) :
    readCommands commands.length ctl 0 (assembleGroups groups parts ++ rest) = .ok (commands, rest) := by
  induction groups generalizing commands parts ctl with
  | zero =>
    cases List.eq_nil_of_length_eq_zero (Nat.le_zero.mp hlen)
    cases h
    rfl
  | succ groups ih =>
    cases h with
    | nil => rfl
    | @cons i part commands parts hi hs =>
      have hall := List.Forall₂.cons hi hs
      rw [List.length_cons] at hlen
      have htail : readCommands ((i :: commands).drop 8).length (groupFlags [])
          (8 - ((part :: parts).take 8).length) (assembleGroups groups ((part :: parts).drop 8) ++ rest) =
            .ok ((i :: commands).drop 8, rest) := by
        rcases Nat.lt_or_ge parts.length 8 with hlast | hfull
        · rw [List.drop_eq_nil_of_le (by rw [List.length_cons, hs.length_eq]; exact hlast),
            List.drop_eq_nil_of_le (by rw [List.length_cons]; exact hlast), assembleGroups_nil]
          rfl
        · have hbits : 8 - ((part :: parts).take 8).length = 0 := by
            rw [List.length_take, List.length_cons]; omega
          rw [hbits]
          exact ih (groupFlags []) (List.forall₂_drop 8 hall) (by rw [List.length_drop, List.length_cons]; omega)
      have hgroup := readCommands_assembleGroup ctl (List.forall₂_take 8 hall) (by simp) (by simp) htail
      rw [← List.length_append, List.take_append_drop, ← List.append_assoc] at hgroup
      exact hgroup

/-! ### The start of a reserved value -/

theorem hostStart_of_ready {s : State} (hs : s.ready) : hostStart s = acceptStart s := by
  rcases hs with hs | hs <;> rw [hostStart, hs]

/-! ### The obligations -/

/-- Settles O1: a control byte and the words of an operation decode by the tables, a command by the inverse of its
encoding. -/
theorem decodeOfEncodeIsTheInstruction : Obligations.DecodeOfEncodeIsTheInstruction := by
  intro i rest hw
  cases i with
  | ctl flags => rfl
  | lit | refs | refl => exact decode_encode_followedBy_of_command rest hw rfl
  | tdec sel base index => cases sel <;> rfl
  | locate | tenc | lzdec | fixchk => rfl

/-- Settles O2: the decoder's inverse, with the payload length of each form. -/
theorem decodedStreamBytesAreTheEncoding : Obligations.DecodedStreamBytesAreTheEncoding := by
  refine ⟨fun bytes rest i h => ?_, fun flag bytes rest i h => ?_⟩
  · obtain ⟨flags, rfl, rfl⟩ := decodeControl_eq_ok_iff.mp h
    exact ⟨[flags], rfl, rfl, rfl, rfl⟩
  · obtain ⟨hw, payload, hi, hbytes⟩ := encode_of_decodeCommand h
    obtain ⟨hlen, hform⟩ := payload_length_of_encode hi
    refine ⟨hw, payload, hi, hlen, hbytes, ?_⟩
    rcases hform with ⟨rfl, h1⟩ | ⟨rfl, h23⟩
    · simp [h1]
    · exact ⟨⟨nofun, by omega⟩, fun _ => h23⟩

/-- Settles O4: the form follows from `b0 >> 4`, and a pair has the one encoding that `REF` gives it. -/
theorem lengthAndDistanceAssembly : Obligations.LengthAndDistanceAssembly := by
  refine ⟨fun b0 b1 extra rest => ⟨fun hn => ?_, fun hn => ?_⟩, fun d len h3 h273 => ?_⟩
  · have hnibble := mt (lengthNibble_eq_zero_iff b0).mp hn
    exact ⟨_, _, decodeCommand_short b1 rest hnibble, distanceField_toNat b0 b1,
      by rw [refsLength, lengthNibble_toNat], refsLength_bounds hnibble⟩
  · exact ⟨_, decodeCommand_long b1 extra rest ((lengthNibble_eq_zero_iff b0).mpr hn), distanceField_toNat b0 b1, rfl,
      reflLength_bounds extra⟩
  · obtain ⟨bytes, h⟩ := exists_isBackReference d h3 h273
    exact ⟨bytes, h, fun _ => h.unique⟩

/-- Settles O5: every command reads back from its part, hence each group of parts from its bytes. -/
theorem assembledStreamReadsBack : Obligations.AssembledStreamReadsBack := by
  intro commands bytes rest ctl hw h
  unfold assemble at h
  split at h
  · next parts hparts =>
    cases h
    exact readCommands_assembleGroups ctl rest (readsBack_of_mapM_commandParts hw hparts) (le_refl _)
  · cases h

/-- Settles O3: the decoder's answer on each of the fixed words. -/
theorem sampleWordsDecode : Obligations.SampleWordsDecode := by
  unfold Obligations.SampleWordsDecode
  decide

/-- Settles O6: the command of each length, and its payload bytes as numbers. -/
theorem refPseudoCommand : Obligations.RefPseudoCommand := by
  refine fun d len => ⟨fun h3 h17 => ?_, fun h18 h273 => ?_, fun h => ?_⟩
  · obtain ⟨n, hn, rfl, htoNat⟩ := exists_refsLength_eq h3 h17
    refine ⟨n, refCommand_refsLength d hn, by simpa [Instr.wellFormed] using hn, rfl, ?_⟩
    rw [encode, ← htoNat, ← refByte0_toNat, ← refByte1_toNat]
    simp only [BitVec.ofNat_toNat, BitVec.setWidth_eq]
  · obtain ⟨extra, rfl, htoNat⟩ := exists_reflLength_eq h18 h273
    refine ⟨extra, refCommand_reflLength d extra, rfl, ?_⟩
    have h0 : (refByte0 0#4 d).toNat = d.toNat >>> 8 := by
      rw [refByte0_toNat, BitVec.toNat_zero, Nat.zero_shiftLeft, Nat.zero_or]
    rw [encode, ← htoNat, ← h0, ← refByte1_toNat]
    simp only [BitVec.ofNat_toNat, BitVec.setWidth_eq]
  · rw [refCommand, if_neg (by omega), if_neg (by omega)]

/-- Settles O11: the registers decode to nothing, and the start answers the decoder's refusal. -/
theorem reservedStartIsRefused : Obligations.ReservedStartIsRefused := by
  refine fun s hs => ⟨fun hop => ?_, fun hop h0 h1 => ?_⟩
  · have hd : decodeOp s.opWords = .error (.reservedOp s.op) := decodeOp_of_reservedOp hop
    simp only [hostStart_of_ready hs, acceptStart, fetchOperation, hd]
  · have hd : decodeOp s.opWords = .error (.reservedSelect s.arg0) := decodeOp_of_reservedSelect hop h0 h1
    simp only [hostStart_of_ready hs, acceptStart, fetchOperation, hd]

end Sys2Proof.Machine
end

section
/-! PROOFS. The LZ decoder (spec 40_lz_decoder.md): the outcomes of a stream command, once for all four (R83 to R90); the
command that the bytes at `sp` make due (R82); the induction over a run of `LZDEC` that completes (R91), and that every run
ends (R95). -/

namespace Sys2Proof.Machine

section
variable {s t u : State}

/-! ### The outcomes of a back-reference -/

theorem inSource_all_of_last {n : Nat} (h : s.inSource (s.sp + (n - 1))) : ∀ j, j < n → s.inSource (s.sp + j) :=
  fun _ hj => State.inSource_of_le h (by omega)

/-- The payload is read whole, the copy fits, the control byte is shifted (R87, R88, R90, R94). -/
theorem backReference_fits {bytes offset length : Nat} (hin : ∀ j, j < bytes → s.inSource (s.sp + j)) (hpos : 0 < offset)
    (hoff : offset ≤ s.dp) (hroom : length ≤ s.room) :
    ∃ m, (backReference bytes offset length s).state =
        { s with
          sp := s.sp + bytes
          dst := m
          dp := s.dp + length
          ctl := s.ctl <<< 1
          nbits := s.nbits - 1 } ∧
      OverlapCopy s.dst m (s.dstBase.toNat + s.dp) offset length := by
  obtain ⟨m, hm, hlaw⟩ := copy_fits offset length { s with sp := s.sp + bytes } hpos hoff hroom
  exact ⟨m, by rw [backReference, consume_inside _ _ hin, Effect.andThen_ok, hm]; rfl, hlaw⟩

/-- The copy is too long: what fits is written, and the control byte is not shifted (R89, R90). -/
theorem backReference_overruns {bytes offset length : Nat} (hin : ∀ j, j < bytes → s.inSource (s.sp + j))
    (hpos : 0 < offset) (hoff : offset ≤ s.dp) (hroom : s.room < length) :
    ∃ m, (backReference bytes offset length s).state =
        ({ s with sp := s.sp + bytes, dst := m, dp := s.dp + s.room } : State).raise .outputOverrun (s.dp + s.room) ∧
      OverlapCopy s.dst m (s.dstBase.toNat + s.dp) offset s.room := by
  obtain ⟨m, hm, hlaw⟩ := copy_overruns offset length { s with sp := s.sp + bytes } hpos hoff hroom
  exact ⟨m, by rw [backReference, consume_inside _ _ hin, Effect.andThen_ok, hm]; rfl, hlaw⟩

/-- The copy starts before the first destination byte (R89, R97). -/
theorem backReference_before {bytes offset length : Nat} (hin : ∀ j, j < bytes → s.inSource (s.sp + j))
    (hoff : s.dp < offset) (hlen : 0 < length) :
    (backReference bytes offset length s).state =
      ({ s with sp := s.sp + bytes } : State).raise .boundsError s.dp := by
  rw [backReference, consume_inside _ _ hin, Effect.andThen_ok, copy_before (s := { s with sp := s.sp + bytes }) hoff hlen]
  rfl

/-- A back-reference that does not fault had its payload in the source, a start to copy from, and the room for its length. -/
theorem backReference_fits_of_not_fault {bytes offset length : Nat} (hpos : 0 < offset) (hlen : 0 < length)
    (h : (backReference bytes offset length s).state.status ≠ .fault) :
    (∀ j, j < bytes → s.inSource (s.sp + j)) ∧ offset ≤ s.dp ∧ length ≤ s.room := by
  rcases inSource_or_cut s bytes with hin | ⟨k, hk, hbefore, hcut⟩
  · refine ⟨hin, ?_⟩
    by_contra hnot
    apply h
    rcases Nat.lt_or_ge s.dp offset with hoff | hoff
    · rw [backReference_before hin hoff hlen]; rfl
    · obtain ⟨m, hm, _⟩ := backReference_overruns (length := length) hin hpos hoff (by omega)
      rw [hm]; rfl
  · apply absurd _ h
    rw [backReference, consume_cut _ _ _ hk hbefore hcut]; rfl

/-! ### The meaning of a due command -/

/-- A due back-reference, short or long (R87, R88). -/
theorem exec_of_backRefParts {i : Instr} {q len : Nat} (hw : i.wellFormed = true) (hi : backRefParts i = some (q, len))
    (hdue : s.backRefDue) : exec i s = .next (backReference i.streamBytes q len s).state := by
  cases i with
  | refs n d =>
    cases hi
    have hn : n ≠ 0#4 := by simpa [Instr.wellFormed] using hw
    exact (if_neg hn).trans (streamCommand_of_due _ hdue)
  | refl d extra => cases hi; exact streamCommand_of_due _ hdue
  | ctl | lit | locate | tdec | tenc | lzdec | fixchk => cases hi

theorem backRefParts_pos {i : Instr} {q len : Nat} (hi : backRefParts i = some (q, len)) : 0 < q ∧ 0 < len := by
  cases i with
  | refs n d => cases hi; exact ⟨Nat.succ_pos _, Nat.succ_pos _⟩
  | refl d extra => cases hi; exact ⟨Nat.succ_pos _, Nat.succ_pos _⟩
  | ctl | lit | locate | tdec | tenc | lzdec | fixchk => cases hi

/-- The command `i` is due (R82). -/
def State.due (s : State) : Instr → Prop
  | .ctl _ => s.controlDue
  | .lit _ => s.literalDue
  | .refs _ _ => s.backRefDue
  | .refl _ _ => s.backRefDue
  | _ => False

/-- Every command that is due first fetches its bytes; its own part `k` comes after them (R85 to R88). -/
theorem exec_of_due {i : Instr} (hw : i.wellFormed = true) (hdue : s.due i) :
    ∃ k, exec i s = .next ((consume i.streamBytes s).andThen k).state := by
  have assoc (e : Effect) (k k' : State → Effect) :
      (e.andThen k).andThen k' = e.andThen fun t => (k t).andThen k' := by cases e <;> rfl
  cases i with
  | ctl flags => exact ⟨_, streamCommand_of_due _ hdue⟩
  | lit v => exact ⟨_, (streamCommand_of_due (due := s.literalDue) _ hdue).trans (by rw [assoc]; rfl)⟩
  | refs n d => exact ⟨_, (exec_of_backRefParts hw rfl hdue).trans (by rw [backReference, assoc])⟩
  | refl d extra => exact ⟨_, (exec_of_backRefParts hw rfl hdue).trans (by rw [backReference, assoc])⟩
  | locate | tdec | tenc | lzdec | fixchk => exact hdue.elim

/-- A command that is cut off raises `TruncatedStream` at its first missing byte (R83). -/
theorem exec_of_cut {i : Instr} {k : Nat} (hw : i.wellFormed = true) (hdue : s.due i) (hk : k < i.streamBytes)
    (hbefore : ∀ j, j < k → s.inSource (s.sp + j)) (hcut : ¬ s.inSource (s.sp + k)) :
    exec i s = .next (({ s with sp := s.sp + k } : State).raise .truncatedStream (s.sp + k)) := by
  obtain ⟨rest, hrest⟩ := exec_of_due hw hdue
  rw [hrest, consume_cut _ _ _ hk hbefore hcut]
  rfl

/-! ### The command at `sp` -/

theorem lengthNibble_of_shift {b0 : Byte} (h : b0 >>> 4 = 0#8) : lengthNibble b0 = 0#4 :=
  (lengthNibble_eq_zero_iff b0).mpr (by rw [← BitVec.toNat_ushiftRight, h, BitVec.toNat_zero])

/-- Where the first byte outside the source is the `k`-th, `k` bytes are available. -/
theorem State.available_length_of_cut {n a k : Nat} (hk : k ≤ n) (hbefore : ∀ j, j < k → s.inSource (a + j))
    (hcut : ¬ s.inSource (a + k)) : (s.available n a).length = k := by
  have hle : (s.available n a).length ≤ k := by
    by_contra h
    exact hcut (s.available_getElem n a k (by omega)).2
  rcases s.available_end n a with hlen | ⟨_, hout⟩
  · omega
  · by_contra hne
    exact hout (hbefore _ (by omega))

/-- Bytes that stand at `a` inside the source are the first that are available. -/
theorem State.available_eq_append {n a : Nat} {payload : List Byte} (hlen : payload.length ≤ n)
    (hat : ∀ (k : Nat) (b : Byte), payload[k]? = some b → s.inSource (a + k) ∧ s.src.read (a + k) = b) :
    ∃ rest, s.available n a = payload ++ rest := by
  induction payload generalizing n a with
  | nil => exact ⟨_, rfl⟩
  | cons b payload ih =>
    obtain ⟨hin, hb⟩ : s.inSource a ∧ s.src.read a = b := hat 0 b rfl
    obtain ⟨n, rfl⟩ : ∃ m, n = m + 1 := ⟨n - 1, by simp at hlen; omega⟩
    obtain ⟨rest, hrest⟩ := ih (n := n) (a := a + 1) (by simpa using hlen) fun k c hc => by
      rw [Nat.add_right_comm a 1 k]
      exact hat (k + 1) c hc
    exact ⟨rest, by rw [State.available, if_pos hin, hb, hrest, List.cons_append]⟩

theorem decodeNext_control {flags : Byte} {rest : List Byte} (hn : s.nbits = 0) (hb : s.commandBytes = flags :: rest) :
    s.decodeNext = .ok (.ctl flags, rest) := by rw [State.decodeNext, if_pos hn, hb, decodeControl]

theorem decodeNext_command {i : Instr} {payload rest : List Byte} (hn : s.nbits ≠ 0) (hw : i.wellFormed = true)
    (hi : encode i = .command s.flag payload) (hb : s.commandBytes = payload ++ rest) :
    s.decodeNext = .ok (i, rest) := by
  rw [State.decodeNext, if_neg hn, hb]
  exact decodeCommand_eq_ok_iff.mpr ⟨hw, payload, hi, rfl⟩

/-- A control byte is encoded by a `CTL` only. -/
theorem eq_ctl_of_encode {i : Instr} {payload : List Byte} (h : encode i = .control payload) :
    ∃ flags, i = .ctl flags ∧ payload = [flags] := by
  cases i with
  | ctl flags => cases h; exact ⟨flags, rfl, rfl⟩
  | tdec sel base index => cases sel <;> cases h
  | lit | refs | refl | locate | tenc | lzdec | fixchk => cases h

theorem State.eq_read_of_commandBytes {b : Byte} {rest : List Byte} (h : s.commandBytes = b :: rest) :
    b = s.src.read s.sp := by
  have hpos : 0 < (s.available maxCommandBytes s.sp).length := by
    change 0 < s.commandBytes.length
    simp [h]
  obtain ⟨hread, _⟩ := s.available_getElem maxCommandBytes s.sp 0 hpos
  exact (List.getElem_of_eq h hpos).symm.trans hread

/-- Fewer bytes than a command needs do not decode: none at all, one of a back-reference, two of a long one (R68). -/
theorem decodeNext_of_short
    (h : s.commandBytes.length = 0 ∨ (s.nbits ≠ 0 ∧ s.flag = false ∧ (s.commandBytes.length = 1 ∨
      (s.commandBytes.length = 2 ∧ lengthNibble (s.src.read s.sp) = 0#4)))) :
    ∃ e, s.decodeNext = .error e := by
  refine ⟨.truncated, ?_⟩
  rw [State.decodeNext]
  rcases h with h0 | ⟨hn, hf, h1 | ⟨h2, hlong⟩⟩
  · rw [List.length_eq_zero_iff.mp h0]
    cases s.flag <;> exact ite_self _
  · obtain ⟨b0, hb⟩ := List.length_eq_one_iff.mp h1
    rw [if_neg hn, hf, hb]
    rfl
  · obtain ⟨b0, b1, hb⟩ := List.length_eq_two.mp h2
    rw [← State.eq_read_of_commandBytes hb] at hlong
    rw [if_neg hn, hf, hb]
    exact if_pos hlong

theorem step_of_decodeNext_error {e : Reject} (hb : s.status = .busy) (hst : s.start = false)
    (hdp : s.dp < s.size.toNat) (hd : s.decodeNext = .error e) : step s = .next s.cutOff := by
  rw [step_of_busy hb hst, fetchCommand, if_pos hdp, hd]

theorem step_of_complete (hb : s.status = .busy) (hst : s.start = false) (hdp : s.size.toNat ≤ s.dp) :
    step s = .next (lzdecComplete s) := by
  rw [step_of_busy hb hst, fetchCommand, if_neg (Nat.not_lt.mpr hdp)]

/-- With the size reached, `RES1` is the size. -/
theorem lzdecComplete_res1_of_dp_eq (h : s.dp = s.size.toNat) : (lzdecComplete s).res1 = s.size := by
  rw [lzdecComplete_res1, h, BitVec.ofNat_toNat, BitVec.setWidth_eq]

theorem lzdecComplete_res0_of_fits (h : s.sp < 2 ^ 32) : (lzdecComplete s).res0 = BitVec.ofNat 32 s.sp := if_pos h

theorem exec_lzdec_of_startable (srcBase srcLimit dstBase size : Word) (h : s.startable) :
    exec (.lzdec srcBase srcLimit dstBase size) s = .next (lzdecInit srcBase srcLimit dstBase size (s.begin false)) :=
  startOp_of_startable (fun t => .next (lzdecInit srcBase srcLimit dstBase size t)) h

/-! ### A running `LZDEC` -/

/-- `LZDEC` is running: the operation has been begun and has not ended. -/
structure State.Running (s : State) : Prop where
  busy : s.status = .busy
  begun : s.start = false

theorem running_lzdecInit (srcBase srcLimit dstBase size : Word) (s : State) :
    (lzdecInit srcBase srcLimit dstBase size (s.begin false)).Running := ⟨rfl, rfl⟩

/-- A step of a running `LZDEC` completes it when `size` bytes are there, and else goes on or faults (R91, R96). -/
theorem State.Running.step_cases (hs : s.Running) (h : step s = .next t) :
    (s.size.toNat ≤ s.dp ∧ t = lzdecComplete s) ∨
      (s.dp < s.size.toNat ∧ (t.Running ∨ t.status = .fault)) := by
  rcases busyStep_cases hs.busy hs.begun h with hend | ⟨hdp, _, _, flags, rfl⟩ |
    ⟨hdp, _, used, m, k, _, _, _, _, _, _, rfl⟩ | ⟨hdp, used, m, k, c, info, _, _, _, _, _, _, rfl⟩
  · exact .inl hend
  · exact .inr ⟨hdp, .inl ⟨hs.busy, hs.begun⟩⟩
  · exact .inr ⟨hdp, .inl ⟨hs.busy, hs.begun⟩⟩
  · exact .inr ⟨hdp, .inr rfl⟩

/-! ### A run to its end -/

theorem runBusy_of_not_busy (fuel : Nat) (h : s.status ≠ .busy) : runBusy fuel s = .next s := by
  cases fuel with
  | zero => rfl
  | succ fuel => rw [runBusy, if_neg h]

theorem runBusy_succ {fuel : Nat} (hb : s.status = .busy) (h : step s = .next t) :
    runBusy (fuel + 1) s = runBusy fuel t := by rw [runBusy, if_pos hb, h]

/-- The first step of a run that ends `DONE`: it is the completion, or the run goes on from a running state. -/
theorem runBusy_done_cases {fuel : Nat} (hs : s.Running) (h : runBusy fuel s = .next u) (hu : u.status = .done) :
    (s.size.toNat ≤ s.dp ∧ u = lzdecComplete s) ∨
      (s.dp < s.size.toNat ∧ ∃ t n, fuel = n + 1 ∧ step s = .next t ∧ t.Running ∧ runBusy n t = .next u) := by
  cases fuel with
  | zero => cases h; cases hs.busy.symm.trans hu
  | succ n =>
    obtain ⟨t, ht⟩ := busyStep_next hs.busy hs.begun
    rw [runBusy_succ hs.busy ht] at h
    rcases hs.step_cases ht with ⟨hdp, rfl⟩ | ⟨hdp, hrun | hfault⟩
    · rw [runBusy_of_not_busy n (by simp)] at h
      cases h
      exact .inl ⟨hdp, rfl⟩
    · exact .inr ⟨hdp, t, n, rfl, ht, hrun, h⟩
    · rw [runBusy_of_not_busy n (by simp [hfault])] at h
      cases h
      cases hfault.symm.trans hu

/-- The induction over a completed run: what holds of a running state and is kept by every step that goes on holds of the state
that completes. -/
theorem runBusy_done_induction {P : State → Prop} {fuel : Nat}
    (hstep : ∀ v w, v.Running → v.dp < v.size.toNat → P v → step v = .next w → w.Running → P w)
    (hs : s.Running) (hP : P s) (h : runBusy fuel s = .next u) (hu : u.status = .done) :
    ∃ v, v.Running ∧ P v ∧ v.size.toNat ≤ v.dp ∧ u = lzdecComplete v := by
  induction fuel generalizing s with
  | zero =>
    rcases runBusy_done_cases hs h hu with ⟨hdp, hend⟩ | ⟨_, _, _, hn, _⟩
    · exact ⟨s, hs, hP, hdp, hend⟩
    · cases hn
  | succ fuel ih =>
    rcases runBusy_done_cases hs h hu with ⟨hdp, hend⟩ | ⟨hdp, t, n, hn, ht, hrun, hrest⟩
    · exact ⟨s, hs, hP, hdp, hend⟩
    · cases hn
      exact ih hrun (hstep s t hs hdp hP ht hrun) hrest

/-! ### The end of every run -/

/-- A bound on the steps left: a fetch and a command for each byte, and the completion; the fetch of a group that has been made
counts no more (R95). -/
def State.stepsLeft (s : State) : Nat :=
  if s.nbits ≠ 0 ∧ s.dp < s.size.toNat then 2 * (s.size.toNat - s.dp) else 2 * (s.size.toNat - s.dp) + 1

theorem State.stepsLeft_le (s : State) : s.stepsLeft ≤ 2 * (s.size.toNat - s.dp) + 1 := by
  unfold State.stepsLeft; split <;> omega

theorem State.stepsLeft_pos (s : State) : 0 < s.stepsLeft := by
  unfold State.stepsLeft; split <;> omega

theorem State.Running.stepsLeft_lt (hs : s.Running) (h : step s = .next t) (ht : t.Running) :
    t.stepsLeft < s.stepsLeft := by
  rcases busyStep_cases hs.busy hs.begun h with ⟨_, rfl⟩ | ⟨hdp, hn, _, flags, rfl⟩ |
    ⟨hdp, hn, used, m, k, _, _, hk, _, _, _, rfl⟩ | ⟨_, used, m, k, c, info, _, _, _, _, _, _, rfl⟩
  · cases ht.busy
  · simp [State.stepsLeft, hn, hdp]
  · have hfetched : s.stepsLeft = 2 * (s.size.toNat - s.dp) := if_pos ⟨hn, hdp⟩
    refine Nat.lt_of_le_of_lt (State.stepsLeft_le _) ?_
    simp only
    omega
  · cases ht.busy

theorem runBusy_ends {fuel : Nat} (hs : s.Running) (hfuel : s.stepsLeft ≤ fuel) :
    ∃ t, runBusy fuel s = .next t ∧ (t.status = .done ∨ t.status = .fault) := by
  induction fuel generalizing s with
  | zero => exact absurd s.stepsLeft_pos (by omega)
  | succ fuel ih =>
    obtain ⟨t, ht⟩ := busyStep_next hs.busy hs.begun
    rw [runBusy_succ hs.busy ht]
    rcases hs.step_cases ht with ⟨_, rfl⟩ | ⟨_, hrun | hfault⟩
    · exact ⟨_, runBusy_of_not_busy fuel (by simp), .inl rfl⟩
    · have := hs.stepsLeft_lt ht hrun
      exact ih hrun (by omega)
    · exact ⟨t, runBusy_of_not_busy fuel (by simp [hfault]), .inr hfault⟩

end

/-! ### The obligation -/

/-- Settles O21: each step that goes on makes the bound on the steps left smaller, and it starts within
`2 * (size - dp) + 1`. -/
theorem lzdecEnds : Obligations.LzdecEnds :=
  fun s hb hst => runBusy_ends ⟨hb, hst⟩ s.stepsLeft_le

end Sys2Proof.Machine
end

section
/-! PROOFS. What a completed `LZDEC` has decoded (spec 40_lz_decoder.md R80, R95, R98). The contract follows from what every
state of the run keeps (`DecodedSoFar`); that the output depends on the source only follows from the bytes that each command
appends, which are a function of the command and of the output before it (`emitted`). -/

namespace Sys2Proof.Machine

section
variable {s t u : State}

/-! ### What a run keeps -/

/-- What a running state `s` keeps of the state `s₀` in which the decoder was set up: the operands, the source and the bytes of
DST outside the output so far; once a byte is decoded, the output is inside DST and `sp` inside the source. -/
structure DecodedSoFar (s₀ s : State) : Prop where
  size : s.size = s₀.size
  srcLimit : s.srcLimit = s₀.srcLimit
  dstBase : s.dstBase = s₀.dstBase
  cfg : s.cfg = s₀.cfg
  src : s.src = s₀.src
  dp_le : s.dp ≤ s.size.toNat
  inside : s.dp ≠ 0 → s.dstBase.toNat + s.dp ≤ s.cfg.dstLen ∧ s.sp ≤ s.srcLimit.toNat ∧ s.sp ≤ s.cfg.srcLen
  frame : ∀ a, a < s.dstBase.toNat ∨ s.dstBase.toNat + s.dp ≤ a → s.dst.read a = s₀.dst.read a

theorem DecodedSoFar.init (h : s.dp = 0) : DecodedSoFar s s where
  size := rfl
  srcLimit := rfl
  dstBase := rfl
  cfg := rfl
  src := rfl
  dp_le := by omega
  inside := fun hne => absurd h hne
  frame := fun _ _ => rfl

/-- Each step that goes on keeps it: a fetch writes nothing, a command writes at the cursor. -/
theorem DecodedSoFar.step {s₀ : State} (hs : s.Running) (h : DecodedSoFar s₀ s) (hstep : step s = .next t)
    (ht : t.Running) : DecodedSoFar s₀ t := by
  rcases busyStep_cases hs.busy hs.begun hstep with ⟨_, rfl⟩ | ⟨_, _, hin, flags, rfl⟩ |
    ⟨_, _, used, m, k, hused, _, hk, _, hwrote, hin, rfl⟩ | ⟨_, used, m, k, c, info, _, _, _, _, _, _, rfl⟩
  · cases ht.busy
  · obtain ⟨hlimit, hlen⟩ := hin
    exact { h with inside := fun hne => ⟨(h.inside hne).1, hlimit, hlen⟩ }
  · obtain ⟨hlimit, hlen⟩ := hin (used - 1) (by omega)
    have hfits := hwrote.fits
    exact
      { size := h.size
        srcLimit := h.srcLimit
        dstBase := h.dstBase
        cfg := h.cfg
        src := h.src
        dp_le := by simp only; omega
        inside := fun _ => by simp only; omega
        frame := fun a ha => by
          simp only at ha
          exact (hwrote.frame a (by omega)).trans (h.frame a (by omega)) }
  · cases ht.busy

/-- A completed run of `LZDEC` ends in the completion of a state that has kept all this and has decoded `size` bytes. -/
theorem decodedSoFar_of_runBusy_done {srcBase srcLimit dstBase size : Word} {fuel : Nat} (s : State)
    (h : runBusy fuel (lzdecInit srcBase srcLimit dstBase size (s.begin false)) = .next u) (hu : u.status = .done) :
    ∃ v, DecodedSoFar (lzdecInit srcBase srcLimit dstBase size (s.begin false)) v ∧ v.dp = size.toNat ∧
      u = lzdecComplete v := by
  have keeps (v w : State) (hv : v.Running) (_ : v.dp < v.size.toNat) (hsoFar : DecodedSoFar _ v) (hw : step v = .next w)
      (hwrun : w.Running) : DecodedSoFar (lzdecInit srcBase srcLimit dstBase size (s.begin false)) w :=
    hsoFar.step hv hw hwrun
  obtain ⟨v, _, hv, hdp, rfl⟩ :=
    runBusy_done_induction keeps (running_lzdecInit srcBase srcLimit dstBase size s) (.init rfl) h hu
  have hend : v.dp = v.size.toNat := Nat.le_antisymm hv.dp_le hdp
  exact ⟨v, hv, by rw [hend, hv.size, lzdecInit_size], rfl⟩

/-! ### The output, as a list of bytes -/

/-- The bytes decoded so far. -/
def State.output (s : State) : List Byte := s.dst.bytes s.dstBase.toNat s.dp

/-- The `length` bytes that a copy from `offset` bytes before the end of `out` appends (R94). -/
def repeatedFrom (out : List Byte) (offset length : Nat) : List Byte :=
  (List.range length).map fun k => out.getD (out.length - offset + k % offset) Memory.unlisted

/-- The bytes that a stream command appends to the output `out` (R85 to R88). -/
def emitted (out : List Byte) : Instr → List Byte
  | .lit v => [v]
  | .refs n distance => repeatedFrom out (backOffset distance) (refsLength n)
  | .refl distance extra => repeatedFrom out (backOffset distance) (reflLength extra)
  | _ => []

/-- The control byte and the counter after a stream command (R85, R90). -/
def controlAfter (ctl : Byte) (nbits : Nat) : Instr → Byte × Nat
  | .ctl flags => (flags, 8)
  | _ => (ctl <<< 1, nbits - 1)

@[simp] theorem State.output_length (s : State) : s.output.length = s.dp := by simp [State.output, Memory.bytes]

theorem Memory.bytes_add (m : Memory) (a n k : Nat) : m.bytes a (n + k) = m.bytes a n ++ m.bytes (a + n) k := by
  simp only [Memory.bytes, List.range_add, List.map_append, List.map_map]
  congr 1
  exact List.map_congr_left fun j _ => congrArg m.read (Nat.add_assoc a n j).symm

theorem Memory.getD_bytes (m : Memory) (a : Nat) {n k : Nat} (hk : k < n) (b : Byte) :
    (m.bytes a n).getD k b = m.read (a + k) := by simp [Memory.bytes, hk]

/-- A byte written at the end of the output is appended to it. -/
theorem Memory.bytes_write_end (m : Memory) (a n : Nat) (v : Byte) :
    (m.write (a + n) v).bytes a (n + 1) = m.bytes a n ++ [v] := by
  have hbefore : (m.write (a + n) v).bytes a n = m.bytes a n :=
    Memory.bytes_congr fun k hk => Memory.read_write_ne _ _ (by omega)
  rw [Memory.bytes_add, hbefore]
  simp [Memory.bytes, List.range_one]

/-- A copy that follows the overlap law appends repeated bytes of the output. -/
theorem OverlapCopy.bytes {m m' : Memory} {a n offset length : Nat} (h : OverlapCopy m m' (a + n) offset length)
    (hpos : 0 < offset) (hoff : offset ≤ n) :
    m'.bytes a (n + length) = m.bytes a n ++ repeatedFrom (m.bytes a n) offset length := by
  obtain ⟨hcopied, hframe⟩ := h
  have hbefore : m'.bytes a n = m.bytes a n := Memory.bytes_congr fun k hk => hframe _ (.inl (by omega))
  have hlen : (m.bytes a n).length = n := by simp [Memory.bytes]
  rw [Memory.bytes_add, hbefore]
  refine congrArg _ (List.map_congr_left fun k hk => ?_)
  have := Nat.mod_lt k hpos
  rw [hcopied k (List.mem_range.mp hk), hlen, Memory.getD_bytes _ _ (by omega)]
  congr 1
  omega

/-! ### The commands as functions of the output -/

/-- `t` is `s` after the stream command `i`, which completed. -/
structure CommandRan (i : Instr) (s t : State) : Prop where
  state : t = { s with
    sp := s.sp + i.streamBytes
    dst := t.dst
    dp := t.dp
    ctl := (controlAfter s.ctl s.nbits i).1
    nbits := (controlAfter s.ctl s.nbits i).2 }
  output : t.output = s.output ++ emitted s.output i

/-- A back-reference that does not fault appends what it repeats. -/
theorem commandRan_of_backRefParts {i : Instr} {q len : Nat} (hi : backRefParts i = some (q, len))
    (hemit : emitted s.output i = repeatedFrom s.output q len)
    (hcontrol : controlAfter s.ctl s.nbits i = (s.ctl <<< 1, s.nbits - 1))
    (ht : t = (backReference i.streamBytes q len s).state) (hok : t.status ≠ .fault) : CommandRan i s t := by
  obtain ⟨hpos, hlen⟩ := backRefParts_pos hi
  rw [ht] at hok
  obtain ⟨hin, hoff, hroom⟩ := backReference_fits_of_not_fault hpos hlen hok
  obtain ⟨m, hm, hlaw⟩ := backReference_fits hin hpos hoff hroom
  rw [hm] at ht
  subst ht
  exact ⟨by rw [hcontrol], (hlaw.bytes hpos hoff).trans (by rw [hemit]; rfl)⟩

/-- A step that goes on before the end has run the command that `sp` and the control byte make due. -/
theorem State.Running.commandRan (hs : s.Running) (hdp : s.dp < s.size.toNat) (h : step s = .next t)
    (ht : t.Running) : ∃ i rest, s.decodeNext = .ok (i, rest) ∧ CommandRan i s t := by
  have hok : t.status ≠ .fault := by simp [ht.busy]
  cases hd : s.decodeNext with
  | error e =>
    cases (step_of_decodeNext_error hs.busy hs.begun hdp hd).symm.trans h
    cases ht.busy
  | ok p =>
    obtain ⟨i, rest⟩ := p
    refine ⟨i, rest, rfl, ?_⟩
    rw [step_of_decodeNext hs.busy hs.begun hdp hd] at h
    rcases decodeNext_cases hd with ⟨_, f, rfl⟩ | ⟨_, _, v, rfl⟩ | ⟨_, _, ⟨n, d, _, rfl⟩ | ⟨d, e, rfl⟩⟩
    · obtain ⟨_, ⟨_, rfl⟩ | ⟨_, rfl⟩⟩ := execCtl_next h
      · exact ⟨rfl, (List.append_nil _).symm⟩
      · cases ht.busy
    · obtain ⟨_, ⟨_, _, rfl⟩ | ⟨_, _, rfl⟩ | ⟨_, rfl⟩⟩ := execLit_next h
      · exact ⟨rfl, Memory.bytes_write_end _ _ _ v⟩
      · cases ht.busy
      · cases ht.busy
    · obtain ⟨_, _, hend⟩ := execRefs_next h
      exact commandRan_of_backRefParts rfl rfl rfl hend hok
    · obtain ⟨_, hend⟩ := execRefl_next h
      exact commandRan_of_backRefParts rfl rfl rfl hend hok

/-! ### Two runs on one source -/

/-- Two decoders on the same source that have consumed and decoded the same; what `ctl` holds before the first fetch, what else
DST holds and where in DST the output stands may differ. -/
structure SameDecoding (s t : State) : Prop where
  src : s.src = t.src
  srcLen : s.cfg.srcLen = t.cfg.srcLen
  srcLimit : s.srcLimit = t.srcLimit
  size : s.size = t.size
  sp : s.sp = t.sp
  nbits : s.nbits = t.nbits
  ctl : s.nbits ≠ 0 → s.ctl = t.ctl
  output : s.output = t.output

theorem SameDecoding.dp (h : SameDecoding s t) : s.dp = t.dp := by
  rw [← s.output_length, h.output, t.output_length]

theorem SameDecoding.available (h : SameDecoding s t) (n a : Nat) : s.available n a = t.available n a := by
  induction n generalizing a with
  | zero => rfl
  | succ n ih => simp only [State.available, State.inSource, h.src, h.srcLimit, h.srcLen, ih]

/-- Both find the same command due. -/
theorem SameDecoding.decodeNext (h : SameDecoding s t) : s.decodeNext = t.decodeNext := by
  have hbytes : s.commandBytes = t.commandBytes := by
    rw [State.commandBytes, State.commandBytes, h.sp, h.available]
  by_cases hn : s.nbits = 0
  · rw [State.decodeNext, State.decodeNext, if_pos hn, if_pos (h.nbits ▸ hn), hbytes]
  · rw [State.decodeNext, State.decodeNext, if_neg hn, if_neg (h.nbits ▸ hn), hbytes, State.flag, State.flag, h.ctl hn]

theorem controlAfter_congr {ctl ctl' : Byte} {nbits : Nat} (i : Instr) (h : nbits ≠ 0 → ctl = ctl')
    (hn : (controlAfter ctl nbits i).2 ≠ 0) : (controlAfter ctl nbits i).1 = (controlAfter ctl' nbits i).1 := by
  cases i with
  | ctl flags => rfl
  | lit | refs | refl | locate | tdec | tenc | lzdec | fixchk =>
    have hpos : nbits ≠ 0 := fun h0 => hn (by rw [h0]; rfl)
    rw [h hpos]

/-- The same command keeps two decoders the same. -/
theorem SameDecoding.commandRan {s' t' : State} {i : Instr} (h : SameDecoding s t) (hs : CommandRan i s s')
    (ht : CommandRan i t t') : SameDecoding s' t' := by
  have hout : s'.output = t'.output := by rw [hs.output, ht.output, h.output]
  have hnbits : (controlAfter s.ctl s.nbits i).2 = (controlAfter t.ctl t.nbits i).2 := by
    cases i <;> simp only [controlAfter, h.nbits]
  rw [hs.state, ht.state]
  exact
    { src := h.src
      srcLen := h.srcLen
      srcLimit := h.srcLimit
      size := h.size
      sp := congrArg (· + i.streamBytes) h.sp
      nbits := hnbits
      ctl := fun hn => by simpa only [h.nbits] using controlAfter_congr i h.ctl hn
      output := by rwa [← hs.state, ← ht.state] }

/-- Some running decoder that is the same as `s` has a run that ends in `u`. -/
def TwinEndsIn (u s : State) : Prop := ∃ s', s'.Running ∧ SameDecoding s s' ∧ ∃ fuel, runBusy fuel s' = .next u

/-- The twin makes each step along: the same command is due in both. -/
theorem TwinEndsIn.step (hu : u.status = .done) (hs : s.Running) (hdp : s.dp < s.size.toNat) (h : TwinEndsIn u s)
    (hstep : step s = .next t) (ht : t.Running) : TwinEndsIn u t := by
  obtain ⟨s', hs', hsame, fuel, hrun⟩ := h
  obtain ⟨i, _, hd, hran⟩ := hs.commandRan hdp hstep ht
  rcases runBusy_done_cases hs' hrun hu with ⟨hle, _⟩ | ⟨hlt, t', n, _, hstep', ht', hrest⟩
  · rw [← hsame.size, ← hsame.dp] at hle
    omega
  · obtain ⟨i', _, hd', hran'⟩ := hs'.commandRan hlt hstep' ht'
    cases (hsame.decodeNext.symm.trans hd).symm.trans hd'
    exact ⟨t', ht', hsame.commandRan hran hran', n, hrest⟩

/-- Two completed runs that start from decoders that are the same complete in decoders that are the same. -/
theorem runBusy_done_same {s' u' : State} {fuel fuel' : Nat} (hs : s.Running) (hs' : s'.Running)
    (hsame : SameDecoding s s') (h : runBusy fuel s = .next u) (hu : u.status = .done)
    (h' : runBusy fuel' s' = .next u') (hu' : u'.status = .done) :
    SameDecoding u u' := by
  have keeps (v w : State) (hv : v.Running) (hdp : v.dp < v.size.toNat) (htwin : TwinEndsIn u' v)
      (hw : step v = .next w) (hwrun : w.Running) : TwinEndsIn u' w := htwin.step hu' hv hdp hw hwrun
  obtain ⟨v, _, ⟨v', hv', htwin, n, hrun'⟩, hdp, rfl⟩ :=
    runBusy_done_induction keeps hs ⟨s', hs', hsame, fuel', h'⟩ h hu
  rcases runBusy_done_cases hv' hrun' hu' with ⟨_, rfl⟩ | ⟨hlt, _⟩
  · exact { htwin with }
  · rw [← htwin.size, ← htwin.dp] at hlt
    omega

/-- A byte of the output. -/
theorem State.output_getD (s : State) {k : Nat} (hk : k < s.dp) (b : Byte) :
    s.output.getD k b = s.dst.read (s.dstBase.toNat + k) := s.dst.getD_bytes _ hk b

end

/-! ### The obligations -/

/-- Settles O22: what the run keeps, in the state that completes; `dp` has reached `size` and not passed it. -/
theorem completedLzdecWritesExactlySizeBytes : Obligations.CompletedLzdecWritesExactlySizeBytes := by
  intro s t u srcBase srcLimit dstBase size fuel hx hrun hu
  obtain ⟨_, rfl⟩ := execLzdec_next hx
  obtain ⟨v, hv, hdp, rfl⟩ := decodedSoFar_of_runBusy_done s hrun hu
  obtain ⟨hsize, hlimit, hbase, hcfg, hsrc, _, hinside, hframe⟩ := hv
  simp only [lzdecInit_size, lzdecInit_srcLimit, lzdecInit_dstBase] at hsize hlimit hbase
  rw [hlimit, hbase, hcfg, hdp] at hinside
  rw [hbase, hdp] at hframe
  have hres := lzdecComplete_res1_of_dp_eq (hdp.trans (congrArg _ hsize.symm))
  exact ⟨hdp, hres.trans hsize, lzdecComplete_res0_of_fits (s := v),
    fun h0 => hinside fun h => h0 (BitVec.eq_of_toNat_eq h), hsrc, hframe⟩

/-- Settles O23: the two decoders are set up the same but for `ctl`, DST and `dst_base`, so they complete in states that are the
same, and their outputs are equal byte by byte. -/
theorem lzdecOutputDependsOnTheSourceOnly : Obligations.LzdecOutputDependsOnTheSourceOnly := by
  intro s₁ s₂ t₁ t₂ u₁ u₂ srcBase srcLimit dstBase₁ dstBase₂ size fuel₁ fuel₂ hsrc hlen hx₁ hrun₁ hu₁ hx₂ hrun₂ hu₂
  obtain ⟨_, rfl⟩ := execLzdec_next hx₁
  obtain ⟨_, rfl⟩ := execLzdec_next hx₂
  have hsame : SameDecoding u₁ u₂ :=
    runBusy_done_same (running_lzdecInit ..) (running_lzdecInit ..)
      ⟨hsrc, hlen, rfl, rfl, rfl, rfl, fun h => absurd rfl h, rfl⟩ hrun₁ hu₁ hrun₂ hu₂
  obtain ⟨v₁, hv₁, hdp₁, rfl⟩ := decodedSoFar_of_runBusy_done s₁ hrun₁ hu₁
  obtain ⟨v₂, hv₂, hdp₂, rfl⟩ := decodedSoFar_of_runBusy_done s₂ hrun₂ hu₂
  refine ⟨hsame.sp, fun k hk => ?_⟩
  have hbyte (v : State) (hdp : v.dp = size.toNat) := v.output_getD (hdp ▸ hk) 0#8
  have hout : v₁.output = v₂.output := hsame.output
  calc v₁.dst.read (dstBase₁.toNat + k)
      = v₁.output.getD k 0#8 := by rw [hbyte v₁ hdp₁, hv₁.dstBase]; rfl
    _ = v₂.output.getD k 0#8 := by rw [hout]
    _ = v₂.dst.read (dstBase₂.toNat + k) := by rw [hbyte v₂ hdp₂, hv₂.dstBase]; rfl

end Sys2Proof.Machine
end

section
/-! PROOFS. The invariant of the block (spec 10_state.md R13 to R31, 20_memory.md R40, 40_lz_decoder.md R95): what every part
of an operation keeps (`InRange`) gives the invariant once the operation has ended; a running `LZDEC` keeps its cursors
besides. -/

namespace Sys2Proof.Machine

section
variable {s t u : State}

/-! ### What every operation keeps -/

/-- The part of the invariant that holds in the middle of an operation too. -/
structure InRange (u : State) : Prop where
  memories : u.memoriesOk
  nbits : u.nbits ≤ 8
  cursors : u.cursorsOk
  begun : u.start = false

theorem State.Inv.begin (h : s.Inv) : InRange (s.begin false) := ⟨h.memories, h.decoder.1, h.cursors, rfl⟩

/-- While an operation runs there is no fault. -/
theorem State.Inv.err_of_busy (h : s.Inv) (hb : s.status = .busy) : s.err = none := by
  by_contra herr
  have hfault : s.status = .fault := h.fault.mpr herr
  cases hb.symm.trans hfault

theorem InRange.raise (h : InRange u) (c : FaultCause) (info : Nat) : (u.raise c info).Inv where
  memories := h.memories
  fault := by simp [State.faultOk]
  decoder := ⟨h.nbits, nofun⟩
  cursors := h.cursors
  start := fun hst => absurd (h.begun.symm.trans hst) nofun

theorem InRange.completed (h : InRange u) (hdone : u.status = .done) (herr : u.err = none) : u.Inv where
  memories := h.memories
  fault := by simp [State.faultOk, hdone, herr]
  decoder := ⟨h.nbits, fun hb => absurd (hdone.symm.trans hb) nofun⟩
  cursors := h.cursors
  start := fun hst => absurd (h.begun.symm.trans hst) nofun

/-! ### The host operations -/

theorem locatePhaseB_inv (h : InRange u) (herr : u.err = none) : (locatePhaseB u).Inv := by
  obtain ⟨ho, hp, hi⟩ := h.cursors
  obtain ⟨_, hmod, _⟩ := scanFrom_spec (isSentinel u.src) u.cfg.srcLen u.p
  obtain ⟨q, rfl, ⟨_, hq⟩ | ⟨_, hq⟩⟩ := locatePhaseB_cases u
  · rw [hq]
    exact InRange.completed ⟨h.memories, h.nbits, ⟨ho, hmod.trans hp, hi⟩, h.begun⟩ rfl herr
  · rw [hq]
    refine InRange.raise ?_ _ _
    exact ⟨h.memories, h.nbits, ⟨ho, hmod.trans hp, hi⟩, h.begun⟩

theorem execLocate_inv (h : s.Inv) (herr : s.err = none) (hx : execLocate s = .next t) : t.Inv := by
  obtain ⟨_, hp, hi⟩ := h.cursors
  obtain ⟨_, hmod, _⟩ := scanFrom_spec (isCandidate s.src) s.cfg.srcLen 0
  obtain ⟨_, q, rfl, ⟨_, rfl⟩ | ⟨_, rfl⟩⟩ := execLocate_next hx
  · exact locatePhaseB_inv ⟨h.memories, h.decoder.1, ⟨hmod, (Nat.add_mod_right _ 16).trans hmod, hi⟩, rfl⟩ herr
  · refine InRange.raise ?_ _ _
    exact ⟨h.memories, h.decoder.1, ⟨hmod, hp, hi⟩, rfl⟩

theorem execTdec_inv {sel : MemSel} {base index : Word} (h : s.Inv) (herr : s.err = none)
    (hx : execTdec sel base index s = .next t) : t.Inv := by
  obtain ⟨_, ⟨_, rfl⟩ | ⟨_, rfl⟩⟩ := execTdec_next hx
  · exact InRange.completed ⟨h.memories, h.decoder.1, h.cursors, rfl⟩ rfl herr
  · exact h.begin.raise _ _

theorem execTenc_inv {base index sv ev sp ep : Word} (h : s.Inv) (herr : s.err = none)
    (hx : execTenc base index sv ev sp ep s = .next t) : t.Inv := by
  obtain ⟨hsrc, hsrcIn, hdst, hdstIn⟩ := h.memories
  obtain ⟨_, ⟨hin, rfl⟩ | ⟨_, rfl⟩⟩ := execTenc_next hx
  · exact InRange.completed
      ⟨⟨hsrc, hsrcIn, Memory.writeRecord_wf _ _ _ _ _ hdst, Memory.writeRecord_inside _ _ _ _ _ hin hdstIn⟩,
        h.decoder.1, h.cursors, rfl⟩ rfl herr
  · exact h.begin.raise _ _

theorem execFixchk_inv (h : s.Inv) (herr : s.err = none) (hx : execFixchk s = .next t) : t.Inv := by
  obtain ⟨hsrc, hsrcIn, hdst, hdstIn⟩ := h.memories
  obtain ⟨ho, hp, _⟩ := h.cursors
  obtain ⟨_, _, ⟨_, rfl⟩ | ⟨_, _, rfl⟩ | ⟨hlen, v, seed, _, rfl⟩⟩ := execFixchk_next hx
  · exact h.begin.raise _ _
  · refine InRange.raise ?_ _ _
    exact ⟨h.memories, h.decoder.1, h.cursors, rfl⟩
  · have hi := accumulateRegs_i_in_window { s.begin false with crc := bootCrc s.dst, variant := v, seed := seed }
    have hlen : 0x18 ≤ s.cfg.dstLen := Nat.le_trans (by decide) hlen
    refine InRange.completed ?_ rfl herr
    exact ⟨⟨hsrc, hsrcIn, Memory.writeChecksum_wf _ _ hdst, Memory.writeChecksum_inside _ _ hlen hdstIn⟩, h.decoder.1,
      ⟨ho, hp, hi⟩, rfl⟩

/-- `LZDEC` starts with nothing decoded and `sp` past the header. -/
theorem execLzdec_inv {srcBase srcLimit dstBase size : Word} (h : s.Inv) (herr : s.err = none)
    (hx : execLzdec srcBase srcLimit dstBase size s = .next t) : t.Inv := by
  obtain ⟨_, rfl⟩ := execLzdec_next hx
  exact
    { memories := h.memories
      fault := by simp [State.faultOk, herr]
      decoder := ⟨Nat.zero_le 8, fun _ _ => ⟨Nat.zero_le _, Nat.zero_le _, Nat.le_refl _, .inl rfl⟩⟩
      cursors := h.cursors
      start := nofun }

theorem exec_inv_of_decodeOp {i : Instr} (h : s.Inv) (hb : s.status = .busy) (hd : decodeOp s.opWords = .ok i)
    (hx : exec i s = .next t) : t.Inv := by
  have herr := h.err_of_busy hb
  rcases decodeOp_cases hd with ⟨_, rfl⟩ | ⟨_, sel, rfl⟩ | ⟨_, rfl⟩ | ⟨_, rfl⟩ | ⟨_, rfl⟩
  · exact execLocate_inv h herr hx
  · exact execTdec_inv h herr hx
  · exact execTenc_inv h herr hx
  · exact execLzdec_inv h herr hx
  · exact execFixchk_inv h herr hx

/-! ### A running `LZDEC` -/

theorem WroteAtCursor.memoriesOk {m : Memory} {k : Nat} (h : WroteAtCursor s m k) (hs : s.memoriesOk) :
    ({ s with dst := m } : State).memoriesOk := by
  obtain ⟨hsrc, hsrcIn, hdst, hdstIn⟩ := hs
  exact ⟨hsrc, hsrcIn, h.canonical hdst, h.bounded hdstIn⟩

theorem State.Running.inv_step (hs : s.Running) (h : s.Inv) (hstep : step s = .next t) : t.Inv := by
  have herr := h.err_of_busy hs.busy
  obtain ⟨hnbits, hrun⟩ := h.decoder
  obtain ⟨hsize, hlen, hsp, _⟩ := hrun hs.busy hs.begun
  rcases busyStep_cases hs.busy hs.begun hstep with ⟨_, rfl⟩ | ⟨_, _, ⟨hlimit, hend⟩, flags, rfl⟩ |
    ⟨_, _, used, m, k, hused, _, _, _, hwrote, hin, rfl⟩ | ⟨_, used, m, k, c, info, _, _, _, hwrote, _, _, rfl⟩
  · exact InRange.completed ⟨h.memories, hnbits, h.cursors, hs.begun⟩ rfl herr
  · exact
      { memories := h.memories
        fault := h.fault
        decoder := ⟨Nat.le_refl 8, fun _ _ => ⟨hsize, hlen, Nat.le_succ_of_le hsp, .inr ⟨hlimit, hend⟩⟩⟩
        cursors := h.cursors
        start := h.start }
  · obtain ⟨hlimit, hend⟩ := hin (used - 1) (by omega)
    have hfits := hwrote.fits
    exact
      { memories := hwrote.memoriesOk h.memories
        fault := h.fault
        decoder := ⟨by simp only; omega, fun _ _ => by simp only; omega⟩
        cursors := h.cursors
        start := h.start }
  · refine InRange.raise ?_ _ _
    exact ⟨hwrote.memoriesOk h.memories, hnbits, h.cursors, hs.begun⟩

/-! ### The step, and the host -/

theorem State.Inv.step (h : s.Inv) (hstep : step s = .next t) : t.Inv := by
  rcases step_cases hstep with ⟨_, rfl⟩ | ⟨hst, hb, _⟩ | ⟨hst, hb, _⟩ | ⟨hst, hb, _⟩ | ⟨_, hb, i, hd, hx⟩
  · exact h
  · exact State.Running.inv_step ⟨hb, hst⟩ h hstep
  · exact State.Running.inv_step ⟨hb, hst⟩ h hstep
  · exact State.Running.inv_step ⟨hb, hst⟩ h hstep
  · exact exec_inv_of_decodeOp h hb hd hx

/-- The host writes a byte inside a memory, and not while `LZDEC` runs. -/
theorem State.Inv.setMemory_write {sel : MemSel} {a : Nat} (v : Byte) (h : s.Inv) (ha : a < s.memoryLen sel) :
    (s.setMemory sel ((s.memory sel).write a v)).Inv := by
  obtain ⟨hsrc, hsrcIn, hdst, hdstIn⟩ := h.memories
  cases sel with
  | src =>
    exact ⟨⟨Memory.write_wf _ _ hsrc, Memory.write_inside _ _ ha hsrcIn, hdst, hdstIn⟩, h.fault, h.decoder, h.cursors,
      h.start⟩
  | dst =>
    exact ⟨⟨hsrc, hsrcIn, Memory.write_wf _ _ hdst, Memory.write_inside _ _ ha hdstIn⟩, h.fault, h.decoder, h.cursors,
      h.start⟩

/-- A start finds `STATUS` ready, so no cause in `ERR`, and one of the five operations in the registers. -/
theorem State.Inv.begin_true {i : Instr} (h : s.Inv) (hs : s.ready) (hd : decodeOp s.opWords = .ok i) :
    (s.begin true).Inv where
  memories := h.memories
  fault := by
    have hnot : s.status ≠ .fault := by rcases hs with hs | hs <;> simp [hs]
    have herr : ¬ s.err ≠ none := mt h.fault.mpr hnot
    simpa [State.faultOk] using herr
  decoder := ⟨h.decoder.1, fun _ => nofun⟩
  cursors := h.cursors
  start := fun _ => ⟨rfl, congrArg Except.isOk hd⟩

theorem hostReset_inv (s : State) : (hostReset s).Inv where
  memories := ⟨Memory.wf_nil, nofun, Memory.wf_nil, nofun⟩
  fault := by simp [State.faultOk, hostReset, State.reset]
  decoder := ⟨Nat.zero_le 8, nofun⟩
  cursors := ⟨rfl, rfl, rfl, Nat.succ_pos _⟩
  start := nofun

theorem State.Inv.hostMove (h : s.Inv) (hmove : HostMove s t) : t.Inv := by
  rcases hostMove_cases hmove with ⟨hs, w, rfl⟩ | ⟨_, sel, a, v, ha, rfl⟩ | ⟨_, hs, ⟨i, hd⟩, rfl⟩ | rfl
  · exact
      { memories := h.memories
        fault := h.fault
        decoder := h.decoder
        cursors := h.cursors
        start := fun hst => by
          obtain ⟨hb, _⟩ := h.start hst
          rcases hs with hs | hs <;> cases hb.symm.trans hs }
  · exact h.setMemory_write v ha
  · exact h.begin_true hs hd
  · exact hostReset_inv s

end

/-! ### The obligation -/

/-- Settles O54: every step and every move of the host, by what each can do. -/
theorem everyStepKeepsTheInvariant : Obligations.EveryStepKeepsTheInvariant :=
  fun _ _ h hmove => hmove.elim h.step h.hostMove

end Sys2Proof.Machine
end

section
/-! PROOFS. The statements about single steps of the LZ decoder (spec 40_lz_decoder.md sections 1 to 4): each by the outcomes
of the command that is due, of the step, or of the start. -/

namespace Sys2Proof.Machine

/-- Settles O10: at `size` the step is the completion; before it the step goes on or faults. -/
theorem lzdecCompletesAtSize : Obligations.LzdecCompletesAtSize := by
  refine fun s hb hst _ => ⟨fun hdp => ?_, fun hdp => ?_⟩
  · exact ⟨_, step_of_complete hb hst hdp.ge, lzdecComplete_res0_of_fits, lzdecComplete_res1_of_dp_eq hdp, rfl⟩
  · obtain ⟨t, ht⟩ := busyStep_next hb hst
    refine ⟨t, ht, ?_⟩
    rcases State.Running.step_cases ⟨hb, hst⟩ ht with ⟨hle, _⟩ | ⟨_, hrun | hfault⟩
    · omega
    · simp [hrun.busy]
    · simp [hfault]

/-- Settles O14: both forms are a back-reference that fits. -/
theorem backReferencesCopyWithOverlap : Obligations.BackReferencesCopyWithOverlap := by
  refine ⟨fun s n d hn hdue hlast hoff hroom => ?_, fun s d extra hdue hlast hoff hroom => ?_⟩
  · have hx := exec_of_backRefParts (i := .refs n d) (by simpa [Instr.wellFormed] using hn) rfl hdue
    obtain ⟨m, hm, hlaw⟩ := backReference_fits (inSource_all_of_last (n := 2) hlast) (Nat.succ_pos _) hoff hroom
    exact ⟨m, hx.trans (congrArg _ hm), hlaw⟩
  · have hx := exec_of_backRefParts (i := .refl d extra) rfl rfl hdue
    obtain ⟨m, hm, hlaw⟩ := backReference_fits (inSource_all_of_last (n := 3) hlast) (Nat.succ_pos _) hoff hroom
    exact ⟨m, hx.trans (congrArg _ hm), hlaw⟩

/-- Settles O15: every due command fetches its bytes before anything else. -/
theorem cutOffCommandRaisesTruncatedStream : Obligations.CutOffCommandRaisesTruncatedStream := by
  intro s i k hw hdue hk hbefore hcut
  have hdue : s.due i := by cases i <;> exact hdue
  exact ⟨_, exec_of_cut hw hdue hk hbefore hcut, rfl⟩

/-- Settles O16: the `k` bytes that are there do not decode, so the step is the cut-off of the command. -/
theorem stepAtTheEndOfTheSourceFaults : Obligations.StepAtTheEndOfTheSourceFaults := by
  intro s k hb hst hdp hbefore hcut hneed
  have hlen : s.commandBytes.length = k := State.available_length_of_cut (by simp [maxCommandBytes]; omega) hbefore hcut
  have hshort : ∃ e, s.decodeNext = .error e := by
    refine decodeNext_of_short ?_
    rw [hlen]
    exact hneed.imp_right fun ⟨hn, hf, hk⟩ => ⟨hn, hf, hk.imp_right fun ⟨h2, h0⟩ => ⟨h2, lengthNibble_of_shift h0⟩⟩
  obtain ⟨e, he⟩ := hshort
  refine ⟨_, step_of_decodeNext_error hb hst hdp he, ?_⟩
  rw [State.cutOff, hlen]
  rfl

/-- Settles O17: a back-reference that does not fit. -/
theorem tooLongBackReferenceOverruns : Obligations.TooLongBackReferenceOverruns := by
  intro s i q len hw hi hdue hlast hoff hroom
  obtain ⟨m, hm, hlaw⟩ :=
    backReference_overruns (inSource_all_of_last hlast) (backRefParts_pos hi).1 hoff hroom
  exact ⟨_, (exec_of_backRefParts hw hi hdue).trans (congrArg _ hm), hlaw, rfl⟩

/-- Settles O18: a back-reference that starts before the first destination byte. -/
theorem backReferenceBeforeTheStartIsOutOfBounds : Obligations.BackReferenceBeforeTheStartIsOutOfBounds := by
  intro s i q len hw hi hdue hlast hoff
  have hend := backReference_before (inSource_all_of_last hlast) hoff (backRefParts_pos hi).2
  exact ⟨_, (exec_of_backRefParts hw hi hdue).trans (congrArg _ hend), rfl⟩

/-- Settles O20: the start sets `dp` to 0, which is `size`, so the next step completes. -/
theorem lzdecOfSizeZeroCompletes : Obligations.LzdecOfSizeZeroCompletes := by
  intro s srcBase srcLimit dstBase hs
  refine ⟨_, _, exec_lzdec_of_startable srcBase srcLimit dstBase 0 hs, step_of_complete rfl rfl (Nat.le_refl 0),
    rfl, rfl, rfl, rfl, rfl, rfl, rfl, fun hfits => ?_⟩
  calc (lzdecComplete _).res0
      = BitVec.ofNat 32 (srcBase.toNat + 16) := lzdecComplete_res0_of_fits hfits
    _ = srcBase + 16#32 := by rw [BitVec.ofNat_add, BitVec.ofNat_toNat, BitVec.setWidth_eq]

/-- Settles O24: each kind of step by the bytes it consumes and writes. -/
theorem decoderStepsMoveForward : Obligations.DecoderStepsMoveForward := by
  intro s t hb hst h
  rcases busyStep_cases hb hst h with ⟨_, rfl⟩ | ⟨_, hn, _, flags, rfl⟩ |
    ⟨_, hn, used, m, k, _, hused, hk, hk273, _, _, rfl⟩ | ⟨_, used, m, k, c, info, hused, hk273, hk0, _, _, _, rfl⟩
  · simp
  · simp [hn]
  · simp [hn]
    omega
  · simp
    omega

/-- Settles O25: of the kinds of step only a command that faults ends in `FAULT`. -/
theorem lzdecFaultCauses : Obligations.LzdecFaultCauses := by
  intro s t hb hst h hfault
  rcases busyStep_cases hb hst h with ⟨_, rfl⟩ | ⟨_, _, _, flags, rfl⟩ |
    ⟨_, _, used, m, k, _, _, _, _, _, _, rfl⟩ | ⟨_, used, m, k, c, info, _, _, _, _, _, hc, rfl⟩
  · cases hfault
  · cases hb.symm.trans hfault
  · cases hb.symm.trans hfault
  · simpa using hc

/-- Settles O8: the payload is the beginning of the bytes available at `sp`, and the decoder inverts the encoder. -/
theorem stepRunsTheCommandAtSp : Obligations.StepRunsTheCommandAtSp := by
  intro s i payload hb hst hdp hw hi hat
  by_cases hn : s.nbits = 0
  · rw [if_pos hn] at hi
    obtain ⟨flags, rfl, rfl⟩ := eq_ctl_of_encode hi
    obtain ⟨rest, hrest⟩ := State.available_eq_append (n := 3) (by simp) hat
    exact step_of_decodeNext hb hst hdp (decodeNext_control hn hrest)
  · rw [if_neg hn] at hi
    have hlen : payload.length ≤ 3 := by
      obtain ⟨_, hform⟩ := payload_length_of_encode hi
      omega
    obtain ⟨rest, hrest⟩ := State.available_eq_append hlen hat
    exact step_of_decodeNext hb hst hdp (decodeNext_command hn hw hi hrest)

/-- Settles O12: the byte at `sp` is in the source or not. -/
theorem ctlFetchesTheControlByte : Obligations.CtlFetchesTheControlByte := by
  intro s flags hdue
  have hx : exec (.ctl flags) s = .next _ := streamCommand_of_due _ hdue
  obtain ⟨_, ⟨hin, ht⟩ | ⟨hout, ht⟩⟩ := execCtl_next hx
  · exact ⟨fun _ => hx.trans (congrArg _ ht), fun h => absurd hin h⟩
  · exact ⟨fun h => absurd h hout, fun _ => ⟨_, hx.trans (congrArg _ ht), rfl⟩⟩

/-- Settles O13: the three outcomes of a due literal exclude each other. -/
theorem litCopiesOneByte : Obligations.LitCopiesOneByte := by
  intro s v hdue
  have hx : exec (.lit v) s = .next _ := streamCommand_of_due (due := s.literalDue) _ hdue
  obtain ⟨_, ⟨hin, hroom, ht⟩ | ⟨hin, hfull, ht⟩ | ⟨hout, ht⟩⟩ := execLit_next hx
  · exact ⟨fun _ _ => hx.trans (congrArg _ ht), fun _ h => absurd hroom (Nat.not_lt.mpr h), fun h => absurd hin h⟩
  · exact ⟨fun _ h => absurd h (Nat.not_lt.mpr hfull), fun _ _ => ⟨_, hx.trans (congrArg _ ht), rfl⟩,
      fun h => absurd hin h⟩
  · exact ⟨fun h => absurd h hout, fun h => absurd h hout, fun _ => ⟨_, hx.trans (congrArg _ ht), rfl⟩⟩

/-- Settles O19: the start and the initialisation, which read nothing. -/
theorem lzdecInitialises : Obligations.LzdecInitialises :=
  fun _ srcBase srcLimit dstBase size hs => ⟨_, exec_lzdec_of_startable srcBase srcLimit dstBase size hs, rfl⟩

end Sys2Proof.Machine
end

section
/-! PROOFS. The table parser (spec 41_table_parser.md): where the scan of `LOCATE` stops (R111 to R114), and the table records
that `TDEC` reads and `TENC` writes (R115 to R118). -/

namespace Sys2Proof.Machine

/-! ### Where a scan stops -/

/-- A scan stops at a whole stride exactly when that is the first stride that passes the test. -/
theorem scanFrom_eq_iff {test : Nat → Bool} {len a q : Nat} (hq : q + 16 ≤ len) :
    scanFrom test len a = q ↔
      a ≤ q ∧ q % 16 = a % 16 ∧ test q = true ∧ ∀ x, x % 16 = a % 16 → a ≤ x → x < q → test x = false := by
  constructor
  · rintro rfl
    obtain ⟨hle, hmod, hbefore, hpass⟩ := scanFrom_spec test len a
    exact ⟨hle, hmod, hpass hq, fun x hx hax hxq => (hbefore x hx hax hxq).2⟩
  · rintro ⟨hle, hmod, hpass, hbefore⟩
    exact scanFrom_eq hle hmod hq hpass hbefore

/-- If no stride passes, a scan from an aligned address ends where the last whole stride of the memory ends. -/
theorem scanFrom_of_none {test : Nat → Bool} {len a : Nat} (ha : a % 16 = 0) (hlen : a ≤ len)
    (hnone : ∀ x, x % 16 = 0 → a ≤ x → x + 16 ≤ len → test x = false) : scanFrom test len a = len / 16 * 16 := by
  obtain ⟨hle, hmod, hbefore, _⟩ := scanFrom_spec test len a
  have hend : ¬ scanFrom test len a + 16 ≤ len := scanFrom_none fun x hx => hnone x (hx.trans ha)
  have hin : scanFrom test len a ≤ len := by
    by_cases hat : scanFrom test len a = a
    · omega
    · have := (hbefore (scanFrom test len a - 16) (by omega) (by omega) (by omega)).1
      omega
  omega

theorem isCandidate_eq_false_iff (m : Memory) (o : Nat) : isCandidate m o = false ↔ ¬ CandidateHeader m o := by
  rw [← isCandidate_iff, Bool.not_eq_true]

theorem isSentinel_eq_false_iff (m : Memory) (p : Nat) : isSentinel m p = false ↔ m.be32 p ≠ 0x00001060#32 := by
  rw [ne_eq, ← isSentinel_iff, Bool.not_eq_true]

section
variable {s t : State} {o p : Nat}

/-- The first candidate header is the whole stride at which the scan of phase A stops. -/
theorem firstCandidate_iff :
    FirstCandidate s o ↔ o + 16 ≤ s.cfg.srcLen ∧ scanFrom (isCandidate s.src) s.cfg.srcLen 0 = o := by
  constructor
  · rintro ⟨hmod, hwhole, hhead, hfirst⟩
    refine ⟨hwhole, (scanFrom_eq_iff hwhole).mpr ⟨Nat.zero_le o, hmod, (isCandidate_iff _ _).mpr hhead, ?_⟩⟩
    exact fun x hx _ hxo => (isCandidate_eq_false_iff _ _).mpr (hfirst x hx hxo)
  · rintro ⟨hwhole, hscan⟩
    obtain ⟨_, hmod, hhead, hbefore⟩ := (scanFrom_eq_iff hwhole).mp hscan
    refine ⟨hmod, hwhole, (isCandidate_iff _ _).mp hhead, fun x hx hxo => ?_⟩
    exact (isCandidate_eq_false_iff _ _).mp (hbefore x hx (Nat.zero_le x) hxo)

/-! ### `LOCATE` -/

theorem locatePhaseB_found (h : scanFrom (isSentinel s.src) s.cfg.srcLen s.p = p) (hp : p + 16 ≤ s.cfg.srcLen) :
    locatePhaseB s = (({ s with p := p } : State).complete).setRes0 (p - 16) := by
  subst h
  exact if_pos hp

theorem locatePhaseB_not_found (h : scanFrom (isSentinel s.src) s.cfg.srcLen s.p = p) (hp : ¬ p + 16 ≤ s.cfg.srcLen) :
    locatePhaseB s = ({ s with p := p } : State).raise .tableNotFound 1 := by
  subst h
  exact if_neg hp

/-- Phase B as `LOCATE` enters it from the header at `o` (R111). -/
def State.afterHeader (s : State) (o : Nat) : State := { s.begin false with o := o, p := o + 16, phase := .b }

theorem exec_locate_of_startable (hs : s.startable) :
    exec .locate s = .next (locatePhaseA { s.begin false with o := 0, phase := .a }) :=
  startOp_of_startable (fun u => .next (locatePhaseA { u with o := 0, phase := .a })) hs

/-- With a candidate header, `LOCATE` is phase B from the stride after the first one. -/
theorem exec_locate_of_firstCandidate (hs : s.startable) (ho : FirstCandidate s o) :
    exec .locate s = .next (locatePhaseB (s.afterHeader o)) := by
  obtain ⟨hwhole, rfl⟩ := firstCandidate_iff.mp ho
  exact (exec_locate_of_startable hs).trans (congrArg _ (if_pos hwhole))

/-- With no candidate header, phase A ends `LOCATE`. -/
theorem exec_locate_of_no_header (hs : s.startable)
    (hnone : ∀ x, x % 16 = 0 → x + 16 ≤ s.cfg.srcLen → ¬ CandidateHeader s.src x) :
    exec .locate s =
      .next (({ s.begin false with o := s.cfg.srcLen / 16 * 16, phase := .a } : State).raise .tableNotFound 0) := by
  have hscan : scanFrom (isCandidate s.src) s.cfg.srcLen 0 = s.cfg.srcLen / 16 * 16 :=
    scanFrom_of_none rfl (Nat.zero_le _) fun x hx _ hin => (isCandidate_eq_false_iff _ _).mpr (hnone x hx hin)
  have hend : ¬ scanFrom (isCandidate s.src) s.cfg.srcLen 0 + 16 ≤ s.cfg.srcLen := by omega
  rw [← hscan]
  exact (exec_locate_of_startable hs).trans (congrArg _ (if_neg hend))

/-- The scan of phase B finds `p`, the first stride after the header with the sentinel word. -/
theorem scanFrom_isSentinel (ho : o % 16 = 0) (hmod : p % 16 = 0) (hop : o < p) (hp : p + 16 ≤ s.cfg.srcLen)
    (hword : s.src.be32 p = 0x00001060#32)
    (hfirst : ∀ x, x % 16 = 0 → o < x → x < p → s.src.be32 x ≠ 0x00001060#32) :
    scanFrom (isSentinel s.src) s.cfg.srcLen (o + 16) = p := by
  refine (scanFrom_eq_iff hp).mpr ⟨by omega, by omega, (isSentinel_iff _ _).mpr hword, fun x hx hox hxp => ?_⟩
  exact (isSentinel_eq_false_iff _ _).mpr (hfirst x (by omega) (by omega) hxp)

/-- A `LOCATE` that ends `DONE` has scanned to a header and then to a sentinel, both in whole strides. -/
theorem locate_done (h : exec .locate s = .next t) (hdone : t.status = .done) :
    ∃ o p, FirstCandidate s o ∧ p + 16 ≤ s.cfg.srcLen ∧ scanFrom (isSentinel s.src) s.cfg.srcLen (o + 16) = p ∧
      (p - 16 < 2 ^ 32 → t.res0 = BitVec.ofNat 32 (p - 16)) := by
  obtain ⟨_, o, hscan, ⟨hwhole, rfl⟩ | ⟨_, rfl⟩⟩ := execLocate_next h
  · obtain ⟨p, hp, ⟨hin, hB⟩ | ⟨_, hB⟩⟩ := locatePhaseB_cases (s.afterHeader o)
    · exact ⟨o, p, firstCandidate_iff.mpr ⟨hwhole, hscan.symm⟩, hin, hp.symm,
        fun hfits => (congrArg State.res0 hB).trans (if_pos hfits)⟩
    · cases (congrArg State.status hB).symm.trans hdone
  · cases hdone

end

/-! ### The words of a record in memory -/

theorem Memory.be32_writeBe32_outside (m : Memory) {a b : Nat} (v : Word) (h : b + 4 ≤ a ∨ a + 4 ≤ b) :
    (m.writeBe32 a v).be32 b = m.be32 b :=
  Memory.be32_congr fun _ _ => Memory.read_writeBe32_outside m v (by omega)

/-- The four words of a record stand at its offsets 0, 4, 8 and 12 (R70). -/
theorem Memory.be32_writeRecord (m : Memory) (a : Nat) (sv ev sp ep : Word) :
    (m.writeRecord a sv ev sp ep).be32 a = sv ∧ (m.writeRecord a sv ev sp ep).be32 (a + 4) = ev ∧
      (m.writeRecord a sv ev sp ep).be32 (a + 8) = sp ∧ (m.writeRecord a sv ev sp ep).be32 (a + 12) = ep := by
  unfold Memory.writeRecord
  refine ⟨?_, ?_, ?_, Memory.be32_writeBe32_same _ _ _⟩
  · rw [be32_writeBe32_outside, be32_writeBe32_outside, be32_writeBe32_outside, be32_writeBe32_same] <;> omega
  · rw [be32_writeBe32_outside, be32_writeBe32_outside, be32_writeBe32_same] <;> omega
  · rw [be32_writeBe32_outside, be32_writeBe32_same]
    omega

theorem Memory.wordByte_be32 (m : Memory) (a : Nat) {k : Nat} (hk : k < 4) : wordByte (m.be32 a) k = m.read (a + k) := by
  obtain ⟨h0, h1, h2, h3⟩ := wordByte_append4 (m.read a) (m.read (a + 1)) (m.read (a + 2)) (m.read (a + 3))
  interval_cases k
  · exact h0
  · exact h1
  · exact h2
  · exact h3

/-- Writing a word of `m` at its own address into a memory that reads as `m` changes no byte. -/
theorem Memory.read_writeBe32_be32 {m n : Memory} (h : ∀ b, n.read b = m.read b) (a b : Nat) :
    (n.writeBe32 a (m.be32 a)).read b = m.read b := by
  by_cases hb : b < a ∨ a + 4 ≤ b
  · rw [Memory.read_writeBe32_outside n _ hb, h]
  · obtain ⟨k, rfl⟩ : ∃ k, b = a + k := ⟨b - a, by omega⟩
    have hk : k < 4 := by omega
    rw [Memory.read_writeBe32_add n a _ hk, Memory.wordByte_be32 m a hk]

/-- Writing back the four words of a record changes no byte. -/
theorem Memory.read_writeRecord_be32 (m : Memory) (a b : Nat) :
    (m.writeRecord a (m.be32 a) (m.be32 (a + 4)) (m.be32 (a + 8)) (m.be32 (a + 12))).read b = m.read b := by
  have h1 := Memory.read_writeBe32_be32 (m := m) (fun _ => rfl) a
  have h2 := Memory.read_writeBe32_be32 h1 (a + 4)
  have h3 := Memory.read_writeBe32_be32 h2 (a + 8)
  exact Memory.read_writeBe32_be32 h3 (a + 12) b

/-! ### `TDEC` and `TENC` -/

section
variable {s : State} {base index : Word}

/-- `INFO` of a record outside its memory: the low 32 bits of the address (R115, R116). -/
theorem recordAddr_ofNat (base index : Word) : BitVec.ofNat 32 (recordAddr base index) = base + 16#32 * index := by
  simp [recordAddr, Config.entryBytes, BitVec.ofNat_add, BitVec.ofNat_mul]

theorem exec_tdec_of_startable (sel : MemSel) (hs : s.startable) :
    exec (.tdec sel base index) s = .next (tableDecode sel (recordAddr base index) (s.begin false)) :=
  startOp_of_startable (fun u => .next (tableDecode sel (recordAddr base index) u)) hs

theorem exec_tdec_inside (sel : MemSel) (hs : s.startable) (h : recordAddr base index + 16 ≤ s.memoryLen sel) :
    exec (.tdec sel base index) s = .next (readRecord (s.memory sel) (recordAddr base index) (s.begin false)) :=
  (exec_tdec_of_startable sel hs).trans (congrArg _ (if_pos h))

theorem exec_tdec_outside (sel : MemSel) (hs : s.startable) (h : s.memoryLen sel < recordAddr base index + 16) :
    exec (.tdec sel base index) s = .next ((s.begin false).raise .boundsError (recordAddr base index)) :=
  (exec_tdec_of_startable sel hs).trans (congrArg _ (if_neg (Nat.not_le.mpr h)))

theorem exec_tenc_of_startable (sv ev sp ep : Word) (hs : s.startable) :
    exec (.tenc base index sv ev sp ep) s =
      .next (tableEncode (recordAddr base index) sv ev sp ep (s.begin false)) :=
  startOp_of_startable (fun u => .next (tableEncode (recordAddr base index) sv ev sp ep u)) hs

theorem exec_tenc_inside (sv ev sp ep : Word) (hs : s.startable) (h : recordAddr base index + 16 ≤ s.cfg.dstLen) :
    exec (.tenc base index sv ev sp ep) s =
      .next ({ s.begin false with dst := s.dst.writeRecord (recordAddr base index) sv ev sp ep } : State).complete :=
  (exec_tenc_of_startable sv ev sp ep hs).trans (congrArg _ (if_pos h))

theorem exec_tenc_outside (sv ev sp ep : Word) (hs : s.startable) (h : s.cfg.dstLen < recordAddr base index + 16) :
    exec (.tenc base index sv ev sp ep) s = .next ((s.begin false).raise .boundsError (recordAddr base index)) :=
  (exec_tenc_of_startable sv ev sp ep hs).trans (congrArg _ (if_neg (Nat.not_le.mpr h)))

end

/-! ### The obligations -/

/-- Settles O26: phase A stops at `o`, and phase B, from the next stride on, at `p`. -/
theorem locateReturnsTheStrideBeforeTheSentinel : Obligations.LocateReturnsTheStrideBeforeTheSentinel := by
  intro s o p hs ho hmod hop hp hword hfirst
  have hscan := scanFrom_isSentinel ho.1 hmod hop hp hword hfirst
  have hB : locatePhaseB (s.afterHeader o) = _ := locatePhaseB_found hscan hp
  exact ⟨_, (exec_locate_of_firstCandidate hs ho).trans (congrArg _ hB), fun hfits => if_pos hfits, rfl⟩

/-- Settles O27: no test of phase A passes. -/
theorem locateWithoutHeaderFails : Obligations.LocateWithoutHeaderFails :=
  fun _ hs hnone => ⟨_, exec_locate_of_no_header hs hnone, rfl⟩

/-- Settles O28: phase A stops at `o`, and no test of phase B passes. -/
theorem locateWithoutSentinelFails : Obligations.LocateWithoutSentinelFails := by
  intro s o hs ho hnone
  have ⟨hmod, hwhole, _⟩ := ho
  have hscan : scanFrom (isSentinel s.src) s.cfg.srcLen (o + 16) = s.cfg.srcLen / 16 * 16 :=
    scanFrom_of_none (by omega) hwhole fun x hx hox hin =>
      (isSentinel_eq_false_iff _ _).mpr (hnone x hx (by omega) hin)
  have hB : locatePhaseB (s.afterHeader o) = _ :=
    locatePhaseB_not_found hscan (show ¬ s.cfg.srcLen / 16 * 16 + 16 ≤ s.cfg.srcLen by omega)
  exact ⟨_, (exec_locate_of_firstCandidate hs ho).trans (congrArg _ hB), rfl⟩

/-- Settles O29: `T` is the stride before the sentinel, at which phase B has stopped. -/
theorem locateResultIsATable : Obligations.LocateResultIsATable := by
  intro s t h hdone
  obtain ⟨o, p, ho, hp, hscan, hres⟩ := locate_done h hdone
  obtain ⟨hle, hmod, hsentinel, _⟩ := (scanFrom_eq_iff hp).mp hscan
  have hmod0 : o % 16 = 0 := ho.1
  obtain ⟨T, rfl⟩ : ∃ T, p = T + 16 := ⟨p - 16, by omega⟩
  exact ⟨o, T, ho, by omega, by omega, hp, (isSentinel_iff _ _).mp hsentinel, hres⟩

/-- Settles O31: the record is inside DST or not. -/
theorem tencWritesTheRecord : Obligations.TencWritesTheRecord := by
  intro s base index sv ev sp ep hs
  refine ⟨fun hin => ?_, fun hout => ?_⟩
  · obtain ⟨h0, h1, h2, h3⟩ := s.dst.be32_writeRecord (recordAddr base index) sv ev sp ep
    exact ⟨_, exec_tenc_inside sv ev sp ep hs hin, h0, h1, h2, h3,
      fun _ => s.dst.read_writeRecord_outside sv ev sp ep, rfl⟩
  · refine ⟨_, exec_tenc_outside sv ev sp ep hs hout, ?_⟩
    rw [← recordAddr_ofNat]
    rfl

/-- Settles O32: an operation that completed leaves the block `DONE`, so the next one may start, and its record has passed
the check of the bounds. -/
theorem entryRoundTrip : Obligations.EntryRoundTrip := by
  constructor
  · intro s t base index a b c d h hdone
    obtain ⟨_, ⟨hin, rfl⟩ | ⟨_, rfl⟩⟩ := execTenc_next h
    · exact ⟨_, exec_tdec_inside .dst (.inl (.inr hdone)) hin, rfl, s.dst.be32_writeRecord _ a b c d⟩
    · cases hdone
  · intro s t base index h hdone
    obtain ⟨_, ⟨hin, rfl⟩ | ⟨_, rfl⟩⟩ := execTdec_next h
    · have hread := s.dst.read_writeRecord_be32 (recordAddr base index)
      exact ⟨_, exec_tenc_inside _ _ _ _ (.inl (.inr hdone)) hin, rfl, hread,
        fun hwf => Memory.ext_of_read (Memory.writeRecord_wf _ _ _ _ _ hwf) hwf hread⟩
    · cases hdone

/-- Settles O30: the record is inside the selected memory or not. -/
theorem tdecReadsTheRecord : Obligations.TdecReadsTheRecord := by
  intro s sel base index hs
  refine ⟨fun hin => ⟨_, exec_tdec_inside sel hs hin, rfl, rfl, rfl, rfl, rfl⟩, fun hout => ?_⟩
  refine ⟨_, exec_tdec_outside sel hs hout, ?_⟩
  rw [← recordAddr_ofNat]
  rfl

/-- Settles O33: the words are compared as natural numbers. -/
theorem entryHelpers : Obligations.EntryHelpers := by
  intro e
  refine ⟨fun hle => ?_, fun hlt => ?_, ?_⟩
  · exact if_neg (by rw [BitVec.lt_def]; omega)
  · exact if_pos (BitVec.lt_def.mpr hlt)
  · rw [isCompressed, bne_iff_ne]

end Sys2Proof.Machine
end

section
/-! PROOFS. The checksum engine (spec 42_checksum_engine.md): one accumulation step (R139 to R146), the accumulation loop read
from its end (R137, R138) and on the all-zero window (R152), the three outcomes of `FIXCHK` (R130, R131, R136, R150), and what
its results depend on (R151). -/

namespace Sys2Proof.Machine

/-! ### One accumulation step -/

/-- The wrapped sum is below a summand exactly when the sum of the naturals does not fit (R139). -/
theorem carries_iff (t6 d : Word) : carries t6 d = true ↔ 2 ^ 32 ≤ t6.toNat + d.toNat := by
  have h6 := t6.isLt
  have hd := d.isLt
  rw [carries, decide_eq_true_iff, BitVec.lt_def, BitVec.toNat_add]
  omega

theorem exceeds_iff (t2 d : Word) : exceeds t2 d = true ↔ d.toNat < t2.toNat := by
  rw [exceeds, decide_eq_true_iff, BitVec.lt_def]

/-- The model's rotation, which never shifts by 32, is the library's (R142, R154). -/
theorem rotl32_eq_rotateLeft (x : Word) {k : Nat} (hk : k < 32) : rotl32 x k = x.rotateLeft k := by
  rw [rotl32, BitVec.rotateLeft_def, Nat.mod_eq_of_lt hk]
  split
  · next h0 => rw [h0, BitVec.shiftLeft_zero, BitVec.ushiftRight_eq_zero (Nat.le_refl 32), BitVec.or_zero]
  · rfl

theorem rotation_eq_rotateLeft (d : Word) : rotation d = d.rotateLeft (d.toNat % 32) := by
  have hlow : (d &&& 0x1F#32).toNat = d.toNat % 32 :=
    (BitVec.toNat_and d 0x1F#32).trans (Nat.and_two_pow_sub_one_eq_mod _ 5)
  rw [rotation, hlow, rotl32_eq_rotateLeft d (Nat.mod_lt _ (by decide))]

/-- Line 7 of every other variant adds the new `t5` (R145). -/
theorem accAddend_of_ne {v : Variant} (hv : v ≠ .v6105) (lookup d t5 : Word) : accAddend v lookup d t5 = t5 ^^^ d := by
  cases v with
  | v6105 => exact absurd rfl hv
  | v6101 | v6102 | v6103 | v6106 => rfl

/-- A zero word moves `t1` only, by the amount of `t5` (R152). -/
theorem accStep_zero {v : Variant} (hv : v ≠ .v6105) (lookup : Word) {t : Accumulators} (h2 : t.t2 ≠ 0#32) :
    accStep v lookup 0#32 t = { t with t1 := t.t1 + t.t5 } := by
  have hcarry : carries t.t6 0#32 = false := by simp [carries]
  have hexceeds : exceeds t.t2 0#32 = true := decide_eq_true ((BitVec.pos_iff_ne_zero _).mpr h2)
  have hrotation : rotation 0#32 = 0#32 := rfl
  simp [accStep, hcarry, hexceeds, hrotation, accAddend_of_ne hv]

/-! ### The accumulation loop -/

theorem windowWord_eq (m : Memory) (i : Nat) : windowWord m i = m.be32 (0x1000 + i) := rfl

/-- The mask of the lookup offset is a remainder (R146). -/
theorem lookupWord_eq (m : Memory) (i : Nat) : lookupWord m i = m.be32 (0x750 + i % 0x100) := by
  rw [lookupWord, Config.lut6105Off, Nat.and_two_pow_sub_one_eq_mod i 8]

/-- The loop read from its end: one more word is one more step after the words before it. -/
theorem accLoop_succ (m : Memory) (v : Variant) (n i : Nat) (t : Accumulators) :
    accLoop m v (n + 1) i t =
      accStep v (lookupWord m (i + 4 * n)) (windowWord m (i + 4 * n)) (accLoop m v n i t) := by
  induction n generalizing i t with
  | zero => rfl
  | succ n ih => rw [accLoop, ih, show i + 4 + 4 * n = i + 4 * (n + 1) by omega, ← accLoop]

theorem accumulate_eq_accLoop (m : Memory) (seed : Word) (v : Variant) :
    accumulate m seed v = accLoop m v 262144 0 (accInit seed) := by
  have hwords : Config.winLen / 4 = 262144 := by norm_num [Config.winLen]
  unfold accumulate
  rw [hwords]

/-- Four zero bytes of the window read as the word of the empty memory. -/
theorem windowWord_of_zero {m : Memory} (hzero : ∀ k, k < 0x100000 → m.read (0x1000 + k) = 0#8) {k : Nat}
    (hk : k < 262144) : windowWord m (4 * k) = 0#32 := by
  have hempty : Memory.be32 [] 0 = 0#32 := rfl
  rw [windowWord_eq, ← hempty]
  refine Memory.be32_congr fun j hj => ?_
  rw [Nat.add_assoc, hzero _ (by omega), Memory.read_nil, Memory.unlisted]

/-- Each of the first `n` words of a zero window adds the seed to `t1` (R152). -/
theorem accLoop_zero_window {m : Memory} {v : Variant} {seed : Word} (hv : v ≠ .v6105) (hseed : seed ≠ 0#32) (n : Nat)
    (hzero : ∀ k, k < n → windowWord m (4 * k) = 0#32) :
    accLoop m v n 0 (accInit seed) = { accInit seed with t1 := seed * (1 + BitVec.ofNat 32 n) } := by
  induction n with
  | zero => simp [accLoop, accInit]
  | succ n ih =>
    have hbefore := ih fun k hk => hzero k (Nat.lt_succ_of_lt hk)
    have hword : windowWord m (0 + 4 * n) = 0#32 := by rw [Nat.zero_add]; exact hzero n (Nat.lt_succ_self n)
    have hadd : seed * (1 + BitVec.ofNat 32 n) + seed = seed * (1 + BitVec.ofNat 32 (n + 1)) := by
      rw [show BitVec.ofNat 32 (n + 1) = BitVec.ofNat 32 n + 1 from BitVec.ofNat_add n 1]
      ring
    rw [accLoop_succ, hword, hbefore, accStep_zero hv _ hseed]
    simp only [accInit, hadd]

/-- The accumulation depends on the window and, for variant 6105, on the lookup region (R151). -/
theorem accumulate_congr {m n : Memory} {v : Variant} (seed : Word)
    (hwin : ∀ k, k < 0x100000 → m.read (0x1000 + k) = n.read (0x1000 + k))
    (hlut : v = .v6105 → ∀ k, k < 0x100 → m.read (0x750 + k) = n.read (0x750 + k)) :
    accumulate m seed v = accumulate n seed v := by
  rw [accumulate_eq_accLoop, accumulate_eq_accLoop]
  refine accLoop_congr _ _ _ (fun k hk => ?_) (fun hv k _ => ?_)
  · rw [windowWord_eq, windowWord_eq]
    refine Memory.be32_congr fun j hj => ?_
    rw [Nat.add_assoc]
    exact hwin _ (by omega)
  · rw [lookupWord_eq, lookupWord_eq]
    refine Memory.be32_congr fun j hj => ?_
    rw [Nat.add_assoc]
    exact hlut hv _ (by omega)

/-! ### The two checksum words in memory -/

theorem bootCrc_eq (m : Memory) : bootCrc m = crc32 (m.bytes 0x40 4032) := rfl

/-- The boot CRC depends on the boot-code region (R134, R151). -/
theorem bootCrc_congr {m n : Memory} (h : ∀ a, 0x40 ≤ a → a < 0x1000 → m.read a = n.read a) : bootCrc m = bootCrc n := by
  rw [bootCrc_eq, bootCrc_eq, Memory.bytes_congr fun k hk => h (0x40 + k) (by omega) (by omega)]

theorem Memory.be32_writeChecksum (m : Memory) (w0 w1 : Word) :
    (m.writeChecksum w0 w1).be32 0x10 = w0 ∧ (m.writeChecksum w0 w1).be32 0x14 = w1 := by
  refine ⟨?_, Memory.be32_writeBe32_same _ _ _⟩
  rw [writeChecksum, be32_writeBe32_outside _ _ (by decide)]
  exact be32_writeBe32_same _ _ _

/-- Writing the same two words again changes no byte. -/
theorem Memory.read_writeChecksum_again (m : Memory) (w0 w1 : Word) (a : Nat) :
    ((m.writeChecksum w0 w1).writeChecksum w0 w1).read a = (m.writeChecksum w0 w1).read a := by
  obtain ⟨h0, h1⟩ := m.be32_writeChecksum w0 w1
  have hfirst := Memory.read_writeBe32_be32 (m := m.writeChecksum w0 w1) (fun _ => rfl) 0x10
  have hboth := Memory.read_writeBe32_be32 hfirst 0x14 a
  rwa [h0, h1] at hboth

/-- The two words stand outside the boot-code region (R151). -/
theorem bootCrc_writeChecksum (m : Memory) (w0 w1 : Word) : bootCrc (m.writeChecksum w0 w1) = bootCrc m :=
  bootCrc_congr fun _ _ _ => m.read_writeChecksum_outside w0 w1 (by omega)

/-- The two words stand outside the window and the lookup region (R151). -/
theorem accumulate_writeChecksum (m : Memory) (w0 w1 seed : Word) (v : Variant) :
    accumulate (m.writeChecksum w0 w1) seed v = accumulate m seed v :=
  accumulate_congr seed (fun _ _ => m.read_writeChecksum_outside w0 w1 (by omega))
    fun _ _ _ => m.read_writeChecksum_outside w0 w1 (by omega)

/-! ### `FIXCHK` -/

section
variable {s t : State} {v : Variant} {seed : Word}

/-- The state in which `FIXCHK` completes on an image of the variant `v` (R130, R150). -/
def State.checksummed (s : State) (v : Variant) (seed : Word) : State :=
  publishChecksum (combineRegs (accumulateRegs { s.begin false with crc := bootCrc s.dst, variant := v, seed := seed }))

theorem State.checksummed_res0 (s : State) (v : Variant) (seed : Word) :
    (s.checksummed v seed).res0 = (combine v (accumulate s.dst seed v)).1 := rfl

theorem State.checksummed_res1 (s : State) (v : Variant) (seed : Word) :
    (s.checksummed v seed).res1 = (combine v (accumulate s.dst seed v)).2 := rfl

theorem State.checksummed_res2 (s : State) (v : Variant) (seed : Word) : (s.checksummed v seed).res2 = v.number := rfl

theorem State.checksummed_res3 (s : State) (v : Variant) (seed : Word) : (s.checksummed v seed).res3 = bootCrc s.dst := rfl

theorem State.checksummed_dst (s : State) (v : Variant) (seed : Word) :
    (s.checksummed v seed).dst = s.dst.writeChecksum (s.checksummed v seed).res0 (s.checksummed v seed).res1 := rfl

theorem exec_fixchk_of_startable (hs : s.startable) (hc : s.cfg.crcsDistinct) :
    exec .fixchk s = .next (fixChecksum (s.begin false)) := by
  rw [exec, execFixchk, startOp_of_startable _ hs]
  exact if_pos hc

theorem exec_fixchk_short (hs : s.startable) (hc : s.cfg.crcsDistinct) (hlen : s.cfg.dstLen < 0x101000) :
    exec .fixchk s = .next ((s.begin false).raise .boundsError s.cfg.dstLen) :=
  (exec_fixchk_of_startable hs hc).trans (congrArg _ (if_pos hlen))

theorem exec_fixchk_unknown (hs : s.startable) (hc : s.cfg.crcsDistinct) (hlen : 0x101000 ≤ s.cfg.dstLen)
    (hcic : cicOfCrc s.cfg (bootCrc s.dst) = none) :
    exec .fixchk s =
      .next (({ s.begin false with crc := bootCrc s.dst } : State).raise .unsupportedBootVariant (bootCrc s.dst).toNat) := by
  have hfits : ¬ (s.begin false).cfg.dstLen < Config.checksumEnd := Nat.not_lt.mpr hlen
  rw [exec_fixchk_of_startable hs hc, fixChecksum, if_neg hfits, State.begin_cfg, State.begin_dst, hcic]
  rfl

theorem exec_fixchk_known (hs : s.startable) (hc : s.cfg.crcsDistinct) (hlen : 0x101000 ≤ s.cfg.dstLen)
    (hcic : cicOfCrc s.cfg (bootCrc s.dst) = some (v, seed)) : exec .fixchk s = .next (s.checksummed v seed) := by
  have hfits : ¬ (s.begin false).cfg.dstLen < Config.checksumEnd := Nat.not_lt.mpr hlen
  rw [exec_fixchk_of_startable hs hc, fixChecksum, if_neg hfits, State.begin_cfg, State.begin_dst, hcic]
  rfl

/-- A `FIXCHK` that ends `DONE` has passed its checks and found a variant. -/
theorem exec_fixchk_done (h : exec .fixchk s = .next t) (hdone : t.status = .done) :
    s.cfg.crcsDistinct ∧ 0x101000 ≤ s.cfg.dstLen ∧
      ∃ v seed, cicOfCrc s.cfg (bootCrc s.dst) = some (v, seed) ∧ t = s.checksummed v seed := by
  obtain ⟨_, hc, ⟨_, rfl⟩ | ⟨_, _, rfl⟩ | ⟨hlen, v, seed, hcic, rfl⟩⟩ := execFixchk_next h
  · cases hdone
  · cases hdone
  · exact ⟨hc, hlen, v, seed, hcic, rfl⟩

/-- A second `FIXCHK` finds the same CRC, hence the same variant and seed. -/
theorem exec_fixchk_checksummed (hc : s.cfg.crcsDistinct) (hlen : 0x101000 ≤ s.cfg.dstLen)
    (hcic : cicOfCrc s.cfg (bootCrc s.dst) = some (v, seed)) :
    exec .fixchk (s.checksummed v seed) = .next ((s.checksummed v seed).checksummed v seed) := by
  refine exec_fixchk_known (.inl (.inr rfl)) hc hlen ?_
  rw [State.checksummed_dst, bootCrc_writeChecksum]
  exact hcic

/-- The results of the second run are those of the first. -/
theorem State.checksummed_again (s : State) (v : Variant) (seed : Word) :
    ((s.checksummed v seed).checksummed v seed).res0 = (s.checksummed v seed).res0 ∧
      ((s.checksummed v seed).checksummed v seed).res1 = (s.checksummed v seed).res1 ∧
      ((s.checksummed v seed).checksummed v seed).res2 = (s.checksummed v seed).res2 ∧
      ((s.checksummed v seed).checksummed v seed).res3 = (s.checksummed v seed).res3 := by
  have hacc : accumulate (s.checksummed v seed).dst seed v = accumulate s.dst seed v := by
    rw [checksummed_dst, accumulate_writeChecksum]
  refine ⟨?_, ?_, rfl, ?_⟩
  · rw [checksummed_res0, hacc, ← checksummed_res0]
  · rw [checksummed_res1, hacc, ← checksummed_res1]
  · rw [checksummed_res3, checksummed_dst, bootCrc_writeChecksum, ← checksummed_res3]

end

/-! ### The obligations -/

/-- Settles O34: the completion on an image of a known variant, and what the write of the two words does to DST. -/
theorem fixchkWritesTheChecksum : Obligations.FixchkWritesTheChecksum := by
  intro s v seed hs hc hlen hcic
  obtain ⟨h0, h1⟩ := s.dst.be32_writeChecksum (s.checksummed v seed).res0 (s.checksummed v seed).res1
  exact ⟨_, exec_fixchk_known hs hc hlen hcic, rfl, rfl, rfl, rfl, h0, h1,
    fun _ => s.dst.read_writeChecksum_outside _ _, rfl⟩

/-- Settles O35: a CRC outside the table selects no variant, and the raise comes before the accumulation. -/
theorem unknownBootCodeIsUnsupported : Obligations.UnknownBootCodeIsUnsupported := by
  intro s crc hs hc hlen hcrc hnone
  obtain rfl : crc = bootCrc s.dst := hcrc
  have hinfo : BitVec.ofNat 32 (bootCrc s.dst).toNat = bootCrc s.dst := by simp
  refine ⟨_, exec_fixchk_unknown hs hc hlen (cicOfCrc_eq_none hnone), ?_⟩
  rw [State.raise, hinfo]
  rfl

/-- Settles O39: the carry, the rotation and the comparison in the terms of the statement, and line 7 by the variant. -/
theorem accStepFollowsTheSevenLines : Obligations.AccStepFollowsTheSevenLines := by
  intro v lookup d t
  rw [← rotation_eq_rotateLeft]
  refine ⟨if_congr (carries_iff _ _) rfl rfl, rfl, rfl, rfl, if_congr (exceeds_iff _ _) rfl rfl, ?_⟩
  split
  · next hv => subst hv; rfl
  · next hv => exact congrArg (t.t1 + ·) (accAddend_of_ne hv _ _ _)

/-- Settles O40: the sequence is the loop after each number of words. -/
theorem accumulateFollowsTheLoop : Obligations.AccumulateFollowsTheLoop := by
  intro m seed v
  refine ⟨fun k => accLoop m v k 0 (accInit seed), rfl, (accumulate_eq_accLoop m seed v).symm, fun k _ => ?_⟩
  rw [← lookupWord_eq, ← windowWord_eq]
  simpa only [Nat.zero_add] using accLoop_succ m v k 0 (accInit seed)

/-- Settles O42: the zero bytes are zero words, each of which adds the seed to `t1`. -/
theorem zeroWindowChecksum : Obligations.ZeroWindowChecksum := by
  intro m hzero
  have hacc (seed : Word) (v : Variant) (hv : v ≠ .v6105) (hseed : seed ≠ 0#32) :
      accumulate m seed v = ⟨seed * (1 + 2 ^ 18), seed, seed, seed, seed, seed⟩ :=
    (accumulate_eq_accLoop m seed v).trans (accLoop_zero_window hv hseed 262144 fun _ => windowWord_of_zero hzero)
  refine ⟨hacc, ?_⟩
  rw [hacc _ _ (by decide) (by decide)]
  decide

/-- Settles O43: the second run finds the CRC and the accumulators of the first, since the two words stand outside the regions
that these depend on. -/
theorem checksumDependsOnItsRegions : Obligations.ChecksumDependsOnItsRegions := by
  refine ⟨fun m m' => bootCrc_congr, fun m m' seed v hwin hlut => ?_, fun s t h hdone => ?_⟩
  · rw [accumulate_congr seed hwin hlut]
  · obtain ⟨hc, hlen, v, seed, hcic, rfl⟩ := exec_fixchk_done h hdone
    obtain ⟨h0, h1, h2, h3⟩ := s.checksummed_again v seed
    refine ⟨_, exec_fixchk_checksummed hc hlen hcic, rfl, h0, h1, h2, h3, fun a => ?_⟩
    rw [State.checksummed_dst, h0, h1, State.checksummed_dst]
    exact Memory.read_writeChecksum_again _ _ _ _

/-- Settles O36: the length is checked first. -/
theorem fixchkOnAShortImageIsOutOfBounds : Obligations.FixchkOnAShortImageIsOutOfBounds :=
  fun _ hs hc hlen => ⟨_, exec_fixchk_short hs hc hlen, rfl⟩

/-- Settles O38: the table entries and the empty CRC compute; the nine bytes go through the rounds one by one. -/
theorem crcCheckValues : Obligations.CrcCheckValues := by
  refine ⟨rfl, rfl, rfl, rfl, rfl, rfl, ?_⟩
  simp [crc32, crcUpdate, crcTab, crcRounds, crcRound, Config.crcPoly]

/-- Settles O41: the rows of `Combine`. -/
theorem combineByVariant : Obligations.CombineByVariant := by
  refine fun t => ⟨rfl, rfl, fun v hv => ?_⟩
  rcases hv with rfl | rfl | rfl <;> rfl

end Sys2Proof.Machine
end

section
/-! PROOFS. The host's own primitives (spec 43_host_sequence.md): the pair swap and the normalization of the input (R161), the
size check (R162), and the three ways in which the host changes DST (R163, R167, R170). -/

namespace Sys2Proof.Machine

/-! ### The pair swap and the normalization -/

@[simp] theorem length_pairSwap (raw : List Byte) : (pairSwap raw).length = raw.length := by
  induction raw using pairSwap.induct with
  | case1 a b rest ih => simp [pairSwap, ih]
  | case2 a => rfl
  | case3 => rfl

@[simp] theorem pairSwap_pairSwap (raw : List Byte) : pairSwap (pairSwap raw) = raw := by
  induction raw using pairSwap.induct with
  | case1 a b rest ih => simp [pairSwap, ih]
  | case2 a => rfl
  | case3 => rfl

/-- Each byte of a whole pair is the other byte of the pair in the input, whether or not a last byte is left over. -/
theorem getElem?_pairSwap (raw : List Byte) (k : Nat) (hk : 2 * k + 1 < raw.length) :
    (pairSwap raw)[2 * k]? = raw[2 * k + 1]? ∧ (pairSwap raw)[2 * k + 1]? = raw[2 * k]? := by
  induction raw using pairSwap.induct generalizing k with
  | case1 a b rest ih =>
    cases k with
    | zero => exact ⟨rfl, rfl⟩
    | succ k => exact ih k (by simp only [List.length_cons] at hk; omega)
  | case2 a => simp at hk
  | case3 => simp at hk

theorem normalize_of_swapped {raw : List Byte} (h : raw[0]? = some 0x37#8) : normalize raw = pairSwap raw :=
  if_pos (List.head?_eq_getElem?.trans h)

theorem normalize_of_not_swapped {raw : List Byte} (h : raw[0]? ≠ some 0x37#8) : normalize raw = raw :=
  if_neg (List.head?_eq_getElem? ▸ h)

/-! ### The size check -/

theorem checkSize_of_ne {cfg : Params} {raw : List Byte} (h : raw.length ≠ cfg.srcLen) :
    checkSize cfg raw = .error (.fault .invalidImageSize) := if_neg h

theorem transform_of_checkSize_error {cfg : Params} {raw : List Byte} {a : Abort} (h : checkSize cfg raw = .error a) :
    transform cfg raw = .error a := by rw [transform, h]

/-! ### Memories with some addresses left out -/

/-- With the cells of some addresses left out, these addresses read as unlisted and the others as before. -/
theorem Memory.read_filter (m : Memory) (keep : Nat → Prop) [DecidablePred keep] (a : Nat) :
    Memory.read (m.filter fun c => decide (keep c.1)) a = if keep a then m.read a else Memory.unlisted := by
  induction m with
  | nil => exact (ite_self _).symm
  | cons c m ih =>
    obtain ⟨k, v⟩ := c
    rw [List.filter_cons]
    by_cases hk : keep k
    · rw [if_pos (decide_eq_true hk), Memory.read_cons, Memory.read_cons, ih]
      by_cases ha : a = k
      · subst ha; simp [hk]
      · simp [ha]
    · rw [if_neg (by simpa using hk), ih]
      refine ite_congr rfl (fun ha => ?_) fun _ => rfl
      rw [Memory.read_cons, if_neg (by rintro rfl; exact hk ha)]

theorem read_prepareDst (s : State) (a : Nat) :
    (prepareDst s).dst.read a = if a < s.cfg.srcLen ∧ a < s.cfg.dstLen then s.src.read a else 0#8 :=
  Memory.read_filter s.src (fun a => a < s.cfg.srcLen ∧ a < s.cfg.dstLen) a

theorem read_zeroFill (lo hi : Nat) (s : State) (a : Nat) :
    (zeroFill lo hi s).dst.read a = if a < lo ∨ hi ≤ a then s.dst.read a else 0#8 :=
  Memory.read_filter s.dst (fun a => a < lo ∨ hi ≤ a) a

/-! ### Copying a file -/

/-- `copyBytes` changes DST only: it puts the bytes of SRC into its range and leaves the rest as it was. -/
theorem copyBytes_spec (a b count : Nat) (s : State) :
    ∃ m, copyBytes a b count s = { s with dst := m } ∧
      (∀ j, j < count → m.read (b + j) = s.src.read (a + j)) ∧
      ∀ x, x < b ∨ b + count ≤ x → m.read x = s.dst.read x := by
  induction count generalizing a b s with
  | zero => exact ⟨s.dst, rfl, fun j hj => absurd hj (Nat.not_lt_zero j), fun _ _ => rfl⟩
  | succ count ih =>
    obtain ⟨m, hm, hcopied, hframe⟩ := ih (a + 1) (b + 1) { s with dst := s.dst.write b (s.src.read a) }
    refine ⟨m, hm, fun j hj => ?_, fun x hx => ?_⟩
    · cases j with
      | zero => exact (hframe b (by omega)).trans (Memory.read_write_same _ _ _)
      | succ j =>
        have hnext := hcopied j (by omega)
        rwa [Nat.add_right_comm, Nat.add_right_comm a] at hnext
    · exact (hframe x (by omega)).trans (Memory.read_write_ne _ _ (by omega))

theorem copyFile_of_inside {e : TableEntry} {size : Nat} {s : State} (hsrc : e.startPhysical.toNat + size ≤ s.cfg.srcLen)
    (hdst : e.startVirtual.toNat + size ≤ s.cfg.dstLen) :
    copyFile e size s = .ok (copyBytes e.startPhysical.toNat e.startVirtual.toNat size s) :=
  if_pos ⟨hsrc, hdst⟩

theorem copyFile_of_outside {e : TableEntry} {size : Nat} {s : State}
    (h : s.cfg.srcLen < e.startPhysical.toNat + size ∨ s.cfg.dstLen < e.startVirtual.toNat + size) :
    copyFile e size s = .error (.fault .boundsError) :=
  if_neg (by omega)

/-! ### The obligations -/

/-- Settles O56: the normalization is the pair swap or nothing, by the first byte. -/
theorem normalizeSwapsPairs : Obligations.NormalizeSwapsPairs := by
  refine fun raw => ⟨fun hswapped _ => ?_, normalize_of_not_swapped, pairSwap_pairSwap raw⟩
  rw [normalize_of_swapped hswapped]
  exact ⟨length_pairSwap raw, getElem?_pairSwap raw⟩

/-- Settles O58: below `DST_LEN` only the bound `SRC_LEN` of the preparation is left. -/
theorem prepareDstCopiesTheSource : Obligations.PrepareDstCopiesTheSource := by
  intro s a ha
  rw [read_prepareDst]
  exact if_congr (and_iff_left ha) rfl rfl

/-- Settles O59: the bounds decide between the copy and the fault. -/
theorem copyFileCopiesOrFaults : Obligations.CopyFileCopiesOrFaults := by
  refine fun e size s => ⟨fun hsrc hdst => ?_, copyFile_of_outside⟩
  obtain ⟨m, hm, hcopied, hframe⟩ := copyBytes_spec e.startPhysical.toNat e.startVirtual.toNat size s
  exact ⟨m, (copyFile_of_inside hsrc hdst).trans (congrArg _ hm), hcopied, hframe⟩

/-- Settles O60: an address of the range is one that the fill leaves out. -/
theorem zeroFillClearsTheRange : Obligations.ZeroFillClearsTheRange := by
  refine fun s lo hi => ⟨fun a hlo hhi => ?_, fun a hout => ?_, rfl⟩
  · rw [read_zeroFill, if_neg (by omega)]
  · rw [read_zeroFill, if_pos hout]

/-- Settles O57: the size check comes first. -/
theorem wrongImageSizeIsInvalid : Obligations.WrongImageSizeIsInvalid :=
  fun _ _ h => transform_of_checkSize_error (checkSize_of_ne h)

end Sys2Proof.Machine
end

section
/-! PROOFS. Exceptions (spec 60_exceptions.md R187): in `FAULT` the engine stays as it is, the host's start and the start
inside every host operation are refused, and a reset is the way out. -/

namespace Sys2Proof.Machine

theorem hostStart_of_fault {s : State} (h : s.status = .fault) : hostStart s = .refused .startAfterFault := by
  rw [hostStart, h]

/-- Every host operation begins with a start, and so meets the refusal of a start in `FAULT`. -/
theorem exec_of_fault {s : State} {i : Instr} (h : s.status = .fault) (hi : i.streamBytes = 0) :
    exec i s = .refused .startAfterFault := by
  obtain ⟨run, hrun⟩ := exec_eq_startOp hi
  rw [hrun, startOp_of_fault run h]

@[simp] theorem hostReset_status (s : State) : (hostReset s).status = .idle := rfl
@[simp] theorem hostReset_err (s : State) : (hostReset s).err = none := rfl

/-- Settles O44: the engine steps only while `BUSY`, both starts look at `STATUS` first, and a reset writes `STATUS` and
`ERR`. -/
theorem faultIsSticky : Obligations.FaultIsSticky := by
  intro s hfault
  have hnotBusy : s.status ≠ .busy := by simp [hfault]
  exact ⟨step_of_not_busy hnotBusy, hostStart_of_fault hfault, fun _ => exec_of_fault hfault, hostReset_status s,
    hostReset_err s⟩

end Sys2Proof.Machine
end

section
/-! PROOFS. Reset (spec 70_reset_and_hazards.md R200, R201): the reset state is what a reset event makes of itself, so what
holds after every reset event holds in the reset state; and nothing runs after it, so that a step changes nothing. -/

namespace Sys2Proof.Machine

/-- A reset event keeps only the parameters and the count of free values, and the reset state has its own. -/
theorem hostReset_reset : hostReset State.reset = State.reset := rfl

theorem hostReset_errCode (s : State) : (hostReset s).errCode = 0 := State.errCode_of_none (hostReset_err s)

theorem step_hostReset (s : State) : step (hostReset s) = .next (hostReset s) :=
  step_of_not_busy (by simp [hostReset_status])

/-- Settles O9: the engine fetches only while `STATUS` is `BUSY`. -/
theorem stepWithoutWorkChangesNothing : Obligations.StepWithoutWorkChangesNothing :=
  fun _ => step_of_not_busy

/-- Settles O48: a reset writes `STATUS` and `ERR`, and a step without work changes nothing; the reset state is its own
reset. -/
theorem resetIsIdleWithoutFault : Obligations.ResetIsIdleWithoutFault := by
  have hstatus : State.reset.status = .idle := hostReset_reset ▸ hostReset_status State.reset
  have herr : State.reset.err = none := hostReset_reset ▸ hostReset_err State.reset
  exact ⟨hstatus, herr, fun s => ⟨hostReset_status s, hostReset_errCode s, step_hostReset s⟩⟩

/-- Settles O53: every reset event establishes the invariant, and the reset state is its own reset. -/
theorem resetMeetsTheInvariant : Obligations.ResetMeetsTheInvariant := by
  have hinv : (hostReset State.reset).Inv := hostReset_inv State.reset
  rwa [hostReset_reset] at hinv

end Sys2Proof.Machine
end
